-- ==== Sys2Proof/Word.lean ====
section
/-! DEFINITION. The words of the block's ports and channels (00_scope.md R10, R14; 10_state.md R21, R22). -/

namespace Sys2Proof

/-- One location of a byte channel (20_memory.md R40). -/
abbrev Byte := BitVec 8

/-- A command word, CMD (10_state.md R21). -/
abbrev Word := BitVec 32

/-- A data word, DIN or DOUT (10_state.md R21, R22). -/
abbrev Data := BitVec 64

end Sys2Proof
end

