-- ==== Sys2Proof/Syntax.lean ====
section
/-! DEFINITION. The commands of the block: one constructor for each row of 30_encoding.md R70, with the fields its format uses
(R61) in the order U, NL, SO, SZ, EX. `U`, `NL` and `SO` are one-bit flags (R62 to R64); `SZ` and `EX` are unsigned numbers
(R65, R66), which WellFormed.lean bounds by their field widths. -/

namespace Sys2Proof

/-- A decoded command (30_encoding.md R60, R61, R70). -/
inductive Instr where
  /-- RDBITS, R103: read SZ raw bits. -/
  | rdbits (sz : Nat)
  /-- WRBITS, R104: write the low SZ bits of DIN. -/
  | wrbits (sz : Nat)
  /-- SKIPR, R105: discard DIN bits of input. -/
  | skipr
  /-- SKIPW, R106: write DIN zero bits. -/
  | skipw
  /-- ALIGNR, R107: discard input bits up to a byte boundary. -/
  | alignr
  /-- ALIGNW, R108: write zero bits up to a byte boundary. -/
  | alignw
  /-- RESETW, R109: reinitialize the writer's counters. -/
  | resetw
  /-- FLUSHW, R110: pass a flush to the output channel. -/
  | flushw
  /-- CLOSER, R112: close the input session. -/
  | closer
  /-- CLOSEW, R111: close the output session. -/
  | closew
  /-- WRINT, R133: write a sized int. -/
  | wrint (u : Bool) (sz : Nat)
  /-- RDINT, R134: read a sized int. -/
  | rdint (u : Bool) (sz : Nat)
  /-- WRLONG, R135: write a sized long. -/
  | wrlong (u : Bool) (sz : Nat)
  /-- RDLONG, R136: read a sized long. -/
  | rdlong (u : Bool) (sz : Nat)
  /-- WRBOOL, R137: write a boolean. -/
  | wrbool
  /-- RDBOOL, R138: read a boolean. -/
  | rdbool
  /-- WRBYTE, R139: write a sized byte. -/
  | wrbyte (u : Bool) (sz : Nat)
  /-- RDBYTE, R140: read a sized byte. -/
  | rdbyte (u : Bool) (sz : Nat)
  /-- WRSHORT, R141: write a sized short. -/
  | wrshort (u : Bool) (sz : Nat)
  /-- RDSHORT, R142: read a sized short. -/
  | rdshort (u : Bool) (sz : Nat)
  /-- WRCHAR, R143: write a sized char. -/
  | wrchar (sz : Nat)
  /-- RDCHAR, R144: read a sized char. -/
  | rdchar (sz : Nat)
  /-- WRBYTE8, R145: write a whole byte. -/
  | wrbyte8
  /-- RDBYTE8, R146: read a whole byte. -/
  | rdbyte8
  /-- WRSHORT16, R147: write a whole short. -/
  | wrshort16
  /-- RDSHORT16, R148: read a whole short. -/
  | rdshort16
  /-- WRINT32, R149: write a whole int. -/
  | wrint32
  /-- RDINT32, R150: read a whole int. -/
  | rdint32
  /-- WRLONG64, R151: write a whole long. -/
  | wrlong64
  /-- RDLONG64, R152: read a whole long. -/
  | rdlong64
  /-- WRCHAR16, R153: write a whole char. -/
  | wrchar16
  /-- RDCHAR16, R154: read a whole char. -/
  | rdchar16
  /-- WRFLOAT, R174: write a float with EX exponent and SZ significand bits. -/
  | wrfloat (nl : Bool) (sz : Nat) (ex : Nat)
  /-- RDFLOAT, R175: read a float with EX exponent and SZ significand bits. -/
  | rdfloat (nl : Bool) (sz : Nat) (ex : Nat)
  /-- WRDOUBLE, R176: write a double with EX exponent and SZ significand bits. -/
  | wrdouble (nl : Bool) (sz : Nat) (ex : Nat)
  /-- RDDOUBLE, R177: read a double with EX exponent and SZ significand bits. -/
  | rddouble (nl : Bool) (sz : Nat) (ex : Nat)
  /-- WRZEROF, R191: write a float Zero. -/
  | wrzerof (nl : Bool)
  /-- RDZEROF, R192: read a float Zero. -/
  | rdzerof (nl : Bool)
  /-- WRZEROD, R193: write a double Zero. -/
  | wrzerod (nl : Bool)
  /-- RDZEROD, R194: read a double Zero. -/
  | rdzerod (nl : Bool)
  /-- WRINFF, R195: write a float Infinity. -/
  | wrinff (nl : Bool)
  /-- RDINFF, R196: read a float Infinity. -/
  | rdinff (nl : Bool)
  /-- WRINFD, R197: write a double Infinity. -/
  | wrinfd (nl : Bool)
  /-- RDINFD, R198: read a double Infinity. -/
  | rdinfd (nl : Bool)
  /-- WRSUBF, R199: write a float Subnormal in SZ significand bits. -/
  | wrsubf (nl : Bool) (sz : Nat)
  /-- RDSUBF, R200: read a float Subnormal in SZ significand bits. -/
  | rdsubf (nl : Bool) (sz : Nat)
  /-- WRSUBD, R201: write a double Subnormal in SZ significand bits. -/
  | wrsubd (nl : Bool) (sz : Nat)
  /-- RDSUBD, R202: read a double Subnormal in SZ significand bits. -/
  | rdsubd (nl : Bool) (sz : Nat)
  /-- WRNANF, R203: write a float NaN in SZ significand bits. -/
  | wrnanf (nl : Bool) (so : Bool) (sz : Nat)
  /-- RDNANF, R204: read a float NaN in SZ significand bits. -/
  | rdnanf (nl : Bool) (so : Bool) (sz : Nat)
  /-- WRNAND, R205: write a double NaN in SZ significand bits. -/
  | wrnand (nl : Bool) (so : Bool) (sz : Nat)
  /-- RDNAND, R206: read a double NaN in SZ significand bits. -/
  | rdnand (nl : Bool) (so : Bool) (sz : Nat)
  /-- ISZEROF, R221: test whether a float is a Zero. -/
  | iszerof
  /-- ISZEROD, R222: test whether a double is a Zero. -/
  | iszerod
  /-- ISINFF, R223: test whether a float is an Infinity. -/
  | isinff
  /-- ISINFD, R224: test whether a double is an Infinity. -/
  | isinfd
  /-- ISNANF, R225: test whether a float is a NaN. -/
  | isnanf
  /-- ISNAND, R226: test whether a double is a NaN. -/
  | isnand
  /-- CLASSF, R227: the category code of a float. -/
  | classf
  /-- CLASSD, R228: the category code of a double. -/
  | classd
  /-- WRVLQI, R243: write a non-negative int as a variable-length quantity. -/
  | wrvlqi
  /-- RDVLQI, R244: read a non-negative int as a variable-length quantity. -/
  | rdvlqi
  /-- WRVLQL, R245: write a non-negative long as a variable-length quantity. -/
  | wrvlql
  /-- RDVLQL, R246: read a non-negative long as a variable-length quantity. -/
  | rdvlql
deriving DecidableEq, Repr

end Sys2Proof
end

