-- ==== Sys2Proof/Decode.lean ====
section
/-! DEFINITION. Decoding and encoding of command words (30_encoding.md). `decode` is total (R72) and rejects an illegal word by
name (R71); `encode` writes the word of a well-formed command from the same layout (R60, R61, R70). -/

namespace Sys2Proof

/-- `v[hi:lo]`, the field of bits hi down to lo as an unsigned number (00_scope.md R11). -/
def bitsAt (v hi lo : Nat) : Nat := v / 2 ^ lo % 2 ^ (hi - lo + 1)

/-- The fields of a command word (30_encoding.md R60). -/
structure Fields where
  opc : Nat
  u : Nat
  nl : Nat
  so : Nat
  sz : Nat
  ex : Nat
  rsv : Nat
deriving DecidableEq, Repr

/-- The seven formats (30_encoding.md R61). -/
inductive Format where
  | F0
  | FS
  | FUS
  | FNSE
  | FN
  | FNS
  | FNOS
deriving DecidableEq, Repr

/-- Why a word is illegal (30_encoding.md R71). Each is reported as ILLEGAL_COMMAND. -/
inductive DecodeError where
  /-- OPC is not in the map of R70. -/
  | unknownOpcode (opc : Nat)
  /-- U, NL, SO, SZ or EX is not 0 in a format that does not use it. -/
  | unusedFieldNotZero
  /-- RSV is not 0 (R67). -/
  | reservedNotZero
deriving DecidableEq, Repr

/-- The fields of a word, at the positions of R60. -/
def fieldsOf (w : Word) : Fields where
  opc := bitsAt w.toNat 31 24
  u := bitsAt w.toNat 23 23
  nl := bitsAt w.toNat 22 22
  so := bitsAt w.toNat 21 21
  sz := bitsAt w.toNat 20 14
  ex := bitsAt w.toNat 13 10
  rsv := bitsAt w.toNat 9 0

/-- Does the format use U (30_encoding.md R61)? -/
def Format.usesU : Format → Bool
  | .FUS => true
  | .F0 | .FS | .FNSE | .FN | .FNS | .FNOS => false

/-- Does the format use NL (30_encoding.md R61)? -/
def Format.usesNL : Format → Bool
  | .FNSE | .FN | .FNS | .FNOS => true
  | .F0 | .FS | .FUS => false

/-- Does the format use SO (30_encoding.md R61)? -/
def Format.usesSO : Format → Bool
  | .FNOS => true
  | .F0 | .FS | .FUS | .FNSE | .FN | .FNS => false

/-- Does the format use SZ (30_encoding.md R61)? -/
def Format.usesSZ : Format → Bool
  | .FS | .FUS | .FNSE | .FNS | .FNOS => true
  | .F0 | .FN => false

/-- Does the format use EX (30_encoding.md R61)? -/
def Format.usesEX : Format → Bool
  | .FNSE => true
  | .F0 | .FS | .FUS | .FN | .FNS | .FNOS => false

/-- "A field a command does not use must be 0" (30_encoding.md R61). -/
def unusedZero (fmt : Format) (f : Fields) : Bool :=
  (fmt.usesU || f.u == 0) && (fmt.usesNL || f.nl == 0) && (fmt.usesSO || f.so == 0) &&
    (fmt.usesSZ || f.sz == 0) && (fmt.usesEX || f.ex == 0)

/-- The command of a row, once the fields its format leaves unused and RSV are seen to be 0 (30_encoding.md R71). -/
def legal (fmt : Format) (f : Fields) (i : Instr) : Except DecodeError Instr :=
  if unusedZero fmt f = false then .error .unusedFieldNotZero
  else if f.rsv ≠ 0 then .error .reservedNotZero
  else .ok i

/-- A one-bit field as a flag. -/
def flag (b : Nat) : Bool := b == 1

/-- The row of the opcode map that a word's fields select (30_encoding.md R70, R71, R72). -/
def decodeFields (f : Fields) : Except DecodeError Instr :=
  match f.opc with
  | 0x01 => legal .FS f (.rdbits f.sz)
  | 0x02 => legal .FS f (.wrbits f.sz)
  | 0x03 => legal .F0 f .skipr
  | 0x04 => legal .F0 f .skipw
  | 0x05 => legal .F0 f .alignr
  | 0x06 => legal .F0 f .alignw
  | 0x07 => legal .F0 f .resetw
  | 0x08 => legal .F0 f .flushw
  | 0x09 => legal .F0 f .closer
  | 0x0A => legal .F0 f .closew
  | 0x10 => legal .FUS f (.wrint (flag f.u) f.sz)
  | 0x11 => legal .FUS f (.rdint (flag f.u) f.sz)
  | 0x12 => legal .FUS f (.wrlong (flag f.u) f.sz)
  | 0x13 => legal .FUS f (.rdlong (flag f.u) f.sz)
  | 0x14 => legal .F0 f .wrbool
  | 0x15 => legal .F0 f .rdbool
  | 0x16 => legal .FUS f (.wrbyte (flag f.u) f.sz)
  | 0x17 => legal .FUS f (.rdbyte (flag f.u) f.sz)
  | 0x18 => legal .FUS f (.wrshort (flag f.u) f.sz)
  | 0x19 => legal .FUS f (.rdshort (flag f.u) f.sz)
  | 0x1A => legal .FS f (.wrchar f.sz)
  | 0x1B => legal .FS f (.rdchar f.sz)
  | 0x1C => legal .F0 f .wrbyte8
  | 0x1D => legal .F0 f .rdbyte8
  | 0x1E => legal .F0 f .wrshort16
  | 0x1F => legal .F0 f .rdshort16
  | 0x20 => legal .F0 f .wrint32
  | 0x21 => legal .F0 f .rdint32
  | 0x22 => legal .F0 f .wrlong64
  | 0x23 => legal .F0 f .rdlong64
  | 0x24 => legal .F0 f .wrchar16
  | 0x25 => legal .F0 f .rdchar16
  | 0x30 => legal .FNSE f (.wrfloat (flag f.nl) f.sz f.ex)
  | 0x31 => legal .FNSE f (.rdfloat (flag f.nl) f.sz f.ex)
  | 0x32 => legal .FNSE f (.wrdouble (flag f.nl) f.sz f.ex)
  | 0x33 => legal .FNSE f (.rddouble (flag f.nl) f.sz f.ex)
  | 0x34 => legal .FN f (.wrzerof (flag f.nl))
  | 0x35 => legal .FN f (.rdzerof (flag f.nl))
  | 0x36 => legal .FN f (.wrzerod (flag f.nl))
  | 0x37 => legal .FN f (.rdzerod (flag f.nl))
  | 0x38 => legal .FN f (.wrinff (flag f.nl))
  | 0x39 => legal .FN f (.rdinff (flag f.nl))
  | 0x3A => legal .FN f (.wrinfd (flag f.nl))
  | 0x3B => legal .FN f (.rdinfd (flag f.nl))
  | 0x3C => legal .FNS f (.wrsubf (flag f.nl) f.sz)
  | 0x3D => legal .FNS f (.rdsubf (flag f.nl) f.sz)
  | 0x3E => legal .FNS f (.wrsubd (flag f.nl) f.sz)
  | 0x3F => legal .FNS f (.rdsubd (flag f.nl) f.sz)
  | 0x40 => legal .FNOS f (.wrnanf (flag f.nl) (flag f.so) f.sz)
  | 0x41 => legal .FNOS f (.rdnanf (flag f.nl) (flag f.so) f.sz)
  | 0x42 => legal .FNOS f (.wrnand (flag f.nl) (flag f.so) f.sz)
  | 0x43 => legal .FNOS f (.rdnand (flag f.nl) (flag f.so) f.sz)
  | 0x48 => legal .F0 f .iszerof
  | 0x49 => legal .F0 f .iszerod
  | 0x4A => legal .F0 f .isinff
  | 0x4B => legal .F0 f .isinfd
  | 0x4C => legal .F0 f .isnanf
  | 0x4D => legal .F0 f .isnand
  | 0x4E => legal .F0 f .classf
  | 0x4F => legal .F0 f .classd
  | 0x50 => legal .F0 f .wrvlqi
  | 0x51 => legal .F0 f .rdvlqi
  | 0x52 => legal .F0 f .wrvlql
  | 0x53 => legal .F0 f .rdvlql
  | opc => .error (.unknownOpcode opc)

/-- Decoding of a command word (30_encoding.md R72). -/
def decode (w : Word) : Except DecodeError Instr := decodeFields (fieldsOf w)

/-- A word from its fields, at the positions of R60; RSV is 0 (R67). -/
def pack (opc u nl so sz ex : Nat) : Word :=
  BitVec.ofNat 32 (opc * 2 ^ 24 + u * 2 ^ 23 + nl * 2 ^ 22 + so * 2 ^ 21 + sz * 2 ^ 14 + ex * 2 ^ 10)

/-- The word of a well-formed command (30_encoding.md R60, R61, R70). -/
def encode : Instr → Word
  | .rdbits sz => pack 0x01 0 0 0 sz 0
  | .wrbits sz => pack 0x02 0 0 0 sz 0
  | .skipr => pack 0x03 0 0 0 0 0
  | .skipw => pack 0x04 0 0 0 0 0
  | .alignr => pack 0x05 0 0 0 0 0
  | .alignw => pack 0x06 0 0 0 0 0
  | .resetw => pack 0x07 0 0 0 0 0
  | .flushw => pack 0x08 0 0 0 0 0
  | .closer => pack 0x09 0 0 0 0 0
  | .closew => pack 0x0A 0 0 0 0 0
  | .wrint u sz => pack 0x10 u.toNat 0 0 sz 0
  | .rdint u sz => pack 0x11 u.toNat 0 0 sz 0
  | .wrlong u sz => pack 0x12 u.toNat 0 0 sz 0
  | .rdlong u sz => pack 0x13 u.toNat 0 0 sz 0
  | .wrbool => pack 0x14 0 0 0 0 0
  | .rdbool => pack 0x15 0 0 0 0 0
  | .wrbyte u sz => pack 0x16 u.toNat 0 0 sz 0
  | .rdbyte u sz => pack 0x17 u.toNat 0 0 sz 0
  | .wrshort u sz => pack 0x18 u.toNat 0 0 sz 0
  | .rdshort u sz => pack 0x19 u.toNat 0 0 sz 0
  | .wrchar sz => pack 0x1A 0 0 0 sz 0
  | .rdchar sz => pack 0x1B 0 0 0 sz 0
  | .wrbyte8 => pack 0x1C 0 0 0 0 0
  | .rdbyte8 => pack 0x1D 0 0 0 0 0
  | .wrshort16 => pack 0x1E 0 0 0 0 0
  | .rdshort16 => pack 0x1F 0 0 0 0 0
  | .wrint32 => pack 0x20 0 0 0 0 0
  | .rdint32 => pack 0x21 0 0 0 0 0
  | .wrlong64 => pack 0x22 0 0 0 0 0
  | .rdlong64 => pack 0x23 0 0 0 0 0
  | .wrchar16 => pack 0x24 0 0 0 0 0
  | .rdchar16 => pack 0x25 0 0 0 0 0
  | .wrfloat nl sz ex => pack 0x30 0 nl.toNat 0 sz ex
  | .rdfloat nl sz ex => pack 0x31 0 nl.toNat 0 sz ex
  | .wrdouble nl sz ex => pack 0x32 0 nl.toNat 0 sz ex
  | .rddouble nl sz ex => pack 0x33 0 nl.toNat 0 sz ex
  | .wrzerof nl => pack 0x34 0 nl.toNat 0 0 0
  | .rdzerof nl => pack 0x35 0 nl.toNat 0 0 0
  | .wrzerod nl => pack 0x36 0 nl.toNat 0 0 0
  | .rdzerod nl => pack 0x37 0 nl.toNat 0 0 0
  | .wrinff nl => pack 0x38 0 nl.toNat 0 0 0
  | .rdinff nl => pack 0x39 0 nl.toNat 0 0 0
  | .wrinfd nl => pack 0x3A 0 nl.toNat 0 0 0
  | .rdinfd nl => pack 0x3B 0 nl.toNat 0 0 0
  | .wrsubf nl sz => pack 0x3C 0 nl.toNat 0 sz 0
  | .rdsubf nl sz => pack 0x3D 0 nl.toNat 0 sz 0
  | .wrsubd nl sz => pack 0x3E 0 nl.toNat 0 sz 0
  | .rdsubd nl sz => pack 0x3F 0 nl.toNat 0 sz 0
  | .wrnanf nl so sz => pack 0x40 0 nl.toNat so.toNat sz 0
  | .rdnanf nl so sz => pack 0x41 0 nl.toNat so.toNat sz 0
  | .wrnand nl so sz => pack 0x42 0 nl.toNat so.toNat sz 0
  | .rdnand nl so sz => pack 0x43 0 nl.toNat so.toNat sz 0
  | .iszerof => pack 0x48 0 0 0 0 0
  | .iszerod => pack 0x49 0 0 0 0 0
  | .isinff => pack 0x4A 0 0 0 0 0
  | .isinfd => pack 0x4B 0 0 0 0 0
  | .isnanf => pack 0x4C 0 0 0 0 0
  | .isnand => pack 0x4D 0 0 0 0 0
  | .classf => pack 0x4E 0 0 0 0 0
  | .classd => pack 0x4F 0 0 0 0 0
  | .wrvlqi => pack 0x50 0 0 0 0 0
  | .rdvlqi => pack 0x51 0 0 0 0 0
  | .wrvlql => pack 0x52 0 0 0 0 0
  | .rdvlql => pack 0x53 0 0 0 0 0

/-- A row of the opcode map: "a word w selects the row when `(w & mask) = match`" (30_encoding.md R70). -/
structure OpcodeRow where
  mnemonic : String
  pattern : Word
  mask : Word
deriving DecidableEq, Repr

/-- Does a word select a row (30_encoding.md R70)? -/
def OpcodeRow.selects (r : OpcodeRow) (w : Word) : Bool := w &&& r.mask == r.pattern

/-- The opcode map as 30_encoding.md R70 prints it, 0x01 to 0x25: the cursor and integer commands. -/
def opcodeMapIntegers : List OpcodeRow :=
  [ ⟨"RDBITS", 0x01000000, 0xFFE03FFF⟩
  , ⟨"WRBITS", 0x02000000, 0xFFE03FFF⟩
  , ⟨"SKIPR", 0x03000000, 0xFFFFFFFF⟩
  , ⟨"SKIPW", 0x04000000, 0xFFFFFFFF⟩
  , ⟨"ALIGNR", 0x05000000, 0xFFFFFFFF⟩
  , ⟨"ALIGNW", 0x06000000, 0xFFFFFFFF⟩
  , ⟨"RESETW", 0x07000000, 0xFFFFFFFF⟩
  , ⟨"FLUSHW", 0x08000000, 0xFFFFFFFF⟩
  , ⟨"CLOSER", 0x09000000, 0xFFFFFFFF⟩
  , ⟨"CLOSEW", 0x0A000000, 0xFFFFFFFF⟩
  , ⟨"WRINT", 0x10000000, 0xFF603FFF⟩
  , ⟨"RDINT", 0x11000000, 0xFF603FFF⟩
  , ⟨"WRLONG", 0x12000000, 0xFF603FFF⟩
  , ⟨"RDLONG", 0x13000000, 0xFF603FFF⟩
  , ⟨"WRBOOL", 0x14000000, 0xFFFFFFFF⟩
  , ⟨"RDBOOL", 0x15000000, 0xFFFFFFFF⟩
  , ⟨"WRBYTE", 0x16000000, 0xFF603FFF⟩
  , ⟨"RDBYTE", 0x17000000, 0xFF603FFF⟩
  , ⟨"WRSHORT", 0x18000000, 0xFF603FFF⟩
  , ⟨"RDSHORT", 0x19000000, 0xFF603FFF⟩
  , ⟨"WRCHAR", 0x1A000000, 0xFFE03FFF⟩
  , ⟨"RDCHAR", 0x1B000000, 0xFFE03FFF⟩
  , ⟨"WRBYTE8", 0x1C000000, 0xFFFFFFFF⟩
  , ⟨"RDBYTE8", 0x1D000000, 0xFFFFFFFF⟩
  , ⟨"WRSHORT16", 0x1E000000, 0xFFFFFFFF⟩
  , ⟨"RDSHORT16", 0x1F000000, 0xFFFFFFFF⟩
  , ⟨"WRINT32", 0x20000000, 0xFFFFFFFF⟩
  , ⟨"RDINT32", 0x21000000, 0xFFFFFFFF⟩
  , ⟨"WRLONG64", 0x22000000, 0xFFFFFFFF⟩
  , ⟨"RDLONG64", 0x23000000, 0xFFFFFFFF⟩
  , ⟨"WRCHAR16", 0x24000000, 0xFFFFFFFF⟩
  , ⟨"RDCHAR16", 0x25000000, 0xFFFFFFFF⟩ ]

/-- The opcode map as 30_encoding.md R70 prints it, 0x30 to 0x53: the float, detector and VLQ commands. -/
def opcodeMapFloats : List OpcodeRow :=
  [ ⟨"WRFLOAT", 0x30000000, 0xFFA003FF⟩
  , ⟨"RDFLOAT", 0x31000000, 0xFFA003FF⟩
  , ⟨"WRDOUBLE", 0x32000000, 0xFFA003FF⟩
  , ⟨"RDDOUBLE", 0x33000000, 0xFFA003FF⟩
  , ⟨"WRZEROF", 0x34000000, 0xFFBFFFFF⟩
  , ⟨"RDZEROF", 0x35000000, 0xFFBFFFFF⟩
  , ⟨"WRZEROD", 0x36000000, 0xFFBFFFFF⟩
  , ⟨"RDZEROD", 0x37000000, 0xFFBFFFFF⟩
  , ⟨"WRINFF", 0x38000000, 0xFFBFFFFF⟩
  , ⟨"RDINFF", 0x39000000, 0xFFBFFFFF⟩
  , ⟨"WRINFD", 0x3A000000, 0xFFBFFFFF⟩
  , ⟨"RDINFD", 0x3B000000, 0xFFBFFFFF⟩
  , ⟨"WRSUBF", 0x3C000000, 0xFFA03FFF⟩
  , ⟨"RDSUBF", 0x3D000000, 0xFFA03FFF⟩
  , ⟨"WRSUBD", 0x3E000000, 0xFFA03FFF⟩
  , ⟨"RDSUBD", 0x3F000000, 0xFFA03FFF⟩
  , ⟨"WRNANF", 0x40000000, 0xFF803FFF⟩
  , ⟨"RDNANF", 0x41000000, 0xFF803FFF⟩
  , ⟨"WRNAND", 0x42000000, 0xFF803FFF⟩
  , ⟨"RDNAND", 0x43000000, 0xFF803FFF⟩
  , ⟨"ISZEROF", 0x48000000, 0xFFFFFFFF⟩
  , ⟨"ISZEROD", 0x49000000, 0xFFFFFFFF⟩
  , ⟨"ISINFF", 0x4A000000, 0xFFFFFFFF⟩
  , ⟨"ISINFD", 0x4B000000, 0xFFFFFFFF⟩
  , ⟨"ISNANF", 0x4C000000, 0xFFFFFFFF⟩
  , ⟨"ISNAND", 0x4D000000, 0xFFFFFFFF⟩
  , ⟨"CLASSF", 0x4E000000, 0xFFFFFFFF⟩
  , ⟨"CLASSD", 0x4F000000, 0xFFFFFFFF⟩
  , ⟨"WRVLQI", 0x50000000, 0xFFFFFFFF⟩
  , ⟨"RDVLQI", 0x51000000, 0xFFFFFFFF⟩
  , ⟨"WRVLQL", 0x52000000, 0xFFFFFFFF⟩
  , ⟨"RDVLQL", 0x53000000, 0xFFFFFFFF⟩ ]

/-- The opcode map (30_encoding.md R70). -/
def opcodeMap : List OpcodeRow := opcodeMapIntegers ++ opcodeMapFloats

/-- The mnemonic of a command (30_encoding.md R70). -/
def Instr.mnemonic : Instr → String
  | .rdbits _ => "RDBITS"
  | .wrbits _ => "WRBITS"
  | .skipr => "SKIPR"
  | .skipw => "SKIPW"
  | .alignr => "ALIGNR"
  | .alignw => "ALIGNW"
  | .resetw => "RESETW"
  | .flushw => "FLUSHW"
  | .closer => "CLOSER"
  | .closew => "CLOSEW"
  | .wrint _ _ => "WRINT"
  | .rdint _ _ => "RDINT"
  | .wrlong _ _ => "WRLONG"
  | .rdlong _ _ => "RDLONG"
  | .wrbool => "WRBOOL"
  | .rdbool => "RDBOOL"
  | .wrbyte _ _ => "WRBYTE"
  | .rdbyte _ _ => "RDBYTE"
  | .wrshort _ _ => "WRSHORT"
  | .rdshort _ _ => "RDSHORT"
  | .wrchar _ => "WRCHAR"
  | .rdchar _ => "RDCHAR"
  | .wrbyte8 => "WRBYTE8"
  | .rdbyte8 => "RDBYTE8"
  | .wrshort16 => "WRSHORT16"
  | .rdshort16 => "RDSHORT16"
  | .wrint32 => "WRINT32"
  | .rdint32 => "RDINT32"
  | .wrlong64 => "WRLONG64"
  | .rdlong64 => "RDLONG64"
  | .wrchar16 => "WRCHAR16"
  | .rdchar16 => "RDCHAR16"
  | .wrfloat _ _ _ => "WRFLOAT"
  | .rdfloat _ _ _ => "RDFLOAT"
  | .wrdouble _ _ _ => "WRDOUBLE"
  | .rddouble _ _ _ => "RDDOUBLE"
  | .wrzerof _ => "WRZEROF"
  | .rdzerof _ => "RDZEROF"
  | .wrzerod _ => "WRZEROD"
  | .rdzerod _ => "RDZEROD"
  | .wrinff _ => "WRINFF"
  | .rdinff _ => "RDINFF"
  | .wrinfd _ => "WRINFD"
  | .rdinfd _ => "RDINFD"
  | .wrsubf _ _ => "WRSUBF"
  | .rdsubf _ _ => "RDSUBF"
  | .wrsubd _ _ => "WRSUBD"
  | .rdsubd _ _ => "RDSUBD"
  | .wrnanf _ _ _ => "WRNANF"
  | .rdnanf _ _ _ => "RDNANF"
  | .wrnand _ _ _ => "WRNAND"
  | .rdnand _ _ _ => "RDNAND"
  | .iszerof => "ISZEROF"
  | .iszerod => "ISZEROD"
  | .isinff => "ISINFF"
  | .isinfd => "ISINFD"
  | .isnanf => "ISNANF"
  | .isnand => "ISNAND"
  | .classf => "CLASSF"
  | .classd => "CLASSD"
  | .wrvlqi => "WRVLQI"
  | .rdvlqi => "RDVLQI"
  | .wrvlql => "WRVLQL"
  | .rdvlql => "RDVLQL"

/-- The command that the decoder reads from the low `nbits` bits of `w`; every command is the one word CMD (30_encoding.md
R73), so every bit above `nbits` is 0. -/
def decodeTableWord (nbits w : Nat) : Option Instr :=
  match decode (BitVec.ofNat 32 (w % 2 ^ nbits)) with
  | .ok i => some i
  | .error _ => none

end Sys2Proof
end

