-- ==== Sys2Proof/Config.lean ====
section
/-! DEFINITION. The build parameters the spec leaves OPEN (00_scope.md R9, R10; 92_eei_decisions.md D17): the minimum
exponent and significand sizes of the general float codecs. Nothing can evaluate them. DESIGN CHOICE (log 7), safe: a claim
that is proved holds for every value R9 allows. -/

namespace Sys2Proof

/-- `FLOAT_EXP_MIN - 1`; R9 bounds `FLOAT_EXP_MIN` by 1 and 8. -/
opaque Config.floatExpMinPred : Fin 8

/-- `FLOAT_SIG_MIN - 1`; R9 bounds `FLOAT_SIG_MIN` by 1 and 23. -/
opaque Config.floatSigMinPred : Fin 23

/-- `DOUBLE_EXP_MIN - 1`; R9 bounds `DOUBLE_EXP_MIN` by 1 and 11. -/
opaque Config.doubleExpMinPred : Fin 11

/-- `DOUBLE_SIG_MIN - 1`; R9 bounds `DOUBLE_SIG_MIN` by 1 and 52. -/
opaque Config.doubleSigMinPred : Fin 52

/-- `FLOAT_EXP_MIN` (R9). -/
def Config.floatExpMin : Nat := Config.floatExpMinPred.val + 1

/-- `FLOAT_SIG_MIN` (R9). -/
def Config.floatSigMin : Nat := Config.floatSigMinPred.val + 1

/-- `DOUBLE_EXP_MIN` (R9). -/
def Config.doubleExpMin : Nat := Config.doubleExpMinPred.val + 1

/-- `DOUBLE_SIG_MIN` (R9). -/
def Config.doubleSigMin : Nat := Config.doubleSigMinPred.val + 1

end Sys2Proof
end

