-- ==== Sys2Proof/Machine/State.lean ====
section
/-! DEFINITION. The state of the block (10_state.md), its two byte channels (20_memory.md) and its host, as plain data, and
block reset (70_reset_and_hazards.md R290). -/

namespace Sys2Proof.Machine

/-- The state of one side's session (10_state.md R23, R24): OPEN, CLOSED or FAILED. -/
inductive Session where
  | opened
  | closed
  | failed
deriving DecidableEq, Repr

/-- The output cursor W (10_state.md R23). -/
structure Writer where
  /-- W.st, the session state. -/
  st : Session
  /-- W.acc, the pending bits of the partial byte, the first written in the most significant place. -/
  acc : Nat
  /-- W.n, the number of pending bits in W.acc. -/
  n : Nat
  /-- W.pos, bits written since creation or the last RESETW. -/
  pos : Nat
  /-- W.base, the value of W.pos at the last alignment point. -/
  base : Nat
  /-- W.k, the index of the next output-channel byte. -/
  k : Nat
deriving DecidableEq, Repr

/-- The input cursor R (10_state.md R24). -/
structure Reader where
  /-- R.st, the session state. -/
  st : Session
  /-- R.hold, the not yet consumed low bits of the last byte taken from the channel. -/
  hold : Nat
  /-- R.n, the number of unconsumed bits in R.hold. -/
  n : Nat
  /-- R.pos, bits consumed since creation. -/
  pos : Nat
  /-- R.base, the value of R.pos at the last alignment point. -/
  base : Nat
  /-- R.k, the index of the next input-channel byte. -/
  k : Nat
deriving DecidableEq, Repr

/-- The block status S (10_state.md R25). -/
structure BlockStatus where
  /-- S.fault, sticky: a model fault has been reported. -/
  fault : Bool
  /-- S.pf, sticky: a precondition failure has been reported. -/
  pf : Bool
  /-- S.iof, sticky: an I/O failure has been reported. -/
  iof : Bool
  /-- S.last, the status code of the most recent command. -/
  last : Byte
deriving DecidableEq, Repr

/-- What one command puts on the command port (10_state.md R21). -/
structure Command where
  /-- CMD, the command word. -/
  cmd : Word
  /-- DIN, the data operand. -/
  din : Data
  /-- PRESENT, true for a value and false for a null. -/
  present : Bool
deriving DecidableEq, Repr

/-- What a completed command leaves on the result port (10_state.md R22). -/
structure Result where
  /-- DOUT, the result. -/
  dout : Data
  /-- ISNULL, true when a nullable read found the presence bit 0. -/
  isnull : Bool
  /-- STATUS, the status code. -/
  status : Byte
deriving DecidableEq, Repr

/-- The contents of one byte channel: (index, byte) pairs with strictly rising indices (20_memory.md R40). -/
abbrev Memory := List Host.Cell

/-- The input channel (20_memory.md R42, R44). Its oracle InResp answers `IOERR` at the indices of `fail`, the byte that `bytes`
lists at any other listed index, and `EOD` elsewhere (log 4). -/
structure InChannel where
  /-- the bytes the channel supplies. -/
  bytes : Memory
  /-- the indices whose read answers IOERR. -/
  fail : List Nat
  /-- the ChanCloseIn operations issued so far (the model's own, log 6). -/
  closes : Nat
  /-- the draw of ChanCloseIn: true for IOERR. -/
  closeFail : Bool
deriving DecidableEq, Repr

/-- The output channel (20_memory.md R43, R44), with the draws of its outcomes (log 5). -/
structure OutChannel where
  /-- OUT, the record of the bytes written (10_state.md R32). -/
  bytes : Memory
  /-- the indices whose write answers IOERR. -/
  fail : List Nat
  /-- the ChanFlush operations issued so far (the model's own, log 6). -/
  flushes : Nat
  /-- the ordinals of the flushes that answer IOERR, the first flush being 0. -/
  flushFail : List Nat
  /-- the ChanClose operations issued so far (the model's own, log 6). -/
  closes : Nat
  /-- the draw of ChanClose: true for IOERR. -/
  closeFail : Bool
deriving DecidableEq, Repr

/-- The whole machine. -/
structure State where
  /-- the output cursor. -/
  W : Writer
  /-- the input cursor. -/
  R : Reader
  /-- the block status. -/
  S : BlockStatus
  /-- the command port, as the current command sampled it. -/
  port : Command
  /-- the result port; none before the first command completes (70_reset_and_hazards.md R290, log 3). -/
  result : Option Result
  /-- the input channel. -/
  inp : InChannel
  /-- the output channel. -/
  outp : OutChannel
  /-- the commands the host will issue, the next one first (the model's own, log 1). -/
  queue : List Command
deriving DecidableEq, Repr

/-- Why the block could stop for good. Every failure of the spec is a status that a command reports (60_exceptions.md R260),
after which the block is in a state the rules give, so no meaning raises any of these. -/
inductive Fault where
  /-- A channel that never answers leaves the block stuck in its command (93_implementation_defined.md U9). Nothing raises it:
  "the model does not represent blocking" (60_exceptions.md R266; log 12). Safe: the model has no run in which it happens. -/
  | channelNeverAnswers
deriving DecidableEq, Repr

/-- Why the model could have no meaning for a command. -/
inductive Refusal where
  /-- exec raises it for a command that has no meaning yet; every command has one. Safe: the run stops. -/
  | notModelled (mnemonic : String)
deriving DecidableEq, Repr

/-- The status codes by name (60_exceptions.md R260). -/
inductive Status where
  | ok
  | invalidSize
  | invalidCount
  | invalidBoundary
  | illegalState
  | illegalCommand
  | endOfInput
  | channelIo
  | undefinedInput
  | malformedVlq
  | useAfterFailure
  | faulted
deriving DecidableEq, Repr

/-- The failure classes (60_exceptions.md R260). -/
inductive StatusClass where
  | none
  | precondition
  | io
  | fault
deriving DecidableEq, Repr

/-- The answer of the input channel to a read (20_memory.md R42). -/
inductive InAnswer where
  | byte (b : Byte)
  | eod
  | ioerr
deriving DecidableEq, Repr

/-- The answer of a channel to a write, a flush or a close (20_memory.md R43, R44). -/
inductive ChanAnswer where
  | ok
  | ioerr
deriving DecidableEq, Repr

/-- W after block reset (10_state.md R29). -/
def Writer.reset : Writer := { st := .opened, acc := 0, n := 0, pos := 0, base := 0, k := 0 }

/-- R after block reset (10_state.md R29). -/
def Reader.reset : Reader := { st := .opened, hold := 0, n := 0, pos := 0, base := 0, k := 0 }

/-- S after block reset (10_state.md R29). -/
def BlockStatus.reset : BlockStatus := { fault := false, pf := false, iof := false, last := 0 }

/-- The command port before any command. DESIGN CHOICE (log 2). -/
def Command.reset : Command := { cmd := 0, din := 0, present := false }

/-- The input channel bound at reset: the empty stream, `InResp(k) = EOD` for all k. DESIGN CHOICE (log 4, log 5). -/
def InChannel.reset : InChannel := { bytes := [], fail := [], closes := 0, closeFail := false }

/-- The output channel bound at reset: nothing written (70_reset_and_hazards.md R290), and every outcome `OK`. DESIGN CHOICE for
the outcomes (log 5). -/
def OutChannel.reset : OutChannel :=
  { bytes := [], fail := [], flushes := 0, flushFail := [], closes := 0, closeFail := false }

/-- Block reset (70_reset_and_hazards.md R290). -/
def State.reset : State where
  W := Writer.reset
  R := Reader.reset
  S := BlockStatus.reset
  port := Command.reset
  result := none
  inp := InChannel.reset
  outp := OutChannel.reset
  queue := []

/-- The state with another output cursor. -/
def State.setW (s : State) (w : Writer) : State := { s with W := w }

/-- The state with another input cursor. -/
def State.setR (s : State) (r : Reader) : State := { s with R := r }

/-- The state with another block status. -/
def State.setS (s : State) (b : BlockStatus) : State := { s with S := b }

/-- The state with another command on its port. -/
def State.setPort (s : State) (c : Command) : State := { s with port := c }

/-- The state with another result on its port. -/
def State.setResult (s : State) (r : Option Result) : State := { s with result := r }

/-- The state with another input channel. -/
def State.setInp (s : State) (c : InChannel) : State := { s with inp := c }

/-- The state with another output channel. -/
def State.setOutp (s : State) (c : OutChannel) : State := { s with outp := c }

/-- The state with other commands to come. -/
def State.setQueue (s : State) (q : List Command) : State := { s with queue := q }

end Sys2Proof.Machine
end

