-- ==== Sys2Proof/Machine/Flags.lean ====
section
/-! DEFINITION. The status codes, their classes and the sticky bits: the block's flags (10_state.md R28; 60_exceptions.md R260,
R262 to R265). -/

namespace Sys2Proof.Machine

/-- The code of a status (60_exceptions.md R260). -/
def Status.code : Status → Byte
  | .ok => 0
  | .invalidSize => 1
  | .invalidCount => 2
  | .invalidBoundary => 3
  | .illegalState => 4
  | .illegalCommand => 5
  | .endOfInput => 16
  | .channelIo => 17
  | .undefinedInput => 32
  | .malformedVlq => 33
  | .useAfterFailure => 34
  | .faulted => 35

/-- The class of a status (60_exceptions.md R260). -/
def Status.cls : Status → StatusClass
  | .ok => .none
  | .invalidSize | .invalidCount | .invalidBoundary | .illegalState | .illegalCommand => .precondition
  | .endOfInput | .channelIo => .io
  | .undefinedInput | .malformedVlq | .useAfterFailure | .faulted => .fault

/-- What reporting a status does to S: S.last takes its code, and the sticky bit of its class is set (60_exceptions.md R262 to
R264). FAULTED is reported only while S.fault is 1, so it changes no sticky bit (R265). -/
def BlockStatus.record (b : BlockStatus) (c : Status) : BlockStatus where
  fault := b.fault || c.cls == .fault
  pf := b.pf || c.cls == .precondition
  iof := b.iof || c.cls == .io
  last := c.code

end Sys2Proof.Machine
end

