-- ==== Sys2Proof/Machine/Operands.lean ====
section
/-! DEFINITION. Operand and result assembly (30_encoding.md R68, R69) and the bit notation the rules use (00_scope.md R11). -/

namespace Sys2Proof.Machine

/-- `ones(k)` (00_scope.md R11). -/
def ones (k : Nat) : Nat := 2 ^ k - 1

/-- `val_s(p)`, the signed value of an s-bit pattern (00_scope.md R11). -/
def valS (s p : Nat) : Int := if p.testBit (s - 1) then (p : Int) - 2 ^ s else p

/-- `trunc_s(v)`, `v mod 2^s` on the two's-complement pattern (00_scope.md R11). -/
def truncS (s : Nat) (v : Int) : Nat := (v % 2 ^ s).toNat

/-- `DIN[n-1:0]` as an unsigned number (30_encoding.md R68: the bits above are ignored). -/
def dinBits (n : Nat) (s : State) : Nat := s.port.din.toNat % 2 ^ n

/-- `val_n(DIN[n-1:0])` (30_encoding.md R68). -/
def dinSigned (n : Nat) (s : State) : Int := valS n (dinBits n s)

/-- `zext_64(v)`, a result on DOUT (30_encoding.md R69). -/
def dout (v : Nat) : Data := BitVec.ofNat 64 v

/-- `zext_64(trunc_n(r))`, a signed result on DOUT as the pattern of its native width (30_encoding.md R69). -/
def doutSigned (n : Nat) (r : Int) : Data := dout (truncS n r)

end Sys2Proof.Machine
end

