-- ==== Sys2Proof/Machine/Ops.lean ====
section
/-! DEFINITION. The named operations over the channels, the cursors and the ports: the channel boundary (20_memory.md), the bit
procedures (41_bit_cursor.md R100 to R102), the outcome primitives (00_scope.md R16) and the report of a status, which is the
block's whole trap mechanism (60_exceptions.md R262 to R268). -/

namespace Sys2Proof.Machine

/-! ### Channel contents -/

/-- The byte at an index, none where nothing is listed. -/
def Memory.read : Memory → Nat → Option Byte
  | [], _ => none
  | (i, b) :: m, a => if a = i then some b else Memory.read m a

/-- The contents with a byte at an index, kept in rising order. -/
def Memory.write : Memory → Nat → Byte → Memory
  | [], a, b => [(a, b)]
  | (i, c) :: m, a, b =>
    if a < i then (a, b) :: (i, c) :: m
    else if a = i then (a, b) :: m
    else (i, c) :: Memory.write m a b

/-- The canonical form: indices strictly rising. An unlisted index reads as none, which no entry equals. -/
def Memory.wf : Memory → Bool
  | [] => true
  | [_] => true
  | (i, _) :: (j, c) :: m => decide (i < j) && Memory.wf ((j, c) :: m)

/-- The contents that hold these bytes from index `a` on. -/
def Memory.ofBytes : Nat → List Byte → Memory
  | _, [] => []
  | a, b :: bs => (a, b) :: Memory.ofBytes (a + 1) bs

/-! ### The channel boundary -/

/-- `ChanRead(k)`: the oracle's answer (20_memory.md R42). -/
def chanRead (c : InChannel) (k : Nat) : InAnswer :=
  if k ∈ c.fail then .ioerr
  else match Memory.read c.bytes k with
    | some b => .byte b
    | none => .eod

/-- The answer of `ChanWrite(a, b)` (20_memory.md R43). -/
def chanWrite (c : OutChannel) (a : Nat) : ChanAnswer := if a ∈ c.fail then .ioerr else .ok

/-- The output channel once it has taken byte `b` at index `a` (20_memory.md R43). -/
def OutChannel.take (c : OutChannel) (a : Nat) (b : Byte) : OutChannel := { c with bytes := Memory.write c.bytes a b }

/-- The answer of `ChanFlush()` (20_memory.md R44): the draw of this flush. -/
def chanFlush (c : OutChannel) : ChanAnswer := if c.flushes ∈ c.flushFail then .ioerr else .ok

/-- The output channel once a flush has been passed to it. -/
def OutChannel.flushed (c : OutChannel) : OutChannel := { c with flushes := c.flushes + 1 }

/-- The answer of `ChanClose()` (20_memory.md R44). -/
def chanClose (c : OutChannel) : ChanAnswer := if c.closeFail then .ioerr else .ok

/-- The output channel once a close has been passed to it. -/
def OutChannel.closedOnce (c : OutChannel) : OutChannel := { c with closes := c.closes + 1 }

/-- The answer of `ChanCloseIn()` (20_memory.md R44). -/
def chanCloseIn (c : InChannel) : ChanAnswer := if c.closeFail then .ioerr else .ok

/-- The input channel once a close has been passed to it. -/
def InChannel.closedOnce (c : InChannel) : InChannel := { c with closes := c.closes + 1 }

/-! ### Outcomes of a command -/

/-- How a part of a command ends: it goes on with a value, or the command ends there with a failure status. -/
inductive Res (α : Type) where
  | ok (a : α) (s : State)
  | stop (c : Status) (s : State)
deriving DecidableEq, Repr

/-- Go on with the next part, unless the command has ended. -/
def Res.andThen {α β : Type} (r : Res α) (f : α → State → Res β) : Res β :=
  match r with
  | .ok a s => f a s
  | .stop c s => .stop c s

/-- The answer of a completed command: `done(dout)` or `done_null()` (00_scope.md R16). -/
inductive Reply where
  | value (v : Data)
  | null
deriving DecidableEq, Repr

/-- `done(v)` (00_scope.md R16). -/
def done (v : Data) (s : State) : Res Reply := .ok (.value v) s

/-- Unless the condition holds, the command ends with status `c`: `raise P(c)` or `fault(c)` before any bit moves (00_scope.md
R16). -/
def require (p : Bool) (c : Status) (s : State) : Res Unit := if p then .ok () s else .stop c s

/-- The command ends: the result port takes DOUT, ISNULL and STATUS, S.last takes the status, and the sticky bit of the status's
class is set (10_state.md R28; 60_exceptions.md R262 to R265). Nothing is saved and no control is transferred (R267, R268). -/
def report (c : Status) (v : Data) (isnull : Bool) (s : State) : State :=
  (s.setS (s.S.record c)).setResult (some { dout := v, isnull := isnull, status := c.code })

/-- The next state of a command (00_scope.md R16): a failure leaves DOUT = 0 and ISNULL = 0 (60_exceptions.md R262 to R264). -/
def complete (r : Res Reply) : Host.Outcome State Fault Refusal :=
  match r with
  | .ok (.value v) s => .next (report .ok v false s)
  | .ok .null s => .next (report .ok 0 true s)
  | .stop c s => .next (report c 0 false s)

/-! ### Side checks -/

/-- `CheckW()` (41_bit_cursor.md R102). -/
def checkW (s : State) : Res Unit :=
  match s.W.st with
  | .opened => .ok () s
  | .closed => .stop .illegalState s
  | .failed => .stop .useAfterFailure s

/-- `CheckR()` (41_bit_cursor.md R102). -/
def checkR (s : State) : Res Unit :=
  match s.R.st with
  | .opened => .ok () s
  | .closed => .stop .illegalState s
  | .failed => .stop .useAfterFailure s

/-! ### The bit procedures -/

/-- One round of `PutBits` (41_bit_cursor.md R100): the bit enters the partial byte, and a completed byte is handed over. -/
def putBit (bit : Nat) (s : State) : Res Unit :=
  let w : Writer := { s.W with acc := 2 * s.W.acc + bit, n := s.W.n + 1, pos := s.W.pos + 1 }
  if w.n = 8 then
    match chanWrite s.outp w.k with
    | .ioerr => .stop .channelIo (s.setW { w with st := .failed })
    | .ok =>
      .ok () ((s.setOutp (s.outp.take w.k (BitVec.ofNat 8 w.acc))).setW { w with k := w.k + 1, acc := 0, n := 0 })
  else .ok () (s.setW w)

/-- `PutBits(v, t)`: the bits of v from bit t-1 down to bit 0 (41_bit_cursor.md R100). -/
def putBits (v : Nat) : Nat → State → Res Unit
  | 0, s => .ok () s
  | t + 1, s => (putBit (v / 2 ^ t % 2) s).andThen fun _ s => putBits v t s

/-- Take a byte from the input channel when none is held (41_bit_cursor.md R101). -/
def fillHold (s : State) : Res Unit :=
  if s.R.n = 0 then
    match chanRead s.inp s.R.k with
    | .eod => .stop .endOfInput (s.setR { s.R with st := .failed })
    | .ioerr => .stop .channelIo (s.setR { s.R with st := .failed })
    | .byte b => .ok () (s.setR { s.R with hold := b.toNat, n := 8, k := s.R.k + 1 })
  else .ok () s

/-- Consume the first of the held bits (41_bit_cursor.md R101). -/
def takeHeldBit (s : State) : Res Nat :=
  .ok (s.R.hold / 2 ^ (s.R.n - 1) % 2)
    (s.setR { s.R with n := s.R.n - 1, hold := s.R.hold % 2 ^ (s.R.n - 1), pos := s.R.pos + 1 })

/-- One round of `GetBits` (41_bit_cursor.md R101). -/
def getBit (s : State) : Res Nat := (fillHold s).andThen fun _ s => takeHeldBit s

/-- The rounds of `GetBits` after the first bits have given `v`. -/
def getBitsFrom (v : Nat) : Nat → State → Res Nat
  | 0, s => .ok v s
  | t + 1, s => (getBit s).andThen fun b s => getBitsFrom (2 * v + b) t s

/-- `GetBits(t)` (41_bit_cursor.md R101). -/
def getBits (t : Nat) (s : State) : Res Nat := getBitsFrom 0 t s

end Sys2Proof.Machine
end

