-- ==== Sys2Proof/Machine/Float.lean ====
section
/-! DEFINITION. The general float and double codec and the Nullable wrapper (43_float_codec.md R170 to R180). Everything works on
native bit patterns; no value is ever rounded (R178). -/

namespace Sys2Proof.Machine

/-- The two native formats (43_float_codec.md R170). -/
inductive Fmt where
  | F
  | D
deriving DecidableEq, Repr

/-- N, the width of the native pattern (00_scope.md R8). -/
def Fmt.width : Fmt → Nat
  | .F => 32
  | .D => 64

/-- E, the width of the native exponent field (00_scope.md R8). -/
def Fmt.expBits : Fmt → Nat
  | .F => 8
  | .D => 11

/-- M, the width of the native significand field (00_scope.md R8). -/
def Fmt.sigBits : Fmt → Nat
  | .F => 23
  | .D => 52

/-- B, the native exponent bias (00_scope.md R8). -/
def Fmt.bias : Fmt → Nat
  | .F => 127
  | .D => 1023

/-- EXP_MIN (43_float_codec.md R171). -/
def Fmt.expMin : Fmt → Nat
  | .F => Config.floatExpMin
  | .D => Config.doubleExpMin

/-- SIG_MIN (43_float_codec.md R171). -/
def Fmt.sigMin : Fmt → Nat
  | .F => Config.floatSigMin
  | .D => Config.doubleSigMin

/-- `sg`, the sign of a native pattern (43_float_codec.md R170). -/
def signOf (fmt : Fmt) (x : Nat) : Nat := x / 2 ^ (fmt.width - 1) % 2

/-- `ef`, the native exponent field (43_float_codec.md R170). -/
def expOf (fmt : Fmt) (x : Nat) : Nat := x / 2 ^ fmt.sigBits % 2 ^ fmt.expBits

/-- `mf`, the native significand field (43_float_codec.md R170). -/
def sigOf (fmt : Fmt) (x : Nat) : Nat := x % 2 ^ fmt.sigBits

/-- The native pattern of a sign, an exponent field and a significand field (43_float_codec.md R173). -/
def assemble (fmt : Fmt) (sg ef mf : Nat) : Nat := sg * 2 ^ (fmt.width - 1) + ef * 2 ^ fmt.sigBits + mf

/-- The high s bits of the native significand (43_float_codec.md R172). -/
def highSig (fmt : Fmt) (s x : Nat) : Nat := sigOf fmt x / 2 ^ (fmt.sigBits - s)

/-- A NaN's stored significand, forced non-zero (43_float_codec.md R172, 44_float_compressed.md R203). -/
def forceNonZero (t : Nat) : Nat := if t = 0 then 1 else t

/-- The bias of an e-bit exponent (43_float_codec.md R172). -/
def biasOf (e : Nat) : Nat := 2 ^ (e - 1) - 1

/-- `ValidFSize(fmt, e, s)` (43_float_codec.md R171). -/
def validFSize (fmt : Fmt) (e sz : Nat) (s : State) : Res Unit :=
  require (!(decide (e < fmt.expMin) || decide (e > fmt.expBits) || decide (sz < fmt.sigMin) || decide (sz > fmt.sigBits)))
    .invalidSize s

/-- The stored fields of a value: sign, exponent field and significand field (43_float_codec.md R172). -/
structure Stored where
  sg : Nat
  fe : Nat
  t : Nat
deriving DecidableEq, Repr

/-- `FEncFields(fmt, e, s, x)`; none is the model fault UNDEFINED_INPUT (43_float_codec.md R172). -/
def fEncFields (fmt : Fmt) (e sz x : Nat) : Option Stored :=
  let sg := signOf fmt x
  let ef := expOf fmt x
  let t := highSig fmt sz x
  let be := biasOf e
  if ef = ones fmt.expBits ∧ sigOf fmt x ≠ 0 then some ⟨sg, ones e, forceNonZero t⟩
  else if ef = ones fmt.expBits then some ⟨sg, ones e, t⟩
  else if ef = 0 then some ⟨sg, 0, t⟩
  else
    let u : Int := (ef : Int) - fmt.bias
    if u < 1 - (be : Int) ∨ u > be then none
    else some ⟨sg, (u + be).toNat, t⟩

/-- `FPut(e, s, fields)` (43_float_codec.md R173). -/
def fPut (e sz : Nat) (f : Stored) (s : State) : Res Unit :=
  (putBits f.sg 1 s).andThen fun _ s =>
  (putBits f.fe e s).andThen fun _ s =>
  putBits f.t sz s

/-- The native pattern that the stored fields stand for (43_float_codec.md R173). -/
def fDecFields (fmt : Fmt) (e sz : Nat) (f : Stored) : Nat :=
  let ef :=
    if f.fe = 0 then 0
    else if f.fe = ones e then ones fmt.expBits
    else f.fe + fmt.bias - biasOf e
  assemble fmt f.sg ef (f.t * 2 ^ (fmt.sigBits - sz))

/-- `FDec(fmt, e, s)` (43_float_codec.md R173). -/
def fDec (fmt : Fmt) (e sz : Nat) (s : State) : Res Nat :=
  (getBits 1 s).andThen fun sg s =>
  (getBits e s).andThen fun fe s =>
  (getBits sz s).andThen fun t s =>
  .ok (fDecFields fmt e sz ⟨sg, fe, t⟩) s

/-- A value check: a result, or the model fault UNDEFINED_INPUT before any bit moves (60_exceptions.md R261). -/
def checkValue {α : Type} (check : Option α) (s : State) : Res α :=
  match check with
  | some f => .ok f s
  | none => .stop .undefinedInput s

/-- `NullableWrite(Check, Put)` (43_float_codec.md R179). -/
def nullableWrite {α : Type} (nl : Bool) (check : Option α) (put : α → State → Res Unit) (s : State) : Res Unit :=
  if nl = false then (checkValue check s).andThen put
  else if s.port.present = false then putBits 0 1 s
  else (checkValue check s).andThen fun f s => (putBits 1 1 s).andThen fun _ s => put f s

/-- `NullableRead(Get)` (43_float_codec.md R180). -/
def nullableRead (nl : Bool) (get : State → Res Nat) (s : State) : Res Reply :=
  if nl then
    (getBits 1 s).andThen fun p s =>
      if p = 0 then .ok .null s else (get s).andThen fun x s => done (dout x) s
  else (get s).andThen fun x s => done (dout x) s

/-- A general float write (43_float_codec.md R174, R176). -/
def writeFloat (fmt : Fmt) (nl : Bool) (sz ex : Nat) (s : State) : Res Reply :=
  (checkW s).andThen fun _ s =>
  (validFSize fmt ex sz s).andThen fun _ s =>
  (nullableWrite nl (fEncFields fmt ex sz (dinBits fmt.width s)) (fPut ex sz) s).andThen fun _ s =>
  done 0 s

/-- A general float read (43_float_codec.md R175, R177). -/
def readFloat (fmt : Fmt) (nl : Bool) (sz ex : Nat) (s : State) : Res Reply :=
  (checkR s).andThen fun _ s =>
  (validFSize fmt ex sz s).andThen fun _ s =>
  nullableRead nl (fDec fmt ex sz) s

/-- WRFLOAT (43_float_codec.md R174). -/
def execWrfloat (nl : Bool) (sz ex : Nat) (s : State) : Host.Outcome State Fault Refusal :=
  complete (writeFloat .F nl sz ex s)

/-- RDFLOAT (43_float_codec.md R175). -/
def execRdfloat (nl : Bool) (sz ex : Nat) (s : State) : Host.Outcome State Fault Refusal :=
  complete (readFloat .F nl sz ex s)

/-- WRDOUBLE (43_float_codec.md R176). -/
def execWrdouble (nl : Bool) (sz ex : Nat) (s : State) : Host.Outcome State Fault Refusal :=
  complete (writeFloat .D nl sz ex s)

/-- RDDOUBLE (43_float_codec.md R177). -/
def execRddouble (nl : Bool) (sz ex : Nat) (s : State) : Host.Outcome State Fault Refusal :=
  complete (readFloat .D nl sz ex s)

end Sys2Proof.Machine
end

