-- ==== Sys2Proof/Machine/Detect.lean ====
section
/-! DEFINITION. The float category and its detectors (45_float_detectors.md R220 to R228). The detectors use no cursor and run no
side check (R229). -/

namespace Sys2Proof.Machine

/-- The five categories (45_float_detectors.md R220). -/
inductive Category where
  | zero
  | subnormal
  | normal
  | infinity
  | nan
deriving DecidableEq, Repr

/-- The class code of a category (45_float_detectors.md R220). -/
def Category.code : Category → Nat
  | .zero => 0
  | .subnormal => 1
  | .normal => 2
  | .infinity => 3
  | .nan => 4

/-- `Category(fmt, x)` (45_float_detectors.md R220). -/
def categoryOf (fmt : Fmt) (x : Nat) : Category :=
  if expOf fmt x = 0 then (if sigOf fmt x = 0 then .zero else .subnormal)
  else if expOf fmt x = ones fmt.expBits then (if sigOf fmt x = 0 then .infinity else .nan)
  else .normal

/-- A category test of the native pattern on DIN (45_float_detectors.md R221 to R226). -/
def testCategory (fmt : Fmt) (c : Category) (s : State) : Res Reply :=
  done (dout (if categoryOf fmt (dinBits fmt.width s) = c then 1 else 0)) s

/-- The category code of the native pattern on DIN (45_float_detectors.md R227, R228). -/
def classify (fmt : Fmt) (s : State) : Res Reply := done (dout (categoryOf fmt (dinBits fmt.width s)).code) s

/-- ISZEROF (45_float_detectors.md R221). -/
def execIszerof (s : State) : Host.Outcome State Fault Refusal := complete (testCategory .F .zero s)

/-- ISZEROD (45_float_detectors.md R222). -/
def execIszerod (s : State) : Host.Outcome State Fault Refusal := complete (testCategory .D .zero s)

/-- ISINFF (45_float_detectors.md R223). -/
def execIsinff (s : State) : Host.Outcome State Fault Refusal := complete (testCategory .F .infinity s)

/-- ISINFD (45_float_detectors.md R224). -/
def execIsinfd (s : State) : Host.Outcome State Fault Refusal := complete (testCategory .D .infinity s)

/-- ISNANF (45_float_detectors.md R225). -/
def execIsnanf (s : State) : Host.Outcome State Fault Refusal := complete (testCategory .F .nan s)

/-- ISNAND (45_float_detectors.md R226). -/
def execIsnand (s : State) : Host.Outcome State Fault Refusal := complete (testCategory .D .nan s)

/-- CLASSF (45_float_detectors.md R227). -/
def execClassf (s : State) : Host.Outcome State Fault Refusal := complete (classify .F s)

/-- CLASSD (45_float_detectors.md R228). -/
def execClassd (s : State) : Host.Outcome State Fault Refusal := complete (classify .D s)

end Sys2Proof.Machine
end

