-- ==== Sys2Proof/Machine/Compressed.lean ====
section
/-! DEFINITION. The category-compressed float and double codecs: Zero, Infinity, Subnormal and NaN (44_float_compressed.md R190 to
R206). -/

namespace Sys2Proof.Machine

/-- `ValidW(fmt, w)` (44_float_compressed.md R190). -/
def validWidth (fmt : Fmt) (w : Nat) (s : State) : Res Unit :=
  require (decide (1 ≤ w) && decide (w ≤ fmt.sigBits)) .invalidSize s

/-- `RequireCat(fmt, x, c)`, then the fields to store; none is the model fault UNDEFINED_INPUT (44_float_compressed.md R190). -/
def ofCategory {α : Type} (fmt : Fmt) (x : Nat) (c : Category) (f : α) : Option α :=
  if categoryOf fmt x = c then some f else none

/-- The bits a significand codec stores: the sign unless it is left out, then the w significand bits (44_float_compressed.md
R199, R203). -/
def putSignSig (so : Bool) (w : Nat) (f : Nat × Nat) (s : State) : Res Unit :=
  if so then putBits f.2 w s
  else (putBits f.1 1 s).andThen fun _ s => putBits f.2 w s

/-- The stored sign, 0 where the codec leaves it out (44_float_compressed.md R204). -/
def getSign (so : Bool) (s : State) : Res Nat := if so then .ok 0 s else getBits 1 s

/-- A write that stores only the sign: the Zero and Infinity codecs (44_float_compressed.md R191, R193, R195, R197). -/
def writeSignOnly (fmt : Fmt) (c : Category) (nl : Bool) (s : State) : Res Reply :=
  (checkW s).andThen fun _ s =>
  (nullableWrite nl (ofCategory fmt (dinBits fmt.width s) c (signOf fmt (dinBits fmt.width s))) (fun sg s => putBits sg 1 s) s).andThen
    fun _ s => done 0 s

/-- A read that rebuilds the pattern from the sign and an implied exponent field: the Zero and Infinity codecs
(44_float_compressed.md R192, R194, R196, R198). -/
def readSignOnly (fmt : Fmt) (ef : Nat) (nl : Bool) (s : State) : Res Reply :=
  (checkR s).andThen fun _ s =>
  nullableRead nl (fun s => (getBits 1 s).andThen fun sg s => .ok (assemble fmt sg ef 0) s) s

/-- A write of the sign and the high w significand bits: the Subnormal codec (44_float_compressed.md R199, R201). -/
def writeSubnormal (fmt : Fmt) (nl : Bool) (w : Nat) (s : State) : Res Reply :=
  (checkW s).andThen fun _ s =>
  (validWidth fmt w s).andThen fun _ s =>
  let x := dinBits fmt.width s
  (nullableWrite nl (ofCategory fmt x .subnormal (signOf fmt x, highSig fmt w x)) (putSignSig false w) s).andThen
    fun _ s => done 0 s

/-- A write of the sign, unless SO leaves it out, and the high w significand bits forced non-zero: the NaN codec
(44_float_compressed.md R203, R205). -/
def writeNan (fmt : Fmt) (nl so : Bool) (w : Nat) (s : State) : Res Reply :=
  (checkW s).andThen fun _ s =>
  (validWidth fmt w s).andThen fun _ s =>
  let x := dinBits fmt.width s
  (nullableWrite nl (ofCategory fmt x .nan (signOf fmt x, forceNonZero (highSig fmt w x))) (putSignSig so w) s).andThen
    fun _ s => done 0 s

/-- A read of a sign, unless SO leaves it out, and w significand bits, with an implied exponent field: the Subnormal and NaN codecs
(44_float_compressed.md R200, R202, R204, R206). -/
def readSignSig (fmt : Fmt) (ef : Nat) (nl so : Bool) (w : Nat) (s : State) : Res Reply :=
  (checkR s).andThen fun _ s =>
  (validWidth fmt w s).andThen fun _ s =>
  nullableRead nl (fun s =>
    (getSign so s).andThen fun sg s =>
    (getBits w s).andThen fun t s =>
    .ok (assemble fmt sg ef (t * 2 ^ (fmt.sigBits - w))) s) s

/-- WRZEROF (44_float_compressed.md R191). -/
def execWrzerof (nl : Bool) (s : State) : Host.Outcome State Fault Refusal := complete (writeSignOnly .F .zero nl s)

/-- RDZEROF (44_float_compressed.md R192). -/
def execRdzerof (nl : Bool) (s : State) : Host.Outcome State Fault Refusal := complete (readSignOnly .F 0 nl s)

/-- WRZEROD (44_float_compressed.md R193). -/
def execWrzerod (nl : Bool) (s : State) : Host.Outcome State Fault Refusal := complete (writeSignOnly .D .zero nl s)

/-- RDZEROD (44_float_compressed.md R194). -/
def execRdzerod (nl : Bool) (s : State) : Host.Outcome State Fault Refusal := complete (readSignOnly .D 0 nl s)

/-- WRINFF (44_float_compressed.md R195). -/
def execWrinff (nl : Bool) (s : State) : Host.Outcome State Fault Refusal := complete (writeSignOnly .F .infinity nl s)

/-- RDINFF (44_float_compressed.md R196). -/
def execRdinff (nl : Bool) (s : State) : Host.Outcome State Fault Refusal := complete (readSignOnly .F (ones Fmt.F.expBits) nl s)

/-- WRINFD (44_float_compressed.md R197). -/
def execWrinfd (nl : Bool) (s : State) : Host.Outcome State Fault Refusal := complete (writeSignOnly .D .infinity nl s)

/-- RDINFD (44_float_compressed.md R198). -/
def execRdinfd (nl : Bool) (s : State) : Host.Outcome State Fault Refusal := complete (readSignOnly .D (ones Fmt.D.expBits) nl s)

/-- WRSUBF (44_float_compressed.md R199). -/
def execWrsubf (nl : Bool) (sz : Nat) (s : State) : Host.Outcome State Fault Refusal := complete (writeSubnormal .F nl sz s)

/-- RDSUBF (44_float_compressed.md R200). -/
def execRdsubf (nl : Bool) (sz : Nat) (s : State) : Host.Outcome State Fault Refusal := complete (readSignSig .F 0 nl false sz s)

/-- WRSUBD (44_float_compressed.md R201). -/
def execWrsubd (nl : Bool) (sz : Nat) (s : State) : Host.Outcome State Fault Refusal := complete (writeSubnormal .D nl sz s)

/-- RDSUBD (44_float_compressed.md R202). -/
def execRdsubd (nl : Bool) (sz : Nat) (s : State) : Host.Outcome State Fault Refusal := complete (readSignSig .D 0 nl false sz s)

/-- WRNANF (44_float_compressed.md R203). -/
def execWrnanf (nl so : Bool) (sz : Nat) (s : State) : Host.Outcome State Fault Refusal := complete (writeNan .F nl so sz s)

/-- RDNANF (44_float_compressed.md R204): the stored bits are not forced on a read. -/
def execRdnanf (nl so : Bool) (sz : Nat) (s : State) : Host.Outcome State Fault Refusal :=
  complete (readSignSig .F (ones Fmt.F.expBits) nl so sz s)

/-- WRNAND (44_float_compressed.md R205). -/
def execWrnand (nl so : Bool) (sz : Nat) (s : State) : Host.Outcome State Fault Refusal := complete (writeNan .D nl so sz s)

/-- RDNAND (44_float_compressed.md R206): the stored bits are not forced on a read. -/
def execRdnand (nl so : Bool) (sz : Nat) (s : State) : Host.Outcome State Fault Refusal :=
  complete (readSignSig .D (ones Fmt.D.expBits) nl so sz s)

end Sys2Proof.Machine
end

