-- ==== Sys2Proof/Machine/Cursor.lean ====
section
/-! DEFINITION. The bit cursor commands (41_bit_cursor.md R103 to R112). -/

namespace Sys2Proof.Machine

/-- `raise P(INVALID_SIZE)` for a raw bit count outside [1, 64] (00_scope.md R7). -/
def validRawSize (sz : Nat) (s : State) : Res Unit := require (decide (1 ≤ sz) && decide (sz ≤ 64)) .invalidSize s

/-- The number of bits from `pos` to the next multiple of `n` bytes after `base` (41_bit_cursor.md R107, R108). -/
def padTo (n pos base : Nat) : Nat := (8 * n - (pos - base) % (8 * n)) % (8 * n)

/-- RDBITS (41_bit_cursor.md R103). -/
def execRdbits (sz : Nat) (s : State) : Host.Outcome State Fault Refusal :=
  complete <| (checkR s).andThen fun _ s =>
    (validRawSize sz s).andThen fun _ s =>
    (getBits sz s).andThen fun v s =>
    done (dout v) s

/-- WRBITS (41_bit_cursor.md R104): the raw write has no codomain check. -/
def execWrbits (sz : Nat) (s : State) : Host.Outcome State Fault Refusal :=
  complete <| (checkW s).andThen fun _ s =>
    (validRawSize sz s).andThen fun _ s =>
    (putBits (dinBits 64 s) sz s).andThen fun _ s =>
    done 0 s

/-- SKIPR (41_bit_cursor.md R105). -/
def execSkipr (s : State) : Host.Outcome State Fault Refusal :=
  complete <| (checkR s).andThen fun _ s =>
    (require (decide (0 < dinSigned 32 s)) .invalidCount s).andThen fun _ s =>
    (getBits (dinSigned 32 s).toNat s).andThen fun _ s =>
    done 0 s

/-- SKIPW (41_bit_cursor.md R106). -/
def execSkipw (s : State) : Host.Outcome State Fault Refusal :=
  complete <| (checkW s).andThen fun _ s =>
    (require (decide (0 < dinSigned 32 s)) .invalidCount s).andThen fun _ s =>
    (putBits 0 (dinSigned 32 s).toNat s).andThen fun _ s =>
    done 0 s

/-- ALIGNR (41_bit_cursor.md R107). -/
def execAlignr (s : State) : Host.Outcome State Fault Refusal :=
  complete <| (checkR s).andThen fun _ s =>
    (require (decide (0 < dinSigned 32 s)) .invalidBoundary s).andThen fun _ s =>
    let pad := padTo (dinSigned 32 s).toNat s.R.pos s.R.base
    (getBits pad s).andThen fun _ s =>
    done (dout pad) (s.setR { s.R with base := s.R.pos })

/-- ALIGNW (41_bit_cursor.md R108). -/
def execAlignw (s : State) : Host.Outcome State Fault Refusal :=
  complete <| (checkW s).andThen fun _ s =>
    (require (decide (0 < dinSigned 32 s)) .invalidBoundary s).andThen fun _ s =>
    let pad := padTo (dinSigned 32 s).toNat s.W.pos s.W.base
    (putBits 0 pad s).andThen fun _ s =>
    done (dout pad) (s.setW { s.W with base := s.W.pos })

/-- RESETW (41_bit_cursor.md R109): W.k and OUT are kept. -/
def execResetw (s : State) : Host.Outcome State Fault Refusal :=
  complete <| (checkW s).andThen fun _ s =>
    (require (decide (s.W.n = 0)) .illegalState s).andThen fun _ s =>
    done 0 (s.setW { s.W with pos := 0, base := 0 })

/-- FLUSHW (41_bit_cursor.md R110): pending bits stay pending. -/
def execFlushw (s : State) : Host.Outcome State Fault Refusal :=
  complete <| (checkW s).andThen fun _ s =>
    match chanFlush s.outp with
    | .ioerr => .stop .channelIo ((s.setOutp s.outp.flushed).setW { s.W with st := .failed })
    | .ok => done 0 (s.setOutp s.outp.flushed)

/-- CLOSEW (41_bit_cursor.md R111): accepted on a FAILED side; a second close issues nothing. -/
def execClosew (s : State) : Host.Outcome State Fault Refusal :=
  complete <| match s.W.st with
    | .closed => done 0 s
    | .opened | .failed =>
      let t := (s.setOutp s.outp.closedOnce).setW { s.W with st := .closed }
      match chanClose s.outp with
      | .ioerr => .stop .channelIo t
      | .ok => done 0 t

/-- CLOSER (41_bit_cursor.md R112): accepted on a FAILED side; a second close issues nothing. -/
def execCloser (s : State) : Host.Outcome State Fault Refusal :=
  complete <| match s.R.st with
    | .closed => done 0 s
    | .opened | .failed =>
      let t := (s.setInp s.inp.closedOnce).setR { s.R with st := .closed }
      match chanCloseIn s.inp with
      | .ioerr => .stop .channelIo t
      | .ok => done 0 t

end Sys2Proof.Machine
end

