-- ==== Sys2Proof/Machine/Integer.lean ====
section
/-! DEFINITION. The integer codec commands (42_integer_codec.md R133 to R154), over the shared rules R130 to R132 and R155. -/

namespace Sys2Proof.Machine

/-- The largest size of an integer type of native width N: N signed, N - 1 unsigned (42_integer_codec.md R130). -/
def maxIntSize (native : Nat) (u : Bool) : Nat := if u then native - 1 else native

/-- `ValidSize` for the types with a signed form (42_integer_codec.md R130). -/
def validIntSize (native : Nat) (u : Bool) (sz : Nat) (s : State) : Res Unit :=
  require (decide (1 ≤ sz) && decide (sz ≤ maxIntSize native u)) .invalidSize s

/-- `ValidSize(char, -, s)` (42_integer_codec.md R130). -/
def validCharSize (sz : Nat) (s : State) : Res Unit := require (decide (1 ≤ sz) && decide (sz ≤ 16)) .invalidSize s

/-- The codomain of a signedness and a size (42_integer_codec.md R131). -/
def inCodomain (u : Bool) (sz : Nat) (v : Int) : Bool :=
  if u then decide (0 ≤ v) && decide (v ≤ 2 ^ sz - 1)
  else decide (-(2 ^ (sz - 1)) ≤ v) && decide (v ≤ 2 ^ (sz - 1) - 1)

/-- `InCodomain(U, s, v)`: a value outside is the model fault UNDEFINED_INPUT (42_integer_codec.md R131). -/
def checkCodomain (u : Bool) (sz : Nat) (v : Int) (s : State) : Res Unit := require (inCodomain u sz v) .undefinedInput s

/-- `IntPut(U, s, v)` (42_integer_codec.md R132). -/
def intPut (sz : Nat) (v : Int) (s : State) : Res Unit := putBits (truncS sz v) sz s

/-- The value of an s-bit pattern: zero extension when unsigned, sign extension when signed (42_integer_codec.md R132). -/
def intOfPattern (u : Bool) (sz p : Nat) : Int := if u then (p : Int) else valS sz p

/-- `IntGet(U, s)` (42_integer_codec.md R132). -/
def intGet (u : Bool) (sz : Nat) (s : State) : Res Int :=
  (getBits sz s).andThen fun p s => .ok (intOfPattern u sz p) s

/-- A sized integer write of a type of native width N: the operand is `val_N(DIN[N-1:0])` (42_integer_codec.md R133, R135, R139,
R141, R155). -/
def writeInt (native : Nat) (u : Bool) (sz : Nat) (s : State) : Res Reply :=
  (checkW s).andThen fun _ s =>
  (validIntSize native u sz s).andThen fun _ s =>
  (checkCodomain u sz (dinSigned native s) s).andThen fun _ s =>
  (intPut sz (dinSigned native s) s).andThen fun _ s =>
  done 0 s

/-- A sized integer read of a type of native width N: DOUT is `zext_64(trunc_N(r))` (42_integer_codec.md R134, R136, R140, R142,
R155). -/
def readInt (native : Nat) (u : Bool) (sz : Nat) (s : State) : Res Reply :=
  (checkR s).andThen fun _ s =>
  (validIntSize native u sz s).andThen fun _ s =>
  (intGet u sz s).andThen fun r s =>
  done (doutSigned native r) s

/-- A write of the low N bits of DIN as they stand: WRBOOL and the full-width shortcuts (42_integer_codec.md R137, R145 to
R153). -/
def writePattern (native : Nat) (s : State) : Res Reply :=
  (checkW s).andThen fun _ s =>
  (putBits (dinBits native s) native s).andThen fun _ s =>
  done 0 s

/-- A read of an N-bit pattern as it stands: RDBOOL and the full-width shortcuts (42_integer_codec.md R138, R146 to R154). -/
def readPattern (native : Nat) (s : State) : Res Reply :=
  (checkR s).andThen fun _ s =>
  (getBits native s).andThen fun p s =>
  done (dout p) s

/-- WRINT (42_integer_codec.md R133). -/
def execWrint (u : Bool) (sz : Nat) (s : State) : Host.Outcome State Fault Refusal := complete (writeInt 32 u sz s)

/-- RDINT (42_integer_codec.md R134). -/
def execRdint (u : Bool) (sz : Nat) (s : State) : Host.Outcome State Fault Refusal := complete (readInt 32 u sz s)

/-- WRLONG (42_integer_codec.md R135). -/
def execWrlong (u : Bool) (sz : Nat) (s : State) : Host.Outcome State Fault Refusal := complete (writeInt 64 u sz s)

/-- RDLONG (42_integer_codec.md R136). -/
def execRdlong (u : Bool) (sz : Nat) (s : State) : Host.Outcome State Fault Refusal := complete (readInt 64 u sz s)

/-- WRBOOL (42_integer_codec.md R137): `true` is 1. -/
def execWrbool (s : State) : Host.Outcome State Fault Refusal := complete (writePattern 1 s)

/-- RDBOOL (42_integer_codec.md R138). -/
def execRdbool (s : State) : Host.Outcome State Fault Refusal := complete (readPattern 1 s)

/-- WRBYTE (42_integer_codec.md R139). -/
def execWrbyte (u : Bool) (sz : Nat) (s : State) : Host.Outcome State Fault Refusal := complete (writeInt 8 u sz s)

/-- RDBYTE (42_integer_codec.md R140). -/
def execRdbyte (u : Bool) (sz : Nat) (s : State) : Host.Outcome State Fault Refusal := complete (readInt 8 u sz s)

/-- WRSHORT (42_integer_codec.md R141). -/
def execWrshort (u : Bool) (sz : Nat) (s : State) : Host.Outcome State Fault Refusal := complete (writeInt 16 u sz s)

/-- RDSHORT (42_integer_codec.md R142). -/
def execRdshort (u : Bool) (sz : Nat) (s : State) : Host.Outcome State Fault Refusal := complete (readInt 16 u sz s)

/-- WRCHAR (42_integer_codec.md R143): the operand is unsigned. -/
def execWrchar (sz : Nat) (s : State) : Host.Outcome State Fault Refusal :=
  complete <| (checkW s).andThen fun _ s =>
    (validCharSize sz s).andThen fun _ s =>
    (checkCodomain true sz (dinBits 16 s) s).andThen fun _ s =>
    (putBits (dinBits 16 s) sz s).andThen fun _ s =>
    done 0 s

/-- RDCHAR (42_integer_codec.md R144): never sign-extends. -/
def execRdchar (sz : Nat) (s : State) : Host.Outcome State Fault Refusal :=
  complete <| (checkR s).andThen fun _ s =>
    (validCharSize sz s).andThen fun _ s =>
    (getBits sz s).andThen fun p s =>
    done (dout p) s

/-- WRBYTE8 (42_integer_codec.md R145). -/
def execWrbyte8 (s : State) : Host.Outcome State Fault Refusal := complete (writePattern 8 s)

/-- RDBYTE8 (42_integer_codec.md R146). -/
def execRdbyte8 (s : State) : Host.Outcome State Fault Refusal := complete (readPattern 8 s)

/-- WRSHORT16 (42_integer_codec.md R147). -/
def execWrshort16 (s : State) : Host.Outcome State Fault Refusal := complete (writePattern 16 s)

/-- RDSHORT16 (42_integer_codec.md R148). -/
def execRdshort16 (s : State) : Host.Outcome State Fault Refusal := complete (readPattern 16 s)

/-- WRINT32 (42_integer_codec.md R149). -/
def execWrint32 (s : State) : Host.Outcome State Fault Refusal := complete (writePattern 32 s)

/-- RDINT32 (42_integer_codec.md R150). -/
def execRdint32 (s : State) : Host.Outcome State Fault Refusal := complete (readPattern 32 s)

/-- WRLONG64 (42_integer_codec.md R151). -/
def execWrlong64 (s : State) : Host.Outcome State Fault Refusal := complete (writePattern 64 s)

/-- RDLONG64 (42_integer_codec.md R152). -/
def execRdlong64 (s : State) : Host.Outcome State Fault Refusal := complete (readPattern 64 s)

/-- WRCHAR16 (42_integer_codec.md R153). -/
def execWrchar16 (s : State) : Host.Outcome State Fault Refusal := complete (writePattern 16 s)

/-- RDCHAR16 (42_integer_codec.md R154). -/
def execRdchar16 (s : State) : Host.Outcome State Fault Refusal := complete (readPattern 16 s)

end Sys2Proof.Machine
end

