-- ==== Sys2Proof/Machine/Vlq.lean ====
section
/-! DEFINITION. The variable-length quantity commands (46_vlq.md R240 to R246). -/

namespace Sys2Proof.Machine

/-- One unit: the continuation bit, then the 7-bit group (46_vlq.md R240). -/
def putUnit (c g : Nat) (s : State) : Res Unit := (putBits c 1 s).andThen fun _ s => putBits g 7 s

/-- `VlqPut(v)` in at most `fuel` units (46_vlq.md R241). DEDUCED (log 11): the callers give enough fuel for every value. -/
def vlqPutWithin : Nat → Nat → State → Res Unit
  | 0, _, s => .ok () s
  | fuel + 1, v, s =>
    (putUnit (if v / 128 ≠ 0 then 1 else 0) (v % 128) s).andThen fun _ s =>
      if v / 128 ≠ 0 then vlqPutWithin fuel (v / 128) s else .ok () s

/-- `VlqPut(v)` (46_vlq.md R241): k = 1 for v = 0, else the number of 7-bit groups of v. -/
def vlqPut (v : Nat) (s : State) : Res Unit := vlqPutWithin (Nat.log2 v / 7 + 1) v s

/-- `VlqGet(L, G)` from unit i on, `left` units being allowed still and the units so far having given v (46_vlq.md R242). -/
def vlqGetFrom (L : Nat) : Nat → Nat → Nat → State → Res Nat
  | 0, _, _, s => .stop .malformedVlq s
  | left + 1, i, v, s =>
    (getBits 1 s).andThen fun c s =>
    (getBits 7 s).andThen fun g s =>
    (require (decide (g * 2 ^ (7 * i) < 2 ^ L)) .malformedVlq s).andThen fun _ s =>
      if c = 0 then .ok (v + g * 2 ^ (7 * i)) s else vlqGetFrom L left (i + 1) (v + g * 2 ^ (7 * i)) s

/-- `VlqGet(L, G)` (46_vlq.md R242). -/
def vlqGet (L G : Nat) (s : State) : Res Nat := vlqGetFrom L G 0 0 s

/-- A VLQ write of the signed operand of width n (46_vlq.md R243, R245). -/
def writeVlq (n : Nat) (s : State) : Res Reply :=
  (checkW s).andThen fun _ s =>
  (require (decide (0 ≤ dinSigned n s)) .undefinedInput s).andThen fun _ s =>
  (vlqPut (dinSigned n s).toNat s).andThen fun _ s =>
  done 0 s

/-- A VLQ read with L value bits and at most G units (46_vlq.md R244, R246). -/
def readVlq (L G : Nat) (s : State) : Res Reply :=
  (checkR s).andThen fun _ s =>
  (vlqGet L G s).andThen fun v s =>
  done (dout v) s

/-- WRVLQI (46_vlq.md R243). -/
def execWrvlqi (s : State) : Host.Outcome State Fault Refusal := complete (writeVlq 32 s)

/-- RDVLQI (46_vlq.md R244). -/
def execRdvlqi (s : State) : Host.Outcome State Fault Refusal := complete (readVlq 31 5 s)

/-- WRVLQL (46_vlq.md R245). -/
def execWrvlql (s : State) : Host.Outcome State Fault Refusal := complete (writeVlq 64 s)

/-- RDVLQL (46_vlq.md R246). -/
def execRdvlql (s : State) : Host.Outcome State Fault Refusal := complete (readVlq 63 9 s)

end Sys2Proof.Machine
end

