-- ==== Sys2Proof/Machine/Dispatch.lean ====
section
/-! DEFINITION. One arm for each command of 30_encoding.md R70: its meaning, once the block-level checks of 60_exceptions.md
R261 (a faulted block, an illegal word) have passed. -/

namespace Sys2Proof.Machine

/-- The meaning of a command. -/
def exec (i : Instr) (s : State) : Host.Outcome State Fault Refusal :=
  match i with
  | .rdbits sz => Sys2Proof.Machine.execRdbits sz s
  | .wrbits sz => Sys2Proof.Machine.execWrbits sz s
  | .skipr => Sys2Proof.Machine.execSkipr s
  | .skipw => Sys2Proof.Machine.execSkipw s
  | .alignr => Sys2Proof.Machine.execAlignr s
  | .alignw => Sys2Proof.Machine.execAlignw s
  | .resetw => Sys2Proof.Machine.execResetw s
  | .flushw => Sys2Proof.Machine.execFlushw s
  | .closer => Sys2Proof.Machine.execCloser s
  | .closew => Sys2Proof.Machine.execClosew s
  | .wrint u sz => Sys2Proof.Machine.execWrint u sz s
  | .rdint u sz => Sys2Proof.Machine.execRdint u sz s
  | .wrlong u sz => Sys2Proof.Machine.execWrlong u sz s
  | .rdlong u sz => Sys2Proof.Machine.execRdlong u sz s
  | .wrbool => Sys2Proof.Machine.execWrbool s
  | .rdbool => Sys2Proof.Machine.execRdbool s
  | .wrbyte u sz => Sys2Proof.Machine.execWrbyte u sz s
  | .rdbyte u sz => Sys2Proof.Machine.execRdbyte u sz s
  | .wrshort u sz => Sys2Proof.Machine.execWrshort u sz s
  | .rdshort u sz => Sys2Proof.Machine.execRdshort u sz s
  | .wrchar sz => Sys2Proof.Machine.execWrchar sz s
  | .rdchar sz => Sys2Proof.Machine.execRdchar sz s
  | .wrbyte8 => Sys2Proof.Machine.execWrbyte8 s
  | .rdbyte8 => Sys2Proof.Machine.execRdbyte8 s
  | .wrshort16 => Sys2Proof.Machine.execWrshort16 s
  | .rdshort16 => Sys2Proof.Machine.execRdshort16 s
  | .wrint32 => Sys2Proof.Machine.execWrint32 s
  | .rdint32 => Sys2Proof.Machine.execRdint32 s
  | .wrlong64 => Sys2Proof.Machine.execWrlong64 s
  | .rdlong64 => Sys2Proof.Machine.execRdlong64 s
  | .wrchar16 => Sys2Proof.Machine.execWrchar16 s
  | .rdchar16 => Sys2Proof.Machine.execRdchar16 s
  | .wrfloat nl sz ex => Sys2Proof.Machine.execWrfloat nl sz ex s
  | .rdfloat nl sz ex => Sys2Proof.Machine.execRdfloat nl sz ex s
  | .wrdouble nl sz ex => Sys2Proof.Machine.execWrdouble nl sz ex s
  | .rddouble nl sz ex => Sys2Proof.Machine.execRddouble nl sz ex s
  | .wrzerof nl => Sys2Proof.Machine.execWrzerof nl s
  | .rdzerof nl => Sys2Proof.Machine.execRdzerof nl s
  | .wrzerod nl => Sys2Proof.Machine.execWrzerod nl s
  | .rdzerod nl => Sys2Proof.Machine.execRdzerod nl s
  | .wrinff nl => Sys2Proof.Machine.execWrinff nl s
  | .rdinff nl => Sys2Proof.Machine.execRdinff nl s
  | .wrinfd nl => Sys2Proof.Machine.execWrinfd nl s
  | .rdinfd nl => Sys2Proof.Machine.execRdinfd nl s
  | .wrsubf nl sz => Sys2Proof.Machine.execWrsubf nl sz s
  | .rdsubf nl sz => Sys2Proof.Machine.execRdsubf nl sz s
  | .wrsubd nl sz => Sys2Proof.Machine.execWrsubd nl sz s
  | .rdsubd nl sz => Sys2Proof.Machine.execRdsubd nl sz s
  | .wrnanf nl so sz => Sys2Proof.Machine.execWrnanf nl so sz s
  | .rdnanf nl so sz => Sys2Proof.Machine.execRdnanf nl so sz s
  | .wrnand nl so sz => Sys2Proof.Machine.execWrnand nl so sz s
  | .rdnand nl so sz => Sys2Proof.Machine.execRdnand nl so sz s
  | .iszerof => Sys2Proof.Machine.execIszerof s
  | .iszerod => Sys2Proof.Machine.execIszerod s
  | .isinff => Sys2Proof.Machine.execIsinff s
  | .isinfd => Sys2Proof.Machine.execIsinfd s
  | .isnanf => Sys2Proof.Machine.execIsnanf s
  | .isnand => Sys2Proof.Machine.execIsnand s
  | .classf => Sys2Proof.Machine.execClassf s
  | .classd => Sys2Proof.Machine.execClassd s
  | .wrvlqi => Sys2Proof.Machine.execWrvlqi s
  | .rdvlqi => Sys2Proof.Machine.execRdvlqi s
  | .wrvlql => Sys2Proof.Machine.execWrvlql s
  | .rdvlql => Sys2Proof.Machine.execRdvlql s

end Sys2Proof.Machine
end

