-- ==== Sys2Proof/Machine/Block.lean ====
section
/-! DEFINITION. The block-level checks and the acceptance of a command (60_exceptions.md R261, R265; 30_encoding.md R71). -/

namespace Sys2Proof.Machine

/-- Run the command on the port: a faulted block answers FAULTED and does nothing else (60_exceptions.md R265); an illegal word is
the precondition failure ILLEGAL_COMMAND (30_encoding.md R71); any other word runs its command (60_exceptions.md R261). -/
def runPort (s : State) : Host.Outcome State Fault Refusal :=
  if s.S.fault then .next (report .faulted 0 false s)
  else match decode s.port.cmd with
    | .error _ => .next (report .illegalCommand 0 false s)
    | .ok i => exec i s

/-- Sample the command port with the next command the host issues (10_state.md R21). -/
def accept (c : Command) (rest : List Command) (s : State) : State := (s.setPort c).setQueue rest

/-- The command a fetch probe puts first: a word with the operands of the command it replaces, or with DIN = 0 and PRESENT = 1
where the host has none to issue. DESIGN CHOICE (log 1). -/
def withFirstWord (w : Word) : List Command → List Command
  | [] => [{ cmd := w, din := 0, present := true }]
  | c :: rest => { c with cmd := w } :: rest

end Sys2Proof.Machine
end

