-- ==== Sys2Proof/Machine/Step.lean ====
section
/-! DEFINITION. One step: the block takes the next command the host issues and completes it (00_scope.md R3; 20_memory.md R53).
Between commands it holds its state (60_exceptions.md R275; log 1). -/

namespace Sys2Proof.Machine

/-- One command, or nothing where the host issues none. -/
def step (s : State) : Host.Outcome State Fault Refusal :=
  match s.queue with
  | [] => .next s
  | c :: rest => runPort (accept c rest s)

/-- The state whose next command is the word `w`: it stands where `step` takes its next command from, the head of the host's
queue (log 1). -/
def State.withFetchWord (s : State) (nbits w : Nat) : State :=
  s.setQueue (withFirstWord (BitVec.ofNat 32 (w % 2 ^ nbits)) s.queue)

end Sys2Proof.Machine
end

