-- ==== Sys2Proof/Safety.lean ====
section
/-! DEFINITION. The terms the statements use: the two bit streams (00_scope.md R12), what it is to append bits to one or to
consume bits of the other, how a command ends, which commands belong to which side, and the invariant of 10_state.md R26. They are
written from the rules' prose, beside the step and not through it. -/

namespace Sys2Proof.Machine

/-! ### The bit streams -/

/-- Bit j of a byte counted from its most significant bit (00_scope.md R12). -/
def byteBit (b : Byte) (j : Nat) : Bool := b.toNat.testBit (7 - j)

/-- The place of the next output bit: every byte handed over, then the pending bits (10_state.md R23). -/
def outLen (s : State) : Nat := 8 * s.W.k + s.W.n

/-- Bit j of the output stream (00_scope.md R12): of the bytes handed over, and then of the pending bits, the first written in the
most significant place. -/
def outBit (s : State) (j : Nat) : Bool :=
  if j < 8 * s.W.k then byteBit ((Memory.read s.outp.bytes (j / 8)).getD 0) (j % 8)
  else s.W.acc.testBit (s.W.n - 1 - (j - 8 * s.W.k))

/-- The number whose t bits, most significant first, are the output bits from bit `j` on. -/
def outNumber (s : State) (j : Nat) : Nat → Nat
  | 0 => 0
  | t + 1 => 2 * outNumber s j t + (outBit s (j + t)).toNat

/-- Bit j of what the input channel supplies, counted from the session's start (00_scope.md R12); false where no byte is. -/
def channelBit (c : InChannel) (j : Nat) : Bool :=
  match chanRead c (j / 8) with
  | .byte b => byteBit b (j % 8)
  | .eod | .ioerr => false

/-- The unread bit i of the input stream: of the held bits, and then of the bytes still to be taken. -/
def inBit (s : State) (i : Nat) : Bool :=
  if i < s.R.n then s.R.hold.testBit (s.R.n - 1 - i) else channelBit s.inp (8 * s.R.k + (i - s.R.n))

/-- The number whose t bits, most significant first, are the unread bits from bit `i` on. -/
def inNumber (s : State) (i : Nat) : Nat → Nat
  | 0 => 0
  | t + 1 => 2 * inNumber s i t + (inBit s (i + t)).toNat

/-- How many bytes are handed over with the next t bits (20_memory.md R48). -/
def bytesOut (s : State) (t : Nat) : Nat := (s.W.n + t) / 8

/-- How many bytes are taken for the next t bits (20_memory.md R48). -/
def bytesIn (s : State) (t : Nat) : Nat := (t - s.R.n + 7) / 8

/-! ### Conditions on a state -/

/-- The output side is open, with a partial byte. -/
abbrev WriterReady (s : State) : Prop := s.W.st = .opened ∧ s.W.n < 8

/-- The input side is open. -/
abbrev ReaderReady (s : State) : Prop := s.R.st = .opened

/-- The channel accepts every byte that the next t bits complete. -/
abbrev Accepts (s : State) (t : Nat) : Prop :=
  ∀ a, a < s.W.k + bytesOut s t → s.W.k ≤ a → chanWrite s.outp a = .ok

/-- Among the bytes that the next t bits complete, the one at index a is the first that the channel answers IOERR to. -/
abbrev FirstRefused (s : State) (t a : Nat) : Prop :=
  s.W.k ≤ a ∧ a < s.W.k + bytesOut s t ∧ chanWrite s.outp a = .ioerr ∧ ∀ b, b < a → s.W.k ≤ b → chanWrite s.outp b = .ok

/-- The channel has a byte to give at an index. -/
def hasByte (c : InChannel) (a : Nat) : Bool :=
  match chanRead c a with
  | .byte _ => true
  | .eod | .ioerr => false

/-- The channel supplies every byte that the next t bits need. -/
abbrev Supplies (s : State) (t : Nat) : Prop := ∀ a, a < s.R.k + bytesIn s t → s.R.k ≤ a → hasByte s.inp a = true

/-- Among the bytes that the next t bits need, the one at index a is the first that the channel does not give. -/
abbrev FirstMissing (s : State) (t a : Nat) : Prop :=
  s.R.k ≤ a ∧ a < s.R.k + bytesIn s t ∧ hasByte s.inp a = false ∧ ∀ b, b < a → s.R.k ≤ b → hasByte s.inp b = true

/-! ### How a command ends -/

/-- The state that differs from `s` in the report of a precondition failure alone (60_exceptions.md R262). -/
def preconditionFailed (c : Status) (s : State) : State :=
  { s with
    S := { s.S with pf := true, last := c.code }
    result := some { dout := 0, isnull := false, status := c.code } }

/-- The state that differs from `s` in the report of a model fault alone (60_exceptions.md R264). -/
def modelFault (c : Status) (s : State) : State :=
  { s with
    S := { s.S with fault := true, last := c.code }
    result := some { dout := 0, isnull := false, status := c.code } }

/-- The state that differs from `s` in the report of an I/O failure alone (60_exceptions.md R263). -/
def ioFailed (c : Status) (s : State) : State :=
  { s with
    S := { s.S with iof := true, last := c.code }
    result := some { dout := 0, isnull := false, status := c.code } }

/-- The state that differs from `s` in the report of a completed command alone (00_scope.md R16). -/
def completedWith (v : Data) (isnull : Bool) (s : State) : State :=
  { s with
    S := { s.S with last := 0 }
    result := some { dout := v, isnull := isnull, status := 0 } }

/-- The command that led from s to t ended with status OK and this answer (00_scope.md R16). -/
def EndedOk (v : Data) (isnull : Bool) (s t : State) : Prop :=
  t.result = some { dout := v, isnull := isnull, status := 0 } ∧ t.S = { s.S with last := 0 }

/-- The command that led from s to t ended as an I/O failure (60_exceptions.md R263). -/
def EndedIo (c : Status) (s t : State) : Prop :=
  t.result = some { dout := 0, isnull := false, status := c.code } ∧ t.S = { s.S with iof := true, last := c.code }

/-- The command that led from s to t ended as a model fault (60_exceptions.md R264). -/
def EndedFault (c : Status) (s t : State) : Prop :=
  t.result = some { dout := 0, isnull := false, status := c.code } ∧ t.S = { s.S with fault := true, last := c.code }

/-- The status on the result port. -/
def statusIs (c : Status) (t : State) : Prop := ∃ r, t.result = some r ∧ r.status = c.code

/-! ### What a write does -/

/-- Nothing but the output cursor, the bytes of the output channel and the report differs. -/
def OnlyWriterMoved (s t : State) : Prop :=
  t.R = s.R ∧ t.inp = s.inp ∧ t.port = s.port ∧ t.queue = s.queue ∧ t.outp = { s.outp with bytes := t.outp.bytes }

/-- Every byte of the output channel outside the indices [lo, hi) reads as before. -/
def OutUnchangedOutside (lo hi : Nat) (s t : State) : Prop :=
  ∀ a, a < lo ∨ hi ≤ a → Memory.read t.outp.bytes a = Memory.read s.outp.bytes a

/-- The low t bits of v, most significant first, have been appended to the output stream (00_scope.md R12; 41_bit_cursor.md
R100), and nothing else has changed but the report. -/
def Appended (v t : Nat) (s s' : State) : Prop :=
  s'.W.st = s.W.st ∧ s'.W.base = s.W.base ∧ s'.W.pos = s.W.pos + t ∧ s'.W.n = (s.W.n + t) % 8 ∧
    s'.W.k = s.W.k + bytesOut s t ∧
    (∀ i, i < t → outBit s' (outLen s + i) = v.testBit (t - 1 - i)) ∧
    (∀ j, j < outLen s → outBit s' j = outBit s j) ∧
    OutUnchangedOutside s.W.k (s.W.k + bytesOut s t) s s' ∧ OnlyWriterMoved s s'

/-- The channel refused the byte at index a while the low t bits of v were being written: the side is FAILED, the bytes before a
are in OUT and hold the stream so far, and nothing else of the machine has changed but the report (41_bit_cursor.md R100;
60_exceptions.md R263). -/
def BrokeWriting (v t a : Nat) (s s' : State) : Prop :=
  s'.W.st = .failed ∧ s'.W.k = a ∧ s'.W.n = 8 ∧ s'.W.base = s.W.base ∧ s'.W.pos + outLen s = s.W.pos + 8 * (a + 1) ∧
    (∀ i, outLen s + i < 8 * a → outBit s' (outLen s + i) = v.testBit (t - 1 - i)) ∧
    (∀ j, j < outLen s → j < 8 * a → outBit s' j = outBit s j) ∧
    OutUnchangedOutside s.W.k a s s' ∧ OnlyWriterMoved s s'

/-- The command i writes the low t bits of v: with status OK where the channel accepts them, and as the I/O failure CHANNEL_IO at
the first byte it refuses. -/
def Writes (i : Instr) (v t : Nat) (s : State) : Prop :=
  (Accepts s t → ∃ s', exec i s = .next s' ∧ Appended v t s s' ∧ EndedOk 0 false s s') ∧
    (∀ a, FirstRefused s t a → ∃ s', exec i s = .next s' ∧ BrokeWriting v t a s s' ∧ EndedIo .channelIo s s')

/-- What `CheckW()` does before the command i on a side that is not open (41_bit_cursor.md R102). -/
def GuardedW (i : Instr) (s : State) : Prop :=
  (s.W.st = .closed → exec i s = .next (preconditionFailed .illegalState s)) ∧
    (s.W.st = .failed → exec i s = .next (modelFault .useAfterFailure s))

/-- A nullable write of the command i: `stored` is what its value check gives, the number whose low t bits are the payload, or
none for UNDEFINED_INPUT (43_float_codec.md R179). -/
def NullableWrites (i : Instr) (nl : Bool) (stored : Option Nat) (t : Nat) (s : State) : Prop :=
  (nl = false → ∀ v, stored = some v → Writes i v t s) ∧
    (nl = true → s.port.present = true → ∀ v, stored = some v → Writes i (2 ^ t + v % 2 ^ t) (t + 1) s) ∧
    (nl = true → s.port.present = false → Writes i 0 1 s) ∧
    ((nl = false ∨ s.port.present = true) → stored = none → exec i s = .next (modelFault .undefinedInput s))

/-! ### What a read does -/

/-- Nothing but the input cursor and the report differs. -/
def OnlyReaderMoved (s t : State) : Prop :=
  t.W = s.W ∧ t.outp = s.outp ∧ t.inp = s.inp ∧ t.port = s.port ∧ t.queue = s.queue

/-- The next t bits of the input stream have been consumed (41_bit_cursor.md R101), and nothing else has changed but the report. -/
def Consumed (t : Nat) (s s' : State) : Prop :=
  s'.R.st = s.R.st ∧ s'.R.base = s.R.base ∧ s'.R.pos = s.R.pos + t ∧ s'.R.k = s.R.k + bytesIn s t ∧
    s'.R.n + t = s.R.n + 8 * bytesIn s t ∧ (∀ j, inBit s' j = inBit s (t + j)) ∧ OnlyReaderMoved s s'

/-- The channel gave no byte at index a while bits were still needed: the side is FAILED, every bit up to there is consumed, and
nothing else of the machine has changed but the report (41_bit_cursor.md R101; 60_exceptions.md R263). -/
def BrokeReading (a : Nat) (s s' : State) : Prop :=
  s'.R.st = .failed ∧ s'.R.k = a ∧ s'.R.n = 0 ∧ s'.R.base = s.R.base ∧ s'.R.pos + 8 * s.R.k = s.R.pos + s.R.n + 8 * a ∧
    OnlyReaderMoved s s'

/-- The status of a read the channel gave no byte for (41_bit_cursor.md R101). -/
def missingStatus (c : InChannel) (a : Nat) : Status := if a ∈ c.fail then .channelIo else .endOfInput

/-- The command i reads t bits from bit `skip` of the unread stream on, after the `skip` bits before them, and answers `f` of the
number they spell; it ends as an I/O failure at the first byte the channel does not give. -/
def Reads (i : Instr) (skip t : Nat) (f : Nat → Data) (s : State) : Prop :=
  (Supplies s (skip + t) →
      ∃ s', exec i s = .next s' ∧ Consumed (skip + t) s s' ∧ EndedOk (f (inNumber s skip t)) false s s') ∧
    (∀ a, FirstMissing s (skip + t) a →
      ∃ s', exec i s = .next s' ∧ BrokeReading a s s' ∧ EndedIo (missingStatus s.inp a) s s')

/-- What `CheckR()` does before the command i on a side that is not open (41_bit_cursor.md R102). -/
def GuardedR (i : Instr) (s : State) : Prop :=
  (s.R.st = .closed → exec i s = .next (preconditionFailed .illegalState s)) ∧
    (s.R.st = .failed → exec i s = .next (modelFault .useAfterFailure s))

/-- A nullable read of the command i, whose payload is t bits (43_float_codec.md R180): the presence bit is the first unread bit. -/
def NullableReads (i : Instr) (nl : Bool) (t : Nat) (f : Nat → Data) (s : State) : Prop :=
  (nl = false → Reads i 0 t f s) ∧
    (nl = true → inBit s 0 = true → Reads i 1 t f s) ∧
    (nl = true → inBit s 0 = false →
      (Supplies s 1 → ∃ s', exec i s = .next s' ∧ Consumed 1 s s' ∧ EndedOk 0 true s s') ∧
        (∀ a, FirstMissing s 1 a →
          ∃ s', exec i s = .next s' ∧ BrokeReading a s s' ∧ EndedIo (missingStatus s.inp a) s s'))

/-- The next t unread bits of r are the t bits that the write from s to s' appended: a reader at the same stream position
(42_integer_codec.md R156). -/
def ReadsBack (t : Nat) (s s' r : State) : Prop := ∀ i, i < t → inBit r i = outBit s' (outLen s + i)

/-! ### The VLQ wire format -/

/-- The number of 7-bit groups of v (46_vlq.md R241). -/
def vlqLen (v : Nat) : Nat := if v = 0 then 1 else (Nat.log2 v + 1 + 6) / 7

/-- Unit i of the k units of v: the continuation bit, then the group (46_vlq.md R240). -/
def vlqUnit (v k i : Nat) : Nat := (if i + 1 < k then 128 else 0) + v / 128 ^ i % 128

/-- The number that the first i of the k units of v spell on the stream. -/
def vlqPrefix (v k : Nat) : Nat → Nat
  | 0 => 0
  | i + 1 => 256 * vlqPrefix v k i + vlqUnit v k i

/-- The number that the whole VLQ field of v spells on the stream (46_vlq.md R240). -/
def vlqWire (v : Nat) : Nat := vlqPrefix v (vlqLen v) (vlqLen v)

/-- The continuation bit of unit i of the unread stream (46_vlq.md R240). -/
def unitContinues (s : State) (i : Nat) : Bool := inBit s (8 * i)

/-- The group of unit i of the unread stream (46_vlq.md R240). -/
def unitGroup (s : State) (i : Nat) : Nat := inNumber s (8 * i + 1) 7

/-- The value of the first m units of the unread stream: the sum of `g_i << (7*i)` (46_vlq.md R240). -/
def unitsValue (s : State) : Nat → Nat
  | 0 => 0
  | m + 1 => unitsValue s m + unitGroup s m * 2 ^ (7 * m)

/-- The first m units of the unread stream announce another unit and fit L value bits. -/
def UnitsGoOn (L m : Nat) (s : State) : Prop :=
  ∀ i, i < m → unitContinues s i = true ∧ unitGroup s i * 2 ^ (7 * i) < 2 ^ L

/-- What the command i answers as a VLQ read with L value bits and at most G units (46_vlq.md R242). -/
def ReadsVlq (i : Instr) (L G : Nat) (s : State) : Prop :=
  (∀ m, m < G → UnitsGoOn L m s → unitContinues s m = false → unitGroup s m * 2 ^ (7 * m) < 2 ^ L →
      Supplies s (8 * (m + 1)) →
      ∃ s', exec i s = .next s' ∧ Consumed (8 * (m + 1)) s s' ∧
        EndedOk (BitVec.ofNat 64 (unitsValue s (m + 1))) false s s') ∧
    (∀ m, m < G → UnitsGoOn L m s →
      (2 ^ L ≤ unitGroup s m * 2 ^ (7 * m) ∨ (unitContinues s m = true ∧ m + 1 = G)) → Supplies s (8 * (m + 1)) →
      ∃ s', exec i s = .next s' ∧ Consumed (8 * (m + 1)) s s' ∧ EndedFault .malformedVlq s s') ∧
    (∀ m a, m < G → UnitsGoOn L m s → Supplies s (8 * m) → FirstMissing s (8 * (m + 1)) a →
      ∃ s', exec i s = .next s' ∧ BrokeReading a s s' ∧ EndedIo (missingStatus s.inp a) s s')

/-! ### The sides -/

/-- The side a command works on: the output side, the input side, or none (the detectors). -/
inductive Side where
  | output
  | input
  | neither
deriving DecidableEq, Repr

/-- The side of a command (41_bit_cursor.md, 42_integer_codec.md, 43_float_codec.md, 44_float_compressed.md,
45_float_detectors.md R229, 46_vlq.md). -/
def sideOf : Instr → Side
  | .wrbits _ | .skipw | .alignw | .resetw | .flushw | .closew | .wrint _ _ | .wrlong _ _ | .wrbool | .wrbyte _ _ | .wrshort _ _
  | .wrchar _ | .wrbyte8 | .wrshort16 | .wrint32 | .wrlong64 | .wrchar16 | .wrfloat _ _ _ | .wrdouble _ _ _ | .wrzerof _
  | .wrzerod _ | .wrinff _ | .wrinfd _ | .wrsubf _ _ | .wrsubd _ _ | .wrnanf _ _ _ | .wrnand _ _ _ | .wrvlqi | .wrvlql => .output
  | .rdbits _ | .skipr | .alignr | .closer | .rdint _ _ | .rdlong _ _ | .rdbool | .rdbyte _ _ | .rdshort _ _
  | .rdchar _ | .rdbyte8 | .rdshort16 | .rdint32 | .rdlong64 | .rdchar16 | .rdfloat _ _ _ | .rddouble _ _ _ | .rdzerof _
  | .rdzerod _ | .rdinff _ | .rdinfd _ | .rdsubf _ _ | .rdsubd _ _ | .rdnanf _ _ _ | .rdnand _ _ _ | .rdvlqi | .rdvlql => .input
  | .iszerof | .iszerod | .isinff | .isinfd | .isnanf | .isnand | .classf | .classd => .neither

/-- The two commands that run no side check (41_bit_cursor.md R111, R112). -/
def closesASide : Instr → Bool
  | .closew | .closer => true
  | .rdbits _ | .wrbits _ | .skipr | .skipw | .alignr | .alignw | .resetw | .flushw | .wrint _ _ | .rdint _ _ | .wrlong _ _
  | .rdlong _ _ | .wrbool | .rdbool | .wrbyte _ _ | .rdbyte _ _ | .wrshort _ _ | .rdshort _ _ | .wrchar _ | .rdchar _ | .wrbyte8
  | .rdbyte8 | .wrshort16 | .rdshort16 | .wrint32 | .rdint32 | .wrlong64 | .rdlong64 | .wrchar16 | .rdchar16 | .wrfloat _ _ _
  | .rdfloat _ _ _ | .wrdouble _ _ _ | .rddouble _ _ _ | .wrzerof _ | .rdzerof _ | .wrzerod _ | .rdzerod _ | .wrinff _ | .rdinff _
  | .wrinfd _ | .rdinfd _ | .wrsubf _ _ | .rdsubf _ _ | .wrsubd _ _ | .rdsubd _ _ | .wrnanf _ _ _ | .rdnanf _ _ _ | .wrnand _ _ _
  | .rdnand _ _ _ | .iszerof | .iszerod | .isinff | .isinfd | .isnanf | .isnand | .classf | .classd | .wrvlqi | .rdvlqi | .wrvlql
  | .rdvlql => false

/-! ### Matching commands -/

/-- The read that consumes what a write produced, for the writes whose bit count the command and DIN fix (41_bit_cursor.md R113):
the aligns, RESETW and the VLQ commands are left to statements of their own. -/
def counterpart : Instr → Option Instr
  | .skipw => some .skipr
  | .wrbits sz => some (.rdbits sz)
  | .wrint u sz => some (.rdint u sz)
  | .wrlong u sz => some (.rdlong u sz)
  | .wrbool => some .rdbool
  | .wrbyte u sz => some (.rdbyte u sz)
  | .wrshort u sz => some (.rdshort u sz)
  | .wrchar sz => some (.rdchar sz)
  | .wrbyte8 => some .rdbyte8
  | .wrshort16 => some .rdshort16
  | .wrint32 => some .rdint32
  | .wrlong64 => some .rdlong64
  | .wrchar16 => some .rdchar16
  | .wrfloat nl sz ex => some (.rdfloat nl sz ex)
  | .wrdouble nl sz ex => some (.rddouble nl sz ex)
  | .wrzerof nl => some (.rdzerof nl)
  | .wrzerod nl => some (.rdzerod nl)
  | .wrinff nl => some (.rdinff nl)
  | .wrinfd nl => some (.rdinfd nl)
  | .wrsubf nl sz => some (.rdsubf nl sz)
  | .wrsubd nl sz => some (.rdsubd nl sz)
  | .wrnanf nl so sz => some (.rdnanf nl so sz)
  | .wrnand nl so sz => some (.rdnand nl so sz)
  | .rdbits _ | .skipr | .alignr | .alignw | .resetw | .flushw | .closer | .closew | .rdint _ _ | .rdlong _ _ | .rdbool
  | .rdbyte _ _ | .rdshort _ _ | .rdchar _ | .rdbyte8 | .rdshort16 | .rdint32 | .rdlong64 | .rdchar16 | .rdfloat _ _ _
  | .rddouble _ _ _ | .rdzerof _ | .rdzerod _ | .rdinff _ | .rdinfd _ | .rdsubf _ _ | .rdsubd _ _ | .rdnanf _ _ _
  | .rdnand _ _ _ | .iszerof | .iszerod | .isinff | .isinfd | .isnanf | .isnand | .classf | .classd | .wrvlqi | .rdvlqi
  | .wrvlql | .rdvlql => none

/-- Is the command a nullable write of a null (43_float_codec.md R179)? -/
def writesNull (i : Instr) (s : State) : Bool :=
  match i with
  | .wrfloat nl _ _ => nl && !s.port.present
  | .wrdouble nl _ _ => nl && !s.port.present
  | .wrzerof nl => nl && !s.port.present
  | .wrzerod nl => nl && !s.port.present
  | .wrinff nl => nl && !s.port.present
  | .wrinfd nl => nl && !s.port.present
  | .wrsubf nl _ => nl && !s.port.present
  | .wrsubd nl _ => nl && !s.port.present
  | .wrnanf nl _ _ => nl && !s.port.present
  | .wrnand nl _ _ => nl && !s.port.present
  | .rdbits _ | .wrbits _ | .skipr | .skipw | .alignr | .alignw | .resetw | .flushw | .closer | .closew | .wrint _ _
  | .rdint _ _ | .wrlong _ _ | .rdlong _ _ | .wrbool | .rdbool | .wrbyte _ _ | .rdbyte _ _ | .wrshort _ _ | .rdshort _ _
  | .wrchar _ | .rdchar _ | .wrbyte8 | .rdbyte8 | .wrshort16 | .rdshort16 | .wrint32 | .rdint32 | .wrlong64 | .rdlong64
  | .wrchar16 | .rdchar16 | .rdfloat _ _ _ | .rddouble _ _ _ | .rdzerof _ | .rdzerod _ | .rdinff _ | .rdinfd _
  | .rdsubf _ _ | .rdsubd _ _ | .rdnanf _ _ _ | .rdnand _ _ _ | .iszerof | .iszerod | .isinff | .isinfd | .isnanf
  | .isnand | .classf | .classd | .wrvlqi | .rdvlqi | .wrvlql | .rdvlql => false

/-! ### Values on DIN -/

/-- The signed value of the low N bits of DIN (30_encoding.md R68). -/
def dinInt (N : Nat) (s : State) : Int := (s.port.din.setWidth N).toInt

/-- The legal sizes of an integer type of native width N (42_integer_codec.md R130). -/
abbrev LegalIntSize (N : Nat) (u : Bool) (sz : Nat) : Prop := 1 ≤ sz ∧ (if u then sz ≤ N - 1 else sz ≤ N)

/-- The codomain of a signedness and a size (42_integer_codec.md R131). -/
abbrev IntCodomain (u : Bool) (sz : Nat) (v : Int) : Prop :=
  if u then 0 ≤ v ∧ v ≤ 2 ^ sz - 1 else -2 ^ (sz - 1) ≤ v ∧ v ≤ 2 ^ (sz - 1) - 1

/-- DOUT for an sz-bit pattern that is extended to N bits (42_integer_codec.md R132; 30_encoding.md R69). -/
def extended (N : Nat) (u : Bool) (sz p : Nat) : Data :=
  (if u then (BitVec.ofNat sz p).setWidth N else (BitVec.ofNat sz p).signExtend N).setWidth 64

/-- The native pattern on DIN without its sign bit (30_encoding.md R68): of a float and of a double. -/
def magnitudeOnDin (fmt : Fmt) (s : State) : Nat := s.port.din.toNat % 2 ^ (fmt.width - 1)

/-- The sign bit of the native pattern on DIN (00_scope.md R8). -/
def signOnDin (fmt : Fmt) (s : State) : Nat := s.port.din.toNat / 2 ^ (fmt.width - 1) % 2

/-- The magnitude of the infinities of a format: the exponent field all ones, the significand 0 (45_float_detectors.md R220). -/
def infinityOf : Fmt → Nat
  | .F => 0x7F800000
  | .D => 0x7FF0000000000000

/-- The magnitude of the smallest Normal of a format: the exponent field 1, the significand 0 (45_float_detectors.md R220). -/
def smallestNormalOf : Fmt → Nat
  | .F => 0x00800000
  | .D => 0x0010000000000000

/-- The number that the stored fields of a general float write spell: sign, exponent field, significand field (43_float_codec.md
R173). -/
def storedNumber (e sz : Nat) (f : Stored) : Nat := f.sg * 2 ^ (e + sz) + f.fe * 2 ^ sz + f.t

/-- The stored fields that such a number holds (43_float_codec.md R173). -/
def storedFields (e sz p : Nat) : Stored := ⟨p / 2 ^ (e + sz), p / 2 ^ sz % 2 ^ e, p % 2 ^ sz⟩

/-! ### Illegal words -/

/-- "A command word is illegal when any of these holds" (30_encoding.md R71): its opcode is in no row of the map; a bit of a field
that its row's mask covers is not 0; RSV is not 0. -/
def IllegalWord (w : Word) : Prop :=
  (∀ r ∈ opcodeMap, bitsAt w.toNat 31 24 ≠ bitsAt r.pattern.toNat 31 24) ∨
    (∃ r ∈ opcodeMap, bitsAt w.toNat 31 24 = bitsAt r.pattern.toNat 31 24 ∧ w &&& r.mask &&& 0x00FFFC00#32 ≠ 0) ∨
    bitsAt w.toNat 9 0 ≠ 0

/-! ### Invariants -/

/-- The output cursor and its channel agree (10_state.md R26). A side whose byte write failed holds that byte's 8 bits (log 8). -/
abbrev WriterInv (s : State) : Prop :=
  s.W.acc < 2 ^ s.W.n ∧ s.W.n ≤ 8 ∧ (s.W.st = .opened → s.W.n < 8) ∧ s.W.pos ≤ outLen s ∧
    (outLen s - s.W.pos) % 8 = 0 ∧ s.W.base ≤ s.W.pos ∧ s.W.base % 8 = 0 ∧
    s.outp.bytes.map Prod.fst = List.range s.W.k ∧ s.outp.closes = (if s.W.st = .closed then 1 else 0)

/-- The held bits are the low bits of the last byte taken (10_state.md R24). -/
def heldAgrees (s : State) : Bool :=
  s.R.n == 0 ||
    match chanRead s.inp (s.R.k - 1) with
    | .byte b => s.R.hold == b.toNat % 2 ^ s.R.n
    | .eod | .ioerr => false

/-- The input cursor and its channel agree (10_state.md R26). -/
abbrev ReaderInv (s : State) : Prop :=
  s.R.hold < 2 ^ s.R.n ∧ s.R.n = (8 - s.R.pos % 8) % 8 ∧ s.R.k = (s.R.pos + 7) / 8 ∧ s.R.base ≤ s.R.pos ∧
    s.R.base % 8 = 0 ∧ heldAgrees s = true ∧ s.inp.closes = (if s.R.st = .closed then 1 else 0)

/-- The block status and the result port agree (10_state.md R25, R28): S.last is the STATUS on the port, a failure answers DOUT = 0
and ISNULL = 0, a FAILED side has been reported as an I/O failure, and a fault status has set S.fault. -/
abbrev StatusInv (s : State) : Prop :=
  (s.result.map Result.status).getD 0 = s.S.last ∧ (s.W.st = .failed ∨ s.R.st = .failed → s.S.iof = true) ∧
    (32 ≤ s.S.last.toNat → s.S.fault = true) ∧
    (s.S.last ≠ 0 → s.result.map Result.dout = some 0 ∧ s.result.map Result.isnull = some false)

/-- The invariant of the machine. -/
abbrev Inv (s : State) : Prop := WriterInv s ∧ ReaderInv s ∧ StatusInv s

/-- A run in which the spec gives every observation a meaning so far: no model fault (60_exceptions.md R264), and neither side has
failed (60_exceptions.md R263). -/
abbrev Safe (s : State) : Prop := s.S.fault = false ∧ s.S.iof = false

end Sys2Proof.Machine
end

