-- ==== Sys2Proof/WellFormed.lean ====
section
/-! DEFINITION. Which commands have a word: `SZ` and `EX` fit their fields (30_encoding.md R60, R65, R66). A size outside a
command's legal range is no encoding error (R65), so nothing else is checked here. -/

namespace Sys2Proof

/-- SZ is an unsigned 7-bit number (30_encoding.md R65). -/
def szFits (sz : Nat) : Bool := decide (sz < 2 ^ 7)

/-- EX is an unsigned 4-bit number (30_encoding.md R66). -/
def exFits (ex : Nat) : Bool := decide (ex < 2 ^ 4)

/-- The command has a word: each of its number fields fits. -/
def wellFormed : Instr → Bool
  | .rdbits sz => szFits sz
  | .wrbits sz => szFits sz
  | .skipr => true
  | .skipw => true
  | .alignr => true
  | .alignw => true
  | .resetw => true
  | .flushw => true
  | .closer => true
  | .closew => true
  | .wrint _ sz => szFits sz
  | .rdint _ sz => szFits sz
  | .wrlong _ sz => szFits sz
  | .rdlong _ sz => szFits sz
  | .wrbool => true
  | .rdbool => true
  | .wrbyte _ sz => szFits sz
  | .rdbyte _ sz => szFits sz
  | .wrshort _ sz => szFits sz
  | .rdshort _ sz => szFits sz
  | .wrchar sz => szFits sz
  | .rdchar sz => szFits sz
  | .wrbyte8 => true
  | .rdbyte8 => true
  | .wrshort16 => true
  | .rdshort16 => true
  | .wrint32 => true
  | .rdint32 => true
  | .wrlong64 => true
  | .rdlong64 => true
  | .wrchar16 => true
  | .rdchar16 => true
  | .wrfloat _ sz ex => szFits sz && exFits ex
  | .rdfloat _ sz ex => szFits sz && exFits ex
  | .wrdouble _ sz ex => szFits sz && exFits ex
  | .rddouble _ sz ex => szFits sz && exFits ex
  | .wrzerof _ => true
  | .rdzerof _ => true
  | .wrzerod _ => true
  | .rdzerod _ => true
  | .wrinff _ => true
  | .rdinff _ => true
  | .wrinfd _ => true
  | .rdinfd _ => true
  | .wrsubf _ sz => szFits sz
  | .rdsubf _ sz => szFits sz
  | .wrsubd _ sz => szFits sz
  | .rdsubd _ sz => szFits sz
  | .wrnanf _ _ sz => szFits sz
  | .rdnanf _ _ sz => szFits sz
  | .wrnand _ _ sz => szFits sz
  | .rdnand _ _ sz => szFits sz
  | .iszerof => true
  | .iszerod => true
  | .isinff => true
  | .isinfd => true
  | .isnanf => true
  | .isnand => true
  | .classf => true
  | .classd => true
  | .wrvlqi => true
  | .rdvlqi => true
  | .wrvlql => true
  | .rdvlql => true

end Sys2Proof
end

