-- ==== Sys2Proof/Certificates/Slice0/Obligations.lean ====
section
/-! DEFINITION. The statements for the provers. Each docstring names the rule of spec/ that the statement formalises, or says that
it is the model's own or an inference the spec marks as derived. Every hypothesis is met by a witness in Tests/Slice0.lean. -/

open Sys2Proof Sys2Proof.Machine

/-! ### Encoding -/

/-- Derived from 30_encoding.md sections 1 and 3: the decoder gives back every well-formed command from its word, with every field
at every value. -/
def Obligations.DecodeOfEncodeIsTheCommand : Prop :=
  ∀ i, wellFormed i = true → decode (encode i) = .ok i

/-- Derived from 30_encoding.md sections 1 and 3: a word that decodes is the one word of a well-formed command. -/
def Obligations.EncodeOfDecodeIsTheWord : Prop :=
  ∀ w i, decode w = .ok i → wellFormed i = true ∧ encode i = w

/-- 30_encoding.md R70: the decoder selects a row exactly when `(w & mask) = match`, the map being the one R70 prints; no word
selects two rows. -/
def Obligations.DecodeSelectsTheOneRowOfTheMap : Prop :=
  ∀ w : Word, match decode w with
    | .ok i => ∃ r, opcodeMap.filter (fun r => r.selects w) = [r] ∧ r.mnemonic = i.mnemonic
    | .error _ => opcodeMap.filter (fun r => r.selects w) = []

/-- Derived from 30_encoding.md sections 1 and 3: words written out field by field, one or more for each format. -/
def Obligations.WordsOfEachFormatDecode : Prop :=
  decode 0x0100C000#32 = .ok (.rdbits 3) ∧ decode 0x1A040000#32 = .ok (.wrchar 16) ∧
    decode 0x06000000#32 = .ok .alignw ∧ decode 0x53000000#32 = .ok .rdvlql ∧ decode 0x4E000000#32 = .ok .classf ∧
    decode 0x1080C000#32 = .ok (.wrint true 3) ∧ decode 0x19040000#32 = .ok (.rdshort false 16) ∧
    decode 0x30429400#32 = .ok (.wrfloat true 10 5) ∧ decode 0x330D2C00#32 = .ok (.rddouble false 52 11) ∧
    decode 0x34400000#32 = .ok (.wrzerof true) ∧ decode 0x3B000000#32 = .ok (.rdinfd false) ∧
    decode 0x3C05C000#32 = .ok (.wrsubf false 23) ∧ decode 0x40610000#32 = .ok (.wrnanf true true 4) ∧
    decode 0x43204000#32 = .ok (.rdnand false true 1)

/-! ### The block -/

/-- Derived from 60_exceptions.md section 2; the queue is the model's own (log 1). A step takes the host's next command, samples
the port with it and, where the block is not faulted and the word decodes, is that command's meaning. -/
def Obligations.StepRunsTheDecodedCommand : Prop :=
  ∀ (s : State) (c : Command) (rest : List Command) (i : Instr),
    s.queue = c :: rest → s.S.fault = false → decode c.cmd = .ok i →
    wellFormed i = true ∧ step s = exec i { s with port := c, queue := rest }

/-- Derived from 60_exceptions.md section 5 and 00_scope.md section 1: every step answers a next state, and with no command issued
the block holds its state. That a step without a command is a step at all is the model's choice (log 1). -/
def Obligations.EveryStepAnswersANextState : Prop :=
  (∀ s : State, ∃ t, step s = .next t) ∧ ∀ s : State, s.queue = [] → step s = .next s

/-- 30_encoding.md R71: a word whose opcode is in no row, a field of which its row leaves unused is not 0, or whose RSV is not 0
is the precondition failure ILLEGAL_COMMAND, which changes S.pf and S.last alone (and the result port, which every command
writes). Every other word decodes. -/
def Obligations.IllegalWordsAreReportedAndChangeNothing : Prop :=
  ∀ (s : State) (c : Command) (rest : List Command), s.queue = c :: rest → s.S.fault = false →
    (IllegalWord c.cmd → step s = .next (preconditionFailed .illegalCommand { s with port := c, queue := rest })) ∧
      (¬ IllegalWord c.cmd → ∃ i, decode c.cmd = .ok i)

/-- 60_exceptions.md R265: a faulted block answers FAULTED to every command, whatever its word, and changes S.last and nothing
else (beside the ports). -/
def Obligations.FaultedBlockIsQuiescent : Prop :=
  ∀ (s : State) (c : Command) (rest : List Command), s.queue = c :: rest → s.S.fault = true →
    step s = .next { s with
      port := c
      queue := rest
      S := { s.S with last := 35 }
      result := some { dout := 0, isnull := false, status := 35 } }

/-- Derived from 70_reset_and_hazards.md section 1; an empty result port is the model's form of "no value" (log 3). After block
reset every field of W, R and S has its reset value, OUT is empty, the result port has no value, and the input is read from
index 0; no step clears S.fault, S.pf or S.iof, so block reset alone does. -/
def Obligations.ResetIsFreshAndAloneClearsTheStickyBits : Prop :=
  State.reset.W = { st := .opened, acc := 0, n := 0, pos := 0, base := 0, k := 0 } ∧
    State.reset.R = { st := .opened, hold := 0, n := 0, pos := 0, base := 0, k := 0 } ∧
    State.reset.S = { fault := false, pf := false, iof := false, last := 0 } ∧
    State.reset.outp.bytes = [] ∧ State.reset.result = none ∧
    ∀ s t, step s = .next t →
      (s.S.fault = true → t.S.fault = true) ∧ (s.S.pf = true → t.S.pf = true) ∧ (s.S.iof = true → t.S.iof = true)

/-- Derived from 10_state.md section 4 and 60_exceptions.md sections 1 and 3: every command ends with one status, puts it on the
result port and in S.last, sets the sticky bit of its class and no other, and answers DOUT = 0 and ISNULL = 0 unless it is OK. -/
def Obligations.EveryCommandReportsOneStatus : Prop :=
  ∀ (i : Instr) (s : State), ∃ t c v z, exec i s = .next t ∧
    t.result = some { dout := v, isnull := z, status := Status.code c } ∧
    t.S.last = c.code ∧
    t.S.fault = (s.S.fault || decide (32 ≤ c.code.toNat)) ∧
    t.S.pf = (s.S.pf || decide (1 ≤ c.code.toNat ∧ c.code.toNat ≤ 5)) ∧
    t.S.iof = (s.S.iof || decide (c.code.toNat = 16 ∨ c.code.toNat = 17)) ∧
    (c ≠ .ok → v = 0 ∧ z = false)

/-- 60_exceptions.md R262: a step that reports a precondition failure differs from its start in that report alone. -/
def Obligations.PreconditionFailureChangesNothingElse : Prop :=
  ∀ (s t : State) (c : Command) (rest : List Command) (e : Status), s.queue = c :: rest → step s = .next t → statusIs e t →
    e = .invalidSize ∨ e = .invalidCount ∨ e = .invalidBoundary ∨ e = .illegalState ∨ e = .illegalCommand →
    t = preconditionFailed e { s with port := c, queue := rest }

/-- Derived from 60_exceptions.md section 3 and 46_vlq.md section 1: a step that reports UNDEFINED_INPUT or USE_AFTER_FAILURE
differs from its start in that report alone; one that reports MALFORMED_VLQ has also consumed the units it read, at least one
and at most nine, and nothing else. -/
def Obligations.ModelFaultChangesNothingButBitsAlreadyRead : Prop :=
  ∀ (s t : State) (c : Command) (rest : List Command), s.queue = c :: rest → step s = .next t →
    (∀ e, e = .undefinedInput ∨ e = .useAfterFailure → statusIs e t →
      t = modelFault e { s with port := c, queue := rest }) ∧
    (statusIs .malformedVlq t → ∃ m, 1 ≤ m ∧ m ≤ 9 ∧ Consumed (8 * m) { s with port := c, queue := rest } t ∧
      EndedFault .malformedVlq s t)

/-- Derived from 60_exceptions.md section 3: a step that reports an I/O failure leaves the side whose channel failed FAILED or
CLOSED, the other side, S.fault and S.pf as they were, and every byte handed over before the failure in OUT. -/
def Obligations.IoFailureFailsOneSideAlone : Prop :=
  ∀ (s t : State) (c : Command) (rest : List Command) (e : Status), s.queue = c :: rest → step s = .next t → statusIs e t →
    e = .endOfInput ∨ e = .channelIo →
    EndedIo e s t ∧ (∀ a, a < s.W.k → Memory.read t.outp.bytes a = Memory.read s.outp.bytes a) ∧
      ((t.W.st ≠ .opened ∧ t.R = s.R ∧ t.inp = s.inp) ∨
        (t.R.st ≠ .opened ∧ t.W = s.W ∧ t.outp = s.outp))

/-- 41_bit_cursor.md R102: on a CLOSED side every command but its close is the precondition failure ILLEGAL_STATE, on a FAILED
side the model fault USE_AFTER_FAILURE; the closes do not run these checks, and leave the side CLOSED and S.fault as it was. -/
def Obligations.ClosedAndFailedSidesTurnCommandsAway : Prop :=
  ∀ (i : Instr) (s : State),
    (closesASide i = false → (sideOf i = .output → GuardedW i s) ∧ (sideOf i = .input → GuardedR i s)) ∧
      (∃ t, exec .closew s = .next t ∧ t.W.st = .closed ∧ t.S.fault = s.S.fault) ∧
      ∃ t, exec .closer s = .next t ∧ t.R.st = .closed ∧ t.S.fault = s.S.fault

/-- Derived from 20_memory.md section 5: a command works on its own side alone, a detector on none, and no command changes what
the host put on the port or will issue next. -/
def Obligations.NoCommandTouchesBothSides : Prop :=
  ∀ (i : Instr) (s t : State), exec i s = .next t →
    (sideOf i ≠ .output → t.W = s.W ∧ t.outp = s.outp) ∧ (sideOf i ≠ .input → t.R = s.R ∧ t.inp = s.inp) ∧
      t.port = s.port ∧ t.queue = s.queue

/-- Derived from 20_memory.md sections 1 and 3: a byte handed to the output channel is never changed, the two channel indices
never go back, and what the input channel supplies is fixed. -/
def Obligations.ChannelsOnlyMoveForward : Prop :=
  ∀ s t : State, WriterInv s → step s = .next t →
    (∀ a b, Memory.read s.outp.bytes a = some b → Memory.read t.outp.bytes a = some b) ∧
      s.W.k ≤ t.W.k ∧ s.R.k ≤ t.R.k ∧ t.inp.bytes = s.inp.bytes ∧ t.inp.fail = s.inp.fail

/-- Derived from 10_state.md section 3 (an inference the spec marks as its own; the 8 bits of a refused byte are log 8): a step
keeps the invariant. -/
def Obligations.StepKeepsTheInvariant : Prop :=
  ∀ s t : State, Inv s → step s = .next t → Inv t

/-- Derived from 10_state.md section 3 and 70_reset_and_hazards.md section 1: the state after block reset meets the invariant. -/
def Obligations.ResetMeetsTheInvariant : Prop := Inv State.reset

/-- Derived from 00_scope.md section 4, for the two raw commands: stream bit j is bit 7 - (j mod 8) of channel byte j div 8, and
a field's first stream bit is its most significant bit. RDBITS answers the field that starts at the stream bit R.pos; WRBITS
puts the first bit of its field at the next place of the output stream, whose complete bytes are in OUT. -/
def Obligations.FieldsLieOnTheStreamMsbFirst : Prop :=
  ∀ (sz : Nat) (s t : State), 1 ≤ sz → sz ≤ 64 →
    (ReaderInv s → exec (.rdbits sz) s = .next t → ∀ v, EndedOk v false s t →
      ∀ i, i < sz → v.getLsbD (sz - 1 - i) = channelBit s.inp (s.R.pos + i)) ∧
    (WriterInv s → exec (.wrbits sz) s = .next t → EndedOk 0 false s t →
      ∀ i, i < sz → ∀ j, j = outLen s + i → j < 8 * t.W.k →
        ∃ b, Memory.read t.outp.bytes (j / 8) = some b ∧ b.getLsbD (7 - j % 8) = s.port.din.getLsbD (sz - 1 - i))

/-- Derived from 20_memory.md section 3 (an inference the spec marks as its own): a command that ends OK and moves t bits from the
position p has handed over floor((p + t) / 8) - floor(p / 8) bytes, or taken ceil((p + t) / 8) - ceil(p / 8). RESETW, which writes
the position itself, hands over none. -/
def Obligations.ByteCountsFollowThePositions : Prop :=
  ∀ (i : Instr) (s u : State), exec i s = .next u → statusIs .ok u →
    (WriterInv s → i ≠ .resetw → ∃ t, u.W.pos = s.W.pos + t ∧ u.W.k = s.W.k + ((s.W.pos + t) / 8 - s.W.pos / 8)) ∧
      (i = .resetw → u.W.k = s.W.k) ∧
      (ReaderInv s → ∃ t, u.R.pos = s.R.pos + t ∧ u.R.k = s.R.k + ((s.R.pos + t + 7) / 8 - (s.R.pos + 7) / 8))

/-! ### Bit cursor -/

/-- 41_bit_cursor.md R103: RDBITS. -/
def Obligations.RdbitsReadsRawBits : Prop :=
  ∀ (sz : Nat) (s : State), GuardedR (.rdbits sz) s ∧
    (ReaderReady s → sz < 1 ∨ 64 < sz → exec (.rdbits sz) s = .next (preconditionFailed .invalidSize s)) ∧
    (ReaderReady s → 1 ≤ sz → sz ≤ 64 → Reads (.rdbits sz) 0 sz (BitVec.ofNat 64) s)

/-- 41_bit_cursor.md R104: WRBITS. -/
def Obligations.WrbitsWritesTheLowBits : Prop :=
  ∀ (sz : Nat) (s : State), GuardedW (.wrbits sz) s ∧
    (s.W.st = .opened → sz < 1 ∨ 64 < sz → exec (.wrbits sz) s = .next (preconditionFailed .invalidSize s)) ∧
    (WriterReady s → 1 ≤ sz → sz ≤ 64 → Writes (.wrbits sz) s.port.din.toNat sz s)

/-- 41_bit_cursor.md R105: SKIPR. -/
def Obligations.SkiprDiscardsBits : Prop :=
  ∀ s : State, GuardedR .skipr s ∧
    (ReaderReady s → dinInt 32 s ≤ 0 → exec .skipr s = .next (preconditionFailed .invalidCount s)) ∧
    (ReaderReady s → ∀ t : Nat, dinInt 32 s = t → 0 < t → Reads .skipr 0 t (fun _ => 0) s)

/-- 41_bit_cursor.md R106: SKIPW. -/
def Obligations.SkipwWritesZeroBits : Prop :=
  ∀ s : State, GuardedW .skipw s ∧
    (s.W.st = .opened → dinInt 32 s ≤ 0 → exec .skipw s = .next (preconditionFailed .invalidCount s)) ∧
    (WriterReady s → ∀ t : Nat, dinInt 32 s = t → 0 < t → Writes .skipw 0 t s)

/-- 41_bit_cursor.md R107: ALIGNR discards the fewest bits that make the distance from the last alignment point a multiple of DIN
bytes, answers how many, and moves the alignment point there. -/
def Obligations.AlignrDiscardsToTheBoundary : Prop :=
  ∀ s : State, GuardedR .alignr s ∧
    (ReaderReady s → dinInt 32 s ≤ 0 → exec .alignr s = .next (preconditionFailed .invalidBoundary s)) ∧
    (ReaderReady s → ∀ n pad : Nat, dinInt 32 s = n → 0 < n → pad < 8 * n → (s.R.pos - s.R.base + pad) % (8 * n) = 0 →
      (Supplies s pad → ∃ s', exec .alignr s = .next { s' with R := { s'.R with base := s'.R.pos } } ∧ Consumed pad s s' ∧
        EndedOk (BitVec.ofNat 64 pad) false s s') ∧
      (∀ a, FirstMissing s pad a → ∃ s', exec .alignr s = .next s' ∧ BrokeReading a s s' ∧
        EndedIo (missingStatus s.inp a) s s'))

/-- 41_bit_cursor.md R108: ALIGNW writes the fewest zero bits that make the distance from the last alignment point a multiple of
DIN bytes, answers how many, and moves the alignment point there. -/
def Obligations.AlignwPadsToTheBoundary : Prop :=
  ∀ s : State, GuardedW .alignw s ∧
    (s.W.st = .opened → dinInt 32 s ≤ 0 → exec .alignw s = .next (preconditionFailed .invalidBoundary s)) ∧
    (WriterReady s → ∀ n pad : Nat, dinInt 32 s = n → 0 < n → pad < 8 * n → (s.W.pos - s.W.base + pad) % (8 * n) = 0 →
      (Accepts s pad → ∃ s', exec .alignw s = .next { s' with W := { s'.W with base := s'.W.pos } } ∧ Appended 0 pad s s' ∧
        EndedOk (BitVec.ofNat 64 pad) false s s') ∧
      (∀ a, FirstRefused s pad a → ∃ s', exec .alignw s = .next s' ∧ BrokeWriting 0 pad a s s' ∧
        EndedIo .channelIo s s'))

/-- 41_bit_cursor.md R109: RESETW. -/
def Obligations.ResetwClearsThePositions : Prop :=
  ∀ s : State, GuardedW .resetw s ∧
    (s.W.st = .opened → s.W.n ≠ 0 → exec .resetw s = .next (preconditionFailed .illegalState s)) ∧
    (s.W.st = .opened → s.W.n = 0 →
      exec .resetw s = .next (completedWith 0 false { s with W := { s.W with pos := 0, base := 0 } }))

/-- 41_bit_cursor.md R110: FLUSHW passes one flush to the channel and hands over no pending bit. -/
def Obligations.FlushwPassesOneFlush : Prop :=
  ∀ s : State, GuardedW .flushw s ∧
    (s.W.st = .opened → s.outp.flushes ∉ s.outp.flushFail →
      exec .flushw s = .next (completedWith 0 false { s with outp := { s.outp with flushes := s.outp.flushes + 1 } })) ∧
    (s.W.st = .opened → s.outp.flushes ∈ s.outp.flushFail → exec .flushw s = .next (ioFailed .channelIo { s with
      W := { s.W with st := .failed }
      outp := { s.outp with flushes := s.outp.flushes + 1 } }))

/-- 41_bit_cursor.md R111: CLOSEW issues one close unless the side is CLOSED already, and leaves it CLOSED whatever the channel
answers. -/
def Obligations.ClosewClosesOnce : Prop :=
  ∀ s : State,
    (s.W.st = .closed → exec .closew s = .next (completedWith 0 false s)) ∧
    (s.W.st ≠ .closed → s.outp.closeFail = false → exec .closew s = .next (completedWith 0 false { s with
      W := { s.W with st := .closed }
      outp := { s.outp with closes := s.outp.closes + 1 } })) ∧
    (s.W.st ≠ .closed → s.outp.closeFail = true → exec .closew s = .next (ioFailed .channelIo { s with
      W := { s.W with st := .closed }
      outp := { s.outp with closes := s.outp.closes + 1 } }))

/-- 41_bit_cursor.md R112: CLOSER issues one close unless the side is CLOSED already, and leaves it CLOSED whatever the channel
answers. -/
def Obligations.CloserClosesOnce : Prop :=
  ∀ s : State,
    (s.R.st = .closed → exec .closer s = .next (completedWith 0 false s)) ∧
    (s.R.st ≠ .closed → s.inp.closeFail = false → exec .closer s = .next (completedWith 0 false { s with
      R := { s.R with st := .closed }
      inp := { s.inp with closes := s.inp.closes + 1 } })) ∧
    (s.R.st ≠ .closed → s.inp.closeFail = true → exec .closer s = .next (ioFailed .channelIo { s with
      R := { s.R with st := .closed }
      inp := { s.inp with closes := s.inp.closes + 1 } }))

/-- Derived from 41_bit_cursor.md section 4 (an inference the spec marks as its own): where a writer and a reader stand at the
same position with the same alignment point, an ALIGNW and an ALIGNR of the same DIN that both end OK return the same count and
leave them so. -/
def Obligations.AlignResultsAgree : Prop :=
  ∀ s t r u : State, s.W.pos = r.R.pos → s.W.base = r.R.base → s.port.din = r.port.din →
    exec .alignw s = .next t → exec .alignr r = .next u → statusIs .ok t → statusIs .ok u →
    t.result = u.result ∧ t.W.pos = u.R.pos ∧ t.W.base = u.R.base

/-- Derived from 41_bit_cursor.md section 4 (an inference the spec marks as its own): a write and its read that both end OK move
their positions by the same number of bits and leave both alignment points. -/
def Obligations.MatchingCommandsMoveEquallyManyBits : Prop :=
  ∀ (i j : Instr) (s t r u : State) (v : Data) (z : Bool), counterpart i = some j → s.port.din = r.port.din →
    exec i s = .next t → EndedOk 0 false s t → exec j r = .next u → EndedOk v z r u → z = writesNull i s →
    t.W.pos + r.R.pos = u.R.pos + s.W.pos ∧ t.W.base = s.W.base ∧ u.R.base = r.R.base

/-! ### Integer codec -/

/-- The rule of one sized integer write (42_integer_codec.md R130, R131, R132). -/
def SizedIntegerWrite (N : Nat) (u : Bool) (sz : Nat) (i : Instr) (s : State) : Prop :=
  GuardedW i s ∧
    (s.W.st = .opened → ¬ LegalIntSize N u sz → exec i s = .next (preconditionFailed .invalidSize s)) ∧
    (s.W.st = .opened → LegalIntSize N u sz → ¬ IntCodomain u sz (dinInt N s) →
      exec i s = .next (modelFault .undefinedInput s)) ∧
    (WriterReady s → LegalIntSize N u sz → IntCodomain u sz (dinInt N s) → Writes i (dinInt N s % 2 ^ sz).toNat sz s)

/-- The rule of one sized integer read (42_integer_codec.md R130, R132). -/
def SizedIntegerRead (N : Nat) (u : Bool) (sz : Nat) (i : Instr) (s : State) : Prop :=
  GuardedR i s ∧
    (ReaderReady s → ¬ LegalIntSize N u sz → exec i s = .next (preconditionFailed .invalidSize s)) ∧
    (ReaderReady s → LegalIntSize N u sz → Reads i 0 sz (extended N u sz) s)

/-- 42_integer_codec.md R133, R135, R139, R141: WRINT, WRLONG, WRBYTE, WRSHORT. -/
def Obligations.SizedIntegerWritesFollowTheirRules : Prop :=
  ∀ (u : Bool) (sz : Nat) (s : State),
    SizedIntegerWrite 32 u sz (.wrint u sz) s ∧ SizedIntegerWrite 64 u sz (.wrlong u sz) s ∧
      SizedIntegerWrite 8 u sz (.wrbyte u sz) s ∧ SizedIntegerWrite 16 u sz (.wrshort u sz) s

/-- 42_integer_codec.md R134, R136, R140, R142: RDINT, RDLONG, RDBYTE, RDSHORT. -/
def Obligations.SizedIntegerReadsFollowTheirRules : Prop :=
  ∀ (u : Bool) (sz : Nat) (s : State),
    SizedIntegerRead 32 u sz (.rdint u sz) s ∧ SizedIntegerRead 64 u sz (.rdlong u sz) s ∧
      SizedIntegerRead 8 u sz (.rdbyte u sz) s ∧ SizedIntegerRead 16 u sz (.rdshort u sz) s

/-- 42_integer_codec.md R143, R144: WRCHAR, RDCHAR. -/
def Obligations.CharCommandsFollowTheirRules : Prop :=
  ∀ (sz : Nat) (s : State),
    (GuardedW (.wrchar sz) s ∧
      (s.W.st = .opened → sz < 1 ∨ 16 < sz → exec (.wrchar sz) s = .next (preconditionFailed .invalidSize s)) ∧
      (s.W.st = .opened → 1 ≤ sz → sz ≤ 16 → 2 ^ sz ≤ s.port.din.toNat % 2 ^ 16 →
        exec (.wrchar sz) s = .next (modelFault .undefinedInput s)) ∧
      (WriterReady s → 1 ≤ sz → sz ≤ 16 → s.port.din.toNat % 2 ^ 16 < 2 ^ sz →
        Writes (.wrchar sz) (s.port.din.toNat % 2 ^ 16) sz s)) ∧
    (GuardedR (.rdchar sz) s ∧
      (ReaderReady s → sz < 1 ∨ 16 < sz → exec (.rdchar sz) s = .next (preconditionFailed .invalidSize s)) ∧
      (ReaderReady s → 1 ≤ sz → sz ≤ 16 → Reads (.rdchar sz) 0 sz (BitVec.ofNat 64) s))

/-- The rule of a write of the low N bits of DIN as they stand (42_integer_codec.md section 5). -/
def WholeWrite (N : Nat) (i : Instr) (s : State) : Prop :=
  GuardedW i s ∧ (WriterReady s → Writes i s.port.din.toNat N s)

/-- The rule of a read of N bits as they stand (42_integer_codec.md section 5). -/
def WholeRead (N : Nat) (i : Instr) (s : State) : Prop :=
  GuardedR i s ∧ (ReaderReady s → Reads i 0 N (BitVec.ofNat 64) s)

/-- 42_integer_codec.md R137, R138, R145 to R154: WRBOOL, RDBOOL and the full-width shortcuts. -/
def Obligations.WholeValueCommandsFollowTheirRules : Prop :=
  ∀ s : State,
    WholeWrite 1 .wrbool s ∧ WholeRead 1 .rdbool s ∧ WholeWrite 8 .wrbyte8 s ∧ WholeRead 8 .rdbyte8 s ∧
      WholeWrite 16 .wrshort16 s ∧ WholeRead 16 .rdshort16 s ∧ WholeWrite 32 .wrint32 s ∧ WholeRead 32 .rdint32 s ∧
      WholeWrite 64 .wrlong64 s ∧ WholeRead 64 .rdlong64 s ∧ WholeWrite 16 .wrchar16 s ∧ WholeRead 16 .rdchar16 s

/-- The write w of the low N bits of DIN, where it ends OK from s to s', is read back by the command r in any reader that stands
at the same stream position (42_integer_codec.md R156). -/
def ReadBackBy (N t : Nat) (w r : Instr) (s s' q : State) : Prop :=
  exec w s = .next s' → EndedOk 0 false s s' → ReadsBack t s s' q →
    ∃ q', exec r q = .next q' ∧ EndedOk ((s.port.din.setWidth N).setWidth 64) false q q'

/-- Derived from 42_integer_codec.md section 6 (an inference the spec marks as its own): what an integer write that ends OK put on
the stream, the matching read gives back: for every type, signedness, size and value. -/
def Obligations.IntegersReadBack : Prop :=
  ∀ (u : Bool) (sz : Nat) (s s' q : State), WriterReady s → ReaderReady q →
    (Supplies q sz →
      ReadBackBy 32 sz (.wrint u sz) (.rdint u sz) s s' q ∧ ReadBackBy 64 sz (.wrlong u sz) (.rdlong u sz) s s' q ∧
        ReadBackBy 8 sz (.wrbyte u sz) (.rdbyte u sz) s s' q ∧ ReadBackBy 16 sz (.wrshort u sz) (.rdshort u sz) s s' q ∧
        ReadBackBy 16 sz (.wrchar sz) (.rdchar sz) s s' q) ∧
    (Supplies q 1 → ReadBackBy 1 1 .wrbool .rdbool s s' q) ∧
    (Supplies q 8 → ReadBackBy 8 8 .wrbyte8 .rdbyte8 s s' q) ∧
    (Supplies q 16 → ReadBackBy 16 16 .wrshort16 .rdshort16 s s' q ∧ ReadBackBy 16 16 .wrchar16 .rdchar16 s s' q) ∧
    (Supplies q 32 → ReadBackBy 32 32 .wrint32 .rdint32 s s' q) ∧
    (Supplies q 64 → ReadBackBy 64 64 .wrlong64 .rdlong64 s s' q)

/-! ### General float codec -/

/-- The legal sizes of the general float codec (43_float_codec.md R171). -/
abbrev LegalFloatSize (fmt : Fmt) (ex sz : Nat) : Prop :=
  fmt.expMin ≤ ex ∧ ex ≤ fmt.expBits ∧ fmt.sigMin ≤ sz ∧ sz ≤ fmt.sigBits

/-- 43_float_codec.md R172: the stored fields of each category of native pattern, written from its sign, exponent field and
significand field. -/
def Obligations.StoredFieldsOfEachCategory : Prop :=
  ∀ (fmt : Fmt) (e sz sg ef mf : Nat), 1 ≤ e → e ≤ fmt.expBits → 1 ≤ sz → sz ≤ fmt.sigBits →
    sg < 2 → ef < 2 ^ fmt.expBits → mf < 2 ^ fmt.sigBits →
    fEncFields fmt e sz (sg * 2 ^ (fmt.expBits + fmt.sigBits) + ef * 2 ^ fmt.sigBits + mf) =
      (let t := mf / 2 ^ (fmt.sigBits - sz)
       let be := 2 ^ (e - 1) - 1
       if ef = 2 ^ fmt.expBits - 1 then
         (if mf = 0 then some ⟨sg, 2 ^ e - 1, 0⟩ else some ⟨sg, 2 ^ e - 1, if t = 0 then 1 else t⟩)
       else if ef = 0 then some ⟨sg, 0, t⟩
       else if fmt.bias + 1 ≤ ef + be ∧ ef ≤ fmt.bias + be then some ⟨sg, ef + be - fmt.bias, t⟩
       else none)

/-- Derived from 43_float_codec.md section 1: the native pattern rebuilt from stored fields has the stored sign, the stored
significand left-aligned over zeros, and exponent field 0 for 0, all ones for all ones and the re-biased field, which is
neither, for any other. -/
def Obligations.RebuiltPatternOfStoredFields : Prop :=
  ∀ (fmt : Fmt) (e sz sg fe t : Nat), 1 ≤ e → e ≤ fmt.expBits → 1 ≤ sz → sz ≤ fmt.sigBits →
    sg < 2 → fe < 2 ^ e → t < 2 ^ sz →
    signOf fmt (fDecFields fmt e sz ⟨sg, fe, t⟩) = sg ∧
      sigOf fmt (fDecFields fmt e sz ⟨sg, fe, t⟩) = t * 2 ^ (fmt.sigBits - sz) ∧
      (fe = 0 → expOf fmt (fDecFields fmt e sz ⟨sg, fe, t⟩) = 0) ∧
      (fe = 2 ^ e - 1 → expOf fmt (fDecFields fmt e sz ⟨sg, fe, t⟩) = 2 ^ fmt.expBits - 1) ∧
      (fe ≠ 0 → fe ≠ 2 ^ e - 1 →
        expOf fmt (fDecFields fmt e sz ⟨sg, fe, t⟩) + (2 ^ (e - 1) - 1) = fe + fmt.bias ∧
        1 ≤ expOf fmt (fDecFields fmt e sz ⟨sg, fe, t⟩) ∧
        expOf fmt (fDecFields fmt e sz ⟨sg, fe, t⟩) ≤ 2 ^ fmt.expBits - 2)

/-- Derived from 43_float_codec.md section 4 (an inference the spec marks as its own): rebuilding from the stored fields keeps the
sign, the exponent field and the high significand bits, except that a NaN whose high bits are zero gets its lowest kept bit; and
keeps the whole pattern at full width. -/
def Obligations.FloatFieldsRebuildTheValue : Prop :=
  ∀ (fmt : Fmt) (e sz x : Nat) (f : Stored), 1 ≤ e → e ≤ fmt.expBits → 1 ≤ sz → sz ≤ fmt.sigBits → x < 2 ^ fmt.width →
    fEncFields fmt e sz x = some f →
    signOf fmt (fDecFields fmt e sz f) = signOf fmt x ∧ expOf fmt (fDecFields fmt e sz f) = expOf fmt x ∧
      sigOf fmt (fDecFields fmt e sz f) =
        (if categoryOf fmt x = .nan ∧ highSig fmt sz x = 0 then 1 else highSig fmt sz x) * 2 ^ (fmt.sigBits - sz) ∧
      (e = fmt.expBits → sz = fmt.sigBits → fDecFields fmt e sz f = x)

/-- The rule of one general float write (43_float_codec.md R171, R172, R179). -/
def GeneralFloatWrite (fmt : Fmt) (nl : Bool) (sz ex : Nat) (i : Instr) (s : State) : Prop :=
  GuardedW i s ∧
    (s.W.st = .opened → ¬ LegalFloatSize fmt ex sz → exec i s = .next (preconditionFailed .invalidSize s)) ∧
    (WriterReady s → LegalFloatSize fmt ex sz →
      NullableWrites i nl ((fEncFields fmt ex sz (s.port.din.toNat % 2 ^ fmt.width)).map (storedNumber ex sz)) (1 + ex + sz) s)

/-- The rule of one general float read (43_float_codec.md R171, R173, R180). -/
def GeneralFloatRead (fmt : Fmt) (nl : Bool) (sz ex : Nat) (i : Instr) (s : State) : Prop :=
  GuardedR i s ∧
    (ReaderReady s → ¬ LegalFloatSize fmt ex sz → exec i s = .next (preconditionFailed .invalidSize s)) ∧
    (ReaderReady s → LegalFloatSize fmt ex sz →
      NullableReads i nl (1 + ex + sz) (fun p => BitVec.ofNat 64 (fDecFields fmt ex sz (storedFields ex sz p))) s)

/-- 43_float_codec.md R174, R176: WRFLOAT, WRDOUBLE, plain and nullable. The legal sizes depend on the build parameters that
92_eei_decisions.md D17 leaves open; whether a value can be out of range at a legal size depends on them too. -/
def Obligations.GeneralFloatWritesFollowTheirRules : Prop :=
  ∀ (nl : Bool) (sz ex : Nat) (s : State),
    GeneralFloatWrite .F nl sz ex (.wrfloat nl sz ex) s ∧ GeneralFloatWrite .D nl sz ex (.wrdouble nl sz ex) s

/-- 43_float_codec.md R175, R177: RDFLOAT, RDDOUBLE, plain and nullable. -/
def Obligations.GeneralFloatReadsFollowTheirRules : Prop :=
  ∀ (nl : Bool) (sz ex : Nat) (s : State),
    GeneralFloatRead .F nl sz ex (.rdfloat nl sz ex) s ∧ GeneralFloatRead .D nl sz ex (.rddouble nl sz ex) s

/-- Derived from 43_float_codec.md section 4 (an inference the spec marks as its own): a float or a double written at full width
is read back bit for bit, whatever its category and payload; a null is read back as a null, from one bit. -/
def Obligations.FullWidthFloatsReadBack : Prop :=
  ∀ (nl : Bool) (s s' q : State), WriterReady s → ReaderReady q →
    ((nl = false ∨ s.port.present = true) →
      (Supplies q (32 + nl.toNat) → ReadBackBy 32 (32 + nl.toNat) (.wrfloat nl 23 8) (.rdfloat nl 23 8) s s' q) ∧
      (Supplies q (64 + nl.toNat) → ReadBackBy 64 (64 + nl.toNat) (.wrdouble nl 52 11) (.rddouble nl 52 11) s s' q)) ∧
    (nl = true → s.port.present = false → Supplies q 1 → ReadsBack 1 s s' q →
      (exec (.wrfloat nl 23 8) s = .next s' → EndedOk 0 false s s' →
        ∃ q', exec (.rdfloat nl 23 8) q = .next q' ∧ EndedOk 0 true q q') ∧
      (exec (.wrdouble nl 52 11) s = .next s' → EndedOk 0 false s s' →
        ∃ q', exec (.rddouble nl 52 11) q = .next q' ∧ EndedOk 0 true q q'))

/-! ### Float categories -/

/-- 45_float_detectors.md R220: the category of a native pattern by the number its bits below the sign make; the sign does not
affect it, and every pattern has exactly one. -/
def Obligations.CategoryFollowsTheMagnitude : Prop :=
  ∀ (fmt : Fmt) (sg m : Nat), sg < 2 → m < 2 ^ (fmt.width - 1) →
    categoryOf fmt (sg * 2 ^ (fmt.width - 1) + m) =
      (if m = 0 then .zero
       else if m < smallestNormalOf fmt then .subnormal
       else if m < infinityOf fmt then .normal
       else if m = infinityOf fmt then .infinity
       else .nan)

/-- 45_float_detectors.md R221 to R228 (but for the name that a corner case of R224 gives a pattern, log 15): every detector
answers from DIN alone, in every state, and changes S.last and the result port alone. -/
def Obligations.DetectorsAnswerFromDinAlone : Prop :=
  ∀ s : State,
    let f := magnitudeOnDin .F s
    let d := magnitudeOnDin .D s
    exec .iszerof s = .next (completedWith (if f = 0 then 1 else 0) false s) ∧
    exec .iszerod s = .next (completedWith (if d = 0 then 1 else 0) false s) ∧
    exec .isinff s = .next (completedWith (if f = 0x7F800000 then 1 else 0) false s) ∧
    exec .isinfd s = .next (completedWith (if d = 0x7FF0000000000000 then 1 else 0) false s) ∧
    exec .isnanf s = .next (completedWith (if 0x7F800000 < f then 1 else 0) false s) ∧
    exec .isnand s = .next (completedWith (if 0x7FF0000000000000 < d then 1 else 0) false s) ∧
    exec .classf s = .next (completedWith
      (if f = 0 then 0 else if f < 0x00800000 then 1 else if f < 0x7F800000 then 2 else if f = 0x7F800000 then 3 else 4) false s) ∧
    exec .classd s = .next (completedWith
      (if d = 0 then 0 else if d < 0x0010000000000000 then 1 else if d < 0x7FF0000000000000 then 2
       else if d = 0x7FF0000000000000 then 3 else 4) false s)

/-! ### Category-compressed codecs -/

/-- The rule of a write that stores the sign alone, of the values whose magnitude is m (44_float_compressed.md R190). -/
def SignWrite (fmt : Fmt) (m : Nat) (nl : Bool) (i : Instr) (s : State) : Prop :=
  GuardedW i s ∧
    (WriterReady s → NullableWrites i nl (if magnitudeOnDin fmt s = m then some (signOnDin fmt s) else none) 1 s)

/-- The rule of a read that rebuilds a value of magnitude m from its sign. -/
def SignRead (fmt : Fmt) (m : Nat) (nl : Bool) (i : Instr) (s : State) : Prop :=
  GuardedR i s ∧
    (ReaderReady s → NullableReads i nl 1 (fun p => BitVec.ofNat 64 (p * 2 ^ (fmt.width - 1) + m)) s)

/-- 44_float_compressed.md R191 to R194: WRZEROF, RDZEROF, WRZEROD, RDZEROD. -/
def Obligations.ZeroCodecsFollowTheirRules : Prop :=
  ∀ (nl : Bool) (s : State),
    SignWrite .F 0 nl (.wrzerof nl) s ∧ SignRead .F 0 nl (.rdzerof nl) s ∧
      SignWrite .D 0 nl (.wrzerod nl) s ∧ SignRead .D 0 nl (.rdzerod nl) s

/-- 44_float_compressed.md R195 to R198: WRINFF, RDINFF, WRINFD, RDINFD. -/
def Obligations.InfinityCodecsFollowTheirRules : Prop :=
  ∀ (nl : Bool) (s : State),
    SignWrite .F 0x7F800000 nl (.wrinff nl) s ∧ SignRead .F 0x7F800000 nl (.rdinff nl) s ∧
      SignWrite .D 0x7FF0000000000000 nl (.wrinfd nl) s ∧ SignRead .D 0x7FF0000000000000 nl (.rdinfd nl) s

/-- The rule of a write of the sign (unless `so`) and w significand bits of a value that is in the codec's category
(44_float_compressed.md R190, R199, R203). -/
def SignificandWrite (fmt : Fmt) (inCategory : Prop) [Decidable inCategory] (force so nl : Bool) (w : Nat) (i : Instr)
    (s : State) : Prop :=
  GuardedW i s ∧
    (s.W.st = .opened → w < 1 ∨ fmt.sigBits < w → exec i s = .next (preconditionFailed .invalidSize s)) ∧
    (WriterReady s → 1 ≤ w → w ≤ fmt.sigBits →
      let t := s.port.din.toNat % 2 ^ fmt.sigBits / 2 ^ (fmt.sigBits - w)
      let t' := if force = true ∧ t = 0 then 1 else t
      NullableWrites i nl
        (if inCategory then some (if so then t' else signOnDin fmt s * 2 ^ w + t') else none)
        (if so then w else 1 + w) s)

/-- The rule of a read of the sign (unless `so`) and w significand bits under an implied exponent field (44_float_compressed.md
R200, R204). -/
def SignificandRead (fmt : Fmt) (implied : Nat) (so nl : Bool) (w : Nat) (i : Instr) (s : State) : Prop :=
  GuardedR i s ∧
    (ReaderReady s → w < 1 ∨ fmt.sigBits < w → exec i s = .next (preconditionFailed .invalidSize s)) ∧
    (ReaderReady s → 1 ≤ w → w ≤ fmt.sigBits →
      NullableReads i nl (if so then w else 1 + w)
        (fun p => BitVec.ofNat 64
          ((if so then 0 else p / 2 ^ w) * 2 ^ (fmt.width - 1) + implied + p % 2 ^ w * 2 ^ (fmt.sigBits - w))) s)

/-- 44_float_compressed.md R199 to R202: WRSUBF, RDSUBF, WRSUBD, RDSUBD. -/
def Obligations.SubnormalCodecsFollowTheirRules : Prop :=
  ∀ (nl : Bool) (w : Nat) (s : State),
    SignificandWrite .F (0 < magnitudeOnDin .F s ∧ magnitudeOnDin .F s < 0x00800000) false false nl w (.wrsubf nl w) s ∧
    SignificandRead .F 0 false nl w (.rdsubf nl w) s ∧
    SignificandWrite .D (0 < magnitudeOnDin .D s ∧ magnitudeOnDin .D s < 0x0010000000000000) false false nl w
      (.wrsubd nl w) s ∧
    SignificandRead .D 0 false nl w (.rdsubd nl w) s

/-- 44_float_compressed.md R203 to R206: WRNANF, RDNANF, WRNAND, RDNAND. -/
def Obligations.NanCodecsFollowTheirRules : Prop :=
  ∀ (nl so : Bool) (w : Nat) (s : State),
    SignificandWrite .F (0x7F800000 < magnitudeOnDin .F s) true so nl w (.wrnanf nl so w) s ∧
    SignificandRead .F 0x7F800000 so nl w (.rdnanf nl so w) s ∧
    SignificandWrite .D (0x7FF0000000000000 < magnitudeOnDin .D s) true so nl w (.wrnand nl so w) s ∧
    SignificandRead .D 0x7FF0000000000000 so nl w (.rdnand nl so w) s

/-- The write w, where it ends OK, is read back by r as an answer that `p` holds of. -/
def ReadBackAs (t : Nat) (w r : Instr) (p : Data → Prop) (s s' q : State) : Prop :=
  exec w s = .next s' → EndedOk 0 false s s' → ReadsBack t s s' q →
    ∃ q' v, exec r q = .next q' ∧ EndedOk v false q q' ∧ p v

/-- A null that the write w wrote is read back by r as a null. -/
def NullReadBack (w r : Instr) (s s' q : State) : Prop :=
  exec w s = .next s' → EndedOk 0 false s s' → ReadsBack 1 s s' q → ∃ q', exec r q = .next q' ∧ EndedOk 0 true q q'

/-- The answer v is the Subnormal on DIN bit for bit exactly when the bits that w significand bits leave out are 0. -/
def SubnormalKept (fmt : Fmt) (w : Nat) (s : State) (v : Data) : Prop :=
  v = (s.port.din.setWidth fmt.width).setWidth 64 ↔ s.port.din.toNat % 2 ^ (fmt.sigBits - w) = 0

/-- The answer v is a NaN with the sign of the one on DIN, or with sign 0 where `so` left the sign out; it is that NaN bit for bit
where nothing was left out. -/
def NanKept (fmt : Fmt) (so : Bool) (w : Nat) (s : State) (v : Data) : Prop :=
  categoryOf fmt v.toNat = .nan ∧ signOf fmt v.toNat = (if so then 0 else signOnDin fmt s) ∧
    (so = false → w = fmt.sigBits → v = (s.port.din.setWidth fmt.width).setWidth 64)

/-- Derived from 44_float_compressed.md section 6 (an inference the spec marks as its own): the zeros and the infinities come back
bit for bit, a Subnormal comes back bit for bit exactly when the bits that were left out are 0, and a NaN comes back as a NaN with
its sign, or with sign 0 where the sign was left out, and bit for bit with every significand bit and the sign stored. Plain and
nullable forms; a null comes back as a null. -/
def Obligations.CompressedValuesReadBack : Prop :=
  ∀ (nl so : Bool) (w : Nat) (s s' q : State), WriterReady s → ReaderReady q →
    ((nl = false ∨ s.port.present = true) →
      (Supplies q (1 + nl.toNat) →
        ReadBackBy 32 (1 + nl.toNat) (.wrzerof nl) (.rdzerof nl) s s' q ∧
        ReadBackBy 64 (1 + nl.toNat) (.wrzerod nl) (.rdzerod nl) s s' q ∧
        ReadBackBy 32 (1 + nl.toNat) (.wrinff nl) (.rdinff nl) s s' q ∧
        ReadBackBy 64 (1 + nl.toNat) (.wrinfd nl) (.rdinfd nl) s s' q) ∧
      (Supplies q (1 + w + nl.toNat) →
        ReadBackAs (1 + w + nl.toNat) (.wrsubf nl w) (.rdsubf nl w) (SubnormalKept .F w s) s s' q ∧
        ReadBackAs (1 + w + nl.toNat) (.wrsubd nl w) (.rdsubd nl w) (SubnormalKept .D w s) s s' q) ∧
      (Supplies q ((if so then w else 1 + w) + nl.toNat) →
        ReadBackAs ((if so then w else 1 + w) + nl.toNat) (.wrnanf nl so w) (.rdnanf nl so w) (NanKept .F so w s) s s' q ∧
        ReadBackAs ((if so then w else 1 + w) + nl.toNat) (.wrnand nl so w) (.rdnand nl so w) (NanKept .D so w s) s s' q)) ∧
    (s.port.present = false → Supplies q 1 →
      NullReadBack (.wrzerof true) (.rdzerof true) s s' q ∧ NullReadBack (.wrzerod true) (.rdzerod true) s s' q ∧
      NullReadBack (.wrinff true) (.rdinff true) s s' q ∧ NullReadBack (.wrinfd true) (.rdinfd true) s s' q ∧
      NullReadBack (.wrsubf true w) (.rdsubf true w) s s' q ∧ NullReadBack (.wrsubd true w) (.rdsubd true w) s s' q ∧
      NullReadBack (.wrnanf true so w) (.rdnanf true so w) s s' q ∧ NullReadBack (.wrnand true so w) (.rdnand true so w) s s' q)

/-! ### Variable-length quantities -/

/-- The rule of a VLQ write of an N-bit signed operand (46_vlq.md R241, R243). -/
def VlqWrite (N : Nat) (i : Instr) (s : State) : Prop :=
  GuardedW i s ∧
    (s.W.st = .opened → dinInt N s < 0 → exec i s = .next (modelFault .undefinedInput s)) ∧
    (WriterReady s → ∀ v : Nat, dinInt N s = v → Writes i (vlqWire v) (8 * vlqLen v) s)

/-- 46_vlq.md R243, R245: WRVLQI, WRVLQL write the units of R240. -/
def Obligations.VlqWritesFollowTheirRules : Prop := ∀ s : State, VlqWrite 32 .wrvlqi s ∧ VlqWrite 64 .wrvlql s

/-- 46_vlq.md R242, R244, R246: RDVLQI, RDVLQL. -/
def Obligations.VlqReadsFollowTheirRules : Prop :=
  ∀ s : State, GuardedR .rdvlqi s ∧ GuardedR .rdvlql s ∧
    (ReaderReady s → ReadsVlq .rdvlqi 31 5 s ∧ ReadsVlq .rdvlql 63 9 s)

/-- From s to t, k units of v have been put on the output stream for the least k >= 1 whose groups hold v, which is at most G: each
unit the continuation bit, 0 in the last unit alone, over its group; the groups sum to v (46_vlq.md R240, R241). -/
def FewestUnits (v G : Nat) (s t : State) : Prop :=
  ∃ k, 1 ≤ k ∧ k ≤ G ∧ v < 128 ^ k ∧ (∀ j, 1 ≤ j → v < 128 ^ j → k ≤ j) ∧ t.W.pos = s.W.pos + 8 * k ∧
    (∀ i, i < k → outBit t (outLen s + 8 * i) = decide (i + 1 < k) ∧
      outNumber t (outLen s + 8 * i + 1) 7 = v / 128 ^ i % 128) ∧
    ∑ i ∈ Finset.range k, outNumber t (outLen s + 8 * i + 1) 7 * 2 ^ (7 * i) = v

/-- Derived from 46_vlq.md sections 1 and 3 (partly an inference the spec marks as its own): a WRVLQI or a WRVLQL that ends OK writes
the fewest 7-bit groups that hold its value, at most 5 for an int and 9 for a long, and moves the position by 8 bits for each. -/
def Obligations.VlqLengthIsTheFewestGroups : Prop :=
  ∀ s t : State, WriterReady s → EndedOk 0 false s t →
    (∀ v : Nat, dinInt 32 s = v → exec .wrvlqi s = .next t → FewestUnits v 5 s t) ∧
      (∀ v : Nat, dinInt 64 s = v → exec .wrvlql s = .next t → FewestUnits v 9 s t)

/-- Derived from 46_vlq.md sections 2 and 3 (an inference the spec marks as its own): what a VLQ write that ends OK put on the
stream, the matching VLQ read gives back; a stream written by WRVLQI is read by RDVLQL too. -/
def Obligations.VlqReadsBack : Prop :=
  ∀ (s s' q : State), WriterReady s → ReaderReady q →
    (∀ v : Nat, dinInt 32 s = v → Supplies q (8 * vlqLen v) →
      ReadBackBy 32 (8 * vlqLen v) .wrvlqi .rdvlqi s s' q ∧ ReadBackBy 32 (8 * vlqLen v) .wrvlqi .rdvlql s s' q) ∧
    (∀ v : Nat, dinInt 64 s = v → Supplies q (8 * vlqLen v) → ReadBackBy 64 (8 * vlqLen v) .wrvlql .rdvlql s s' q)
end

