-- ==== Sys2Proof/Laws/Memory.lean ====
section
/-! SUPPORT. Reading after writing in a channel's contents, and the canonical form. -/

namespace Sys2Proof.Machine

@[simp] theorem Memory.read_write_same (m : Memory) (a : Nat) (b : Byte) : Memory.read (Memory.write m a b) a = some b := by
  induction m with
  | nil => simp [Memory.write, Memory.read]
  | cons e m ih =>
    obtain ⟨i, c⟩ := e
    simp only [Memory.write]
    split
    · simp [Memory.read]
    · split
      · simp [Memory.read]
      · simp [Memory.read, *]

theorem Memory.read_write_other (m : Memory) {a a' : Nat} (b : Byte) (h : a' ≠ a) :
    Memory.read (Memory.write m a b) a' = Memory.read m a' := by
  induction m with
  | nil => simp [Memory.write, Memory.read, h]
  | cons e m ih =>
    obtain ⟨i, c⟩ := e
    simp only [Memory.write]
    split
    · simp [Memory.read, h]
    · split
      · subst i; simp [Memory.read, h]
      · simp [Memory.read, ih]

/-- The canonical form says that the indices rise strictly. -/
theorem Memory.wf_iff (m : Memory) : Memory.wf m = true ↔ (m.map Prod.fst).Pairwise (· < ·) := by
  induction m with
  | nil => simp [Memory.wf]
  | cons e m ih =>
    obtain ⟨i, c⟩ := e
    cases m with
    | nil => simp [Memory.wf]
    | cons f m =>
      obtain ⟨j, d⟩ := f
      simp only [Memory.wf, Bool.and_eq_true, decide_eq_true_eq, ih, List.map_cons, List.pairwise_cons]
      constructor
      · rintro ⟨h, h2⟩
        refine ⟨?_, h2⟩
        intro x hx
        rcases List.mem_cons.1 hx with rfl | hx
        · exact h
        · exact Nat.lt_trans h (h2.1 x hx)
      · rintro ⟨h, h2⟩
        exact ⟨h j (List.mem_cons_self ..), h2⟩

/-- A write lists the index it writes and no other new one. -/
theorem Memory.mem_write (m : Memory) (a : Nat) (b : Byte) (x : Nat) :
    x ∈ (Memory.write m a b).map Prod.fst → x = a ∨ x ∈ m.map Prod.fst := by
  induction m with
  | nil => simp [Memory.write]
  | cons e m ih =>
    obtain ⟨i, c⟩ := e
    simp only [Memory.write]
    split
    · simp
    · split
      · simp_all
      · simp only [List.map_cons, List.mem_cons]
        rintro (h | h)
        · exact .inr (.inl h)
        · rcases ih h with h | h
          · exact .inl h
          · exact .inr (.inr h)

/-- A write keeps the canonical form. -/
theorem Memory.write_wf (m : Memory) (a : Nat) (b : Byte) (h : Memory.wf m = true) : Memory.wf (Memory.write m a b) = true := by
  rw [Memory.wf_iff] at h ⊢
  induction m with
  | nil => simp [Memory.write]
  | cons e m ih =>
    obtain ⟨i, c⟩ := e
    simp only [List.map_cons, List.pairwise_cons] at h
    simp only [Memory.write]
    split
    · next hlt =>
      simp only [List.map_cons, List.pairwise_cons, List.mem_cons]
      refine ⟨?_, h⟩
      rintro x (rfl | hx)
      · exact hlt
      · exact Nat.lt_trans hlt (h.1 x hx)
    · split
      · subst i; simpa using h
      · next h1 h2 =>
        simp only [List.map_cons, List.pairwise_cons]
        refine ⟨?_, ih h.2⟩
        intro x hx
        rcases Memory.mem_write m a b x hx with rfl | hx
        · omega
        · exact h.1 x hx

/-- A write past every listed index lists it last. -/
theorem Memory.write_append (m : Memory) (a : Nat) (b : Byte) (h : ∀ x ∈ m.map Prod.fst, x < a) :
    Memory.write m a b = m ++ [(a, b)] := by
  induction m with
  | nil => rfl
  | cons e m ih =>
    obtain ⟨i, c⟩ := e
    have hi := h i (by simp)
    simp only [Memory.write]
    rw [if_neg (by omega), if_neg (by omega), ih (fun x hx => h x (by simp_all))]
    rfl

theorem Memory.reset_wf : Memory.wf State.reset.outp.bytes = true ∧ Memory.wf State.reset.inp.bytes = true := ⟨rfl, rfl⟩

end Sys2Proof.Machine
end

