-- ==== Sys2Proof/Laws/State.lean ====
section
/-! SUPPORT. What each update of a field leaves in each field. -/

namespace Sys2Proof.Machine

@[simp] theorem State.setW_W (s : State) (w : Writer) : (s.setW w).W = w := rfl
@[simp] theorem State.setW_R (s : State) (w : Writer) : (s.setW w).R = s.R := rfl
@[simp] theorem State.setW_S (s : State) (w : Writer) : (s.setW w).S = s.S := rfl
@[simp] theorem State.setW_port (s : State) (w : Writer) : (s.setW w).port = s.port := rfl
@[simp] theorem State.setW_result (s : State) (w : Writer) : (s.setW w).result = s.result := rfl
@[simp] theorem State.setW_inp (s : State) (w : Writer) : (s.setW w).inp = s.inp := rfl
@[simp] theorem State.setW_outp (s : State) (w : Writer) : (s.setW w).outp = s.outp := rfl
@[simp] theorem State.setW_queue (s : State) (w : Writer) : (s.setW w).queue = s.queue := rfl

@[simp] theorem State.setR_W (s : State) (r : Reader) : (s.setR r).W = s.W := rfl
@[simp] theorem State.setR_R (s : State) (r : Reader) : (s.setR r).R = r := rfl
@[simp] theorem State.setR_S (s : State) (r : Reader) : (s.setR r).S = s.S := rfl
@[simp] theorem State.setR_port (s : State) (r : Reader) : (s.setR r).port = s.port := rfl
@[simp] theorem State.setR_result (s : State) (r : Reader) : (s.setR r).result = s.result := rfl
@[simp] theorem State.setR_inp (s : State) (r : Reader) : (s.setR r).inp = s.inp := rfl
@[simp] theorem State.setR_outp (s : State) (r : Reader) : (s.setR r).outp = s.outp := rfl
@[simp] theorem State.setR_queue (s : State) (r : Reader) : (s.setR r).queue = s.queue := rfl

@[simp] theorem State.setS_W (s : State) (b : BlockStatus) : (s.setS b).W = s.W := rfl
@[simp] theorem State.setS_R (s : State) (b : BlockStatus) : (s.setS b).R = s.R := rfl
@[simp] theorem State.setS_S (s : State) (b : BlockStatus) : (s.setS b).S = b := rfl
@[simp] theorem State.setS_port (s : State) (b : BlockStatus) : (s.setS b).port = s.port := rfl
@[simp] theorem State.setS_result (s : State) (b : BlockStatus) : (s.setS b).result = s.result := rfl
@[simp] theorem State.setS_inp (s : State) (b : BlockStatus) : (s.setS b).inp = s.inp := rfl
@[simp] theorem State.setS_outp (s : State) (b : BlockStatus) : (s.setS b).outp = s.outp := rfl
@[simp] theorem State.setS_queue (s : State) (b : BlockStatus) : (s.setS b).queue = s.queue := rfl

@[simp] theorem State.setPort_W (s : State) (c : Command) : (s.setPort c).W = s.W := rfl
@[simp] theorem State.setPort_R (s : State) (c : Command) : (s.setPort c).R = s.R := rfl
@[simp] theorem State.setPort_S (s : State) (c : Command) : (s.setPort c).S = s.S := rfl
@[simp] theorem State.setPort_port (s : State) (c : Command) : (s.setPort c).port = c := rfl
@[simp] theorem State.setPort_result (s : State) (c : Command) : (s.setPort c).result = s.result := rfl
@[simp] theorem State.setPort_inp (s : State) (c : Command) : (s.setPort c).inp = s.inp := rfl
@[simp] theorem State.setPort_outp (s : State) (c : Command) : (s.setPort c).outp = s.outp := rfl
@[simp] theorem State.setPort_queue (s : State) (c : Command) : (s.setPort c).queue = s.queue := rfl

@[simp] theorem State.setResult_W (s : State) (r : Option Result) : (s.setResult r).W = s.W := rfl
@[simp] theorem State.setResult_R (s : State) (r : Option Result) : (s.setResult r).R = s.R := rfl
@[simp] theorem State.setResult_S (s : State) (r : Option Result) : (s.setResult r).S = s.S := rfl
@[simp] theorem State.setResult_port (s : State) (r : Option Result) : (s.setResult r).port = s.port := rfl
@[simp] theorem State.setResult_result (s : State) (r : Option Result) : (s.setResult r).result = r := rfl
@[simp] theorem State.setResult_inp (s : State) (r : Option Result) : (s.setResult r).inp = s.inp := rfl
@[simp] theorem State.setResult_outp (s : State) (r : Option Result) : (s.setResult r).outp = s.outp := rfl
@[simp] theorem State.setResult_queue (s : State) (r : Option Result) : (s.setResult r).queue = s.queue := rfl

@[simp] theorem State.setInp_W (s : State) (c : InChannel) : (s.setInp c).W = s.W := rfl
@[simp] theorem State.setInp_R (s : State) (c : InChannel) : (s.setInp c).R = s.R := rfl
@[simp] theorem State.setInp_S (s : State) (c : InChannel) : (s.setInp c).S = s.S := rfl
@[simp] theorem State.setInp_port (s : State) (c : InChannel) : (s.setInp c).port = s.port := rfl
@[simp] theorem State.setInp_result (s : State) (c : InChannel) : (s.setInp c).result = s.result := rfl
@[simp] theorem State.setInp_inp (s : State) (c : InChannel) : (s.setInp c).inp = c := rfl
@[simp] theorem State.setInp_outp (s : State) (c : InChannel) : (s.setInp c).outp = s.outp := rfl
@[simp] theorem State.setInp_queue (s : State) (c : InChannel) : (s.setInp c).queue = s.queue := rfl

@[simp] theorem State.setOutp_W (s : State) (c : OutChannel) : (s.setOutp c).W = s.W := rfl
@[simp] theorem State.setOutp_R (s : State) (c : OutChannel) : (s.setOutp c).R = s.R := rfl
@[simp] theorem State.setOutp_S (s : State) (c : OutChannel) : (s.setOutp c).S = s.S := rfl
@[simp] theorem State.setOutp_port (s : State) (c : OutChannel) : (s.setOutp c).port = s.port := rfl
@[simp] theorem State.setOutp_result (s : State) (c : OutChannel) : (s.setOutp c).result = s.result := rfl
@[simp] theorem State.setOutp_inp (s : State) (c : OutChannel) : (s.setOutp c).inp = s.inp := rfl
@[simp] theorem State.setOutp_outp (s : State) (c : OutChannel) : (s.setOutp c).outp = c := rfl
@[simp] theorem State.setOutp_queue (s : State) (c : OutChannel) : (s.setOutp c).queue = s.queue := rfl

@[simp] theorem State.setQueue_W (s : State) (q : List Command) : (s.setQueue q).W = s.W := rfl
@[simp] theorem State.setQueue_R (s : State) (q : List Command) : (s.setQueue q).R = s.R := rfl
@[simp] theorem State.setQueue_S (s : State) (q : List Command) : (s.setQueue q).S = s.S := rfl
@[simp] theorem State.setQueue_port (s : State) (q : List Command) : (s.setQueue q).port = s.port := rfl
@[simp] theorem State.setQueue_result (s : State) (q : List Command) : (s.setQueue q).result = s.result := rfl
@[simp] theorem State.setQueue_inp (s : State) (q : List Command) : (s.setQueue q).inp = s.inp := rfl
@[simp] theorem State.setQueue_outp (s : State) (q : List Command) : (s.setQueue q).outp = s.outp := rfl
@[simp] theorem State.setQueue_queue (s : State) (q : List Command) : (s.setQueue q).queue = q := rfl

theorem State.setW_self (s : State) : s.setW s.W = s := rfl

theorem State.setR_self (s : State) : s.setR s.R = s := rfl

@[simp] theorem State.setW_setW (s : State) (v w : Writer) : (s.setW v).setW w = s.setW w := rfl

@[simp] theorem State.setR_setR (s : State) (v w : Reader) : (s.setR v).setR w = s.setR w := rfl

@[simp] theorem State.setOutp_setOutp (s : State) (v w : OutChannel) : (s.setOutp v).setOutp w = s.setOutp w := rfl

theorem State.setOutp_setW (s : State) (c : OutChannel) (w : Writer) : (s.setOutp c).setW w = (s.setW w).setOutp c := rfl

end Sys2Proof.Machine
end

