-- ==== Sys2Proof/Laws/Writing.lean ====
section
/-! SUPPORT. Everything `PutBits` can do (41_bit_cursor.md R100), said once: it appends its bits where the channel accepts them,
and it breaks at the first byte the channel refuses. -/

namespace Sys2Proof.Machine

/-- The block status and the result port are as before. -/
def Quiet (s t : State) : Prop := t.S = s.S ∧ t.result = s.result

theorem Quiet.refl (s : State) : Quiet s s := ⟨rfl, rfl⟩

theorem Quiet.trans {s t u : State} (h : Quiet s t) (g : Quiet t u) : Quiet s u := ⟨g.1.trans h.1, g.2.trans h.2⟩

theorem OnlyWriterMoved.trans {s t u : State} (h : OnlyWriterMoved s t) (g : OnlyWriterMoved t u) : OnlyWriterMoved s u := by
  obtain ⟨h1, h2, h3, h4, h5⟩ := h
  obtain ⟨g1, g2, g3, g4, g5⟩ := g
  refine ⟨g1.trans h1, g2.trans h2, g3.trans h3, g4.trans h4, ?_⟩
  rw [g5, h5]

/-- The channel's answers do not depend on what has been written. -/
theorem OnlyWriterMoved.chanWrite {s t : State} (h : OnlyWriterMoved s t) (a : Nat) :
    chanWrite t.outp a = chanWrite s.outp a := by
  have := h.2.2.2.2
  rw [this]
  rfl

@[simp] theorem chanWrite_take (c : OutChannel) (i : Nat) (b : Byte) (a : Nat) : chanWrite (c.take i b) a = chanWrite c a := rfl

theorem chanWrite_cases (c : OutChannel) (a : Nat) : chanWrite c a = .ok ∨ chanWrite c a = .ioerr := by
  unfold Machine.chanWrite
  split <;> simp

/-- A byte from the pending bits and the one that completes them, bit by bit from the most significant. -/
theorem byteBit_ofNat (v j : Nat) (h : j < 8) : byteBit (BitVec.ofNat 8 v) j = v.testBit (7 - j) := by
  simp only [byteBit, BitVec.toNat_ofNat, Nat.testBit_mod_two_pow]
  simp
  omega

theorem testBit_shift_in (a b i : Nat) (hb : b < 2) : (2 * a + b).testBit (i + 1) = a.testBit i := by
  rw [Nat.testBit_succ]
  congr 1
  omega

theorem testBit_shift_in_zero (a b : Nat) : (2 * a + b).testBit 0 = b.testBit 0 := by
  simp [Nat.testBit_zero]

theorem outBit_byte {s : State} {j : Nat} (h : j < 8 * s.W.k) :
    outBit s j = byteBit ((Memory.read s.outp.bytes (j / 8)).getD 0) (j % 8) := if_pos h

theorem outBit_pending {s : State} {j : Nat} (h : 8 * s.W.k ≤ j) :
    outBit s j = s.W.acc.testBit (s.W.n - 1 - (j - 8 * s.W.k)) := if_neg (by omega)

/-- The number that output bits spell is the number they are the bits of. -/
theorem outNumber_of_bits {s : State} {j t v : Nat} (h : ∀ i, i < t → outBit s (j + i) = v.testBit (t - 1 - i)) :
    outNumber s j t = v % 2 ^ t := by
  induction t generalizing v with
  | zero => simp [outNumber, Nat.mod_one]
  | succ t ih =>
    have hi : ∀ i, i < t → outBit s (j + i) = (v / 2).testBit (t - 1 - i) := by
      intro i hi
      rw [h i (by omega), ← Nat.testBit_succ]
      congr 1
      omega
    have hb : (v.testBit 0).toNat = v % 2 := by rw [Nat.testBit_zero]; rcases Nat.mod_two_eq_zero_or_one v with e | e <;> simp [e]
    rw [outNumber, ih hi, h t (by omega), show t + 1 - 1 - t = 0 by omega, hb, Nat.pow_succ', Nat.mod_mul, Nat.add_comm]

/-- The state after a bit that completes no byte. -/
def keepBit (b : Nat) (s : State) : State :=
  s.setW { s.W with acc := 2 * s.W.acc + b, n := s.W.n + 1, pos := s.W.pos + 1 }

/-- The state after a bit that completes a byte the channel accepts. -/
def handOver (b : Nat) (s : State) : State :=
  (s.setOutp (s.outp.take s.W.k (BitVec.ofNat 8 (2 * s.W.acc + b)))).setW
    { s.W with acc := 0, n := 0, pos := s.W.pos + 1, k := s.W.k + 1 }

/-- The state after a bit that completes a byte the channel refuses. -/
def refuseByte (b : Nat) (s : State) : State :=
  s.setW { s.W with st := .failed, acc := 2 * s.W.acc + b, n := s.W.n + 1, pos := s.W.pos + 1 }

/-- Everything one round of `PutBits` can do. -/
theorem putBit_cases (b : Nat) (s : State) :
    (s.W.n + 1 ≠ 8 ∧ putBit b s = .ok () (keepBit b s)) ∨
      (s.W.n + 1 = 8 ∧ chanWrite s.outp s.W.k = .ok ∧ putBit b s = .ok () (handOver b s)) ∨
      (s.W.n + 1 = 8 ∧ chanWrite s.outp s.W.k = .ioerr ∧ putBit b s = .stop .channelIo (refuseByte b s)) := by
  unfold putBit
  by_cases h : s.W.n + 1 = 8
  · rcases chanWrite_cases s.outp s.W.k with hc | hc
    · exact .inr (.inl ⟨h, hc, by simp [h, hc, handOver]⟩)
    · exact .inr (.inr ⟨h, hc, by simp [h, hc, refuseByte]⟩)
  · exact .inl ⟨h, by simp [h, keepBit]⟩

theorem keepBit_appended (b : Nat) (s : State) (hb : b < 2) (hn : s.W.n + 1 < 8) : Appended b 1 s (keepBit b s) := by
  have hk : (keepBit b s).W.k = s.W.k := rfl
  have ha : (keepBit b s).W.acc = 2 * s.W.acc + b := rfl
  have hnn : (keepBit b s).W.n = s.W.n + 1 := rfl
  refine ⟨rfl, rfl, rfl, ?_, ?_, ?_, ?_, fun _ _ => rfl, ⟨rfl, rfl, rfl, rfl, rfl⟩⟩
  · rw [hnn]; omega
  · rw [hk]; simp only [bytesOut]; omega
  · intro i hi
    obtain rfl : i = 0 := by omega
    simp only [outLen]
    rw [outBit_pending (by rw [hk]; omega), hk, ha, hnn]
    have : s.W.n + 1 - 1 - (8 * s.W.k + s.W.n + 0 - 8 * s.W.k) = 0 := by omega
    rw [this]
    exact testBit_shift_in_zero s.W.acc b
  · intro j hj
    simp only [outLen] at hj
    by_cases h : j < 8 * s.W.k
    · rw [outBit_byte h, outBit_byte (by rw [hk]; exact h)]
      rfl
    · rw [outBit_pending (by rw [hk]; omega), outBit_pending (by omega), hk, ha, hnn]
      have : s.W.n + 1 - 1 - (j - 8 * s.W.k) = (s.W.n - 1 - (j - 8 * s.W.k)) + 1 := by omega
      rw [this, testBit_shift_in _ _ _ hb]

theorem handOver_appended (b : Nat) (s : State) (hb : b < 2) (hn : s.W.n + 1 = 8) : Appended b 1 s (handOver b s) := by
  have hq : bytesOut s 1 = 1 := by simp only [bytesOut]; omega
  have hk : (handOver b s).W.k = s.W.k + 1 := rfl
  have hm : (handOver b s).outp.bytes = Memory.write s.outp.bytes s.W.k (BitVec.ofNat 8 (2 * s.W.acc + b)) := rfl
  refine ⟨rfl, rfl, rfl, ?_, ?_, ?_, ?_, ?_, ⟨rfl, rfl, rfl, rfl, rfl⟩⟩
  · have : (handOver b s).W.n = 0 := rfl
    rw [this]; omega
  · rw [hk, hq]
  · intro i hi
    obtain rfl : i = 0 := by omega
    simp only [outLen]
    rw [outBit_byte (by rw [hk]; omega), hm]
    have h1 : (8 * s.W.k + s.W.n + 0) / 8 = s.W.k := by omega
    have h2 : (8 * s.W.k + s.W.n + 0) % 8 = 7 := by omega
    rw [h1, h2, Memory.read_write_same, Option.getD_some, byteBit_ofNat _ 7 (by omega)]
    exact testBit_shift_in_zero s.W.acc b
  · intro j hj
    simp only [outLen] at hj
    rw [outBit_byte (by rw [hk]; omega), hm]
    by_cases h : j < 8 * s.W.k
    · rw [outBit_byte h, Memory.read_write_other _ _ (by omega)]
    · have h1 : j / 8 = s.W.k := by omega
      rw [outBit_pending (by omega), h1, Memory.read_write_same, Option.getD_some, byteBit_ofNat _ _ (by omega)]
      have : 7 - j % 8 = (s.W.n - 1 - (j - 8 * s.W.k)) + 1 := by omega
      rw [this, testBit_shift_in _ _ _ hb]
  · intro a ha
    rw [hm]
    exact Memory.read_write_other _ _ (by rw [hq] at ha; omega)

theorem refuseByte_broke (b : Nat) (s : State) (hn : s.W.n + 1 = 8) : BrokeWriting b 1 s.W.k s (refuseByte b s) := by
  have hk : (refuseByte b s).W.k = s.W.k := rfl
  refine ⟨rfl, rfl, hn, rfl, ?_, ?_, ?_, fun _ _ => rfl, ⟨rfl, rfl, rfl, rfl, rfl⟩⟩
  · have : (refuseByte b s).W.pos = s.W.pos + 1 := rfl
    rw [this]; simp only [outLen]; omega
  · intro i hi
    simp only [outLen] at hi
    omega
  · intro j _ hj2
    rw [outBit_byte hj2, outBit_byte (by rw [hk]; exact hj2)]
    rfl

/-- The number of bits after two appends. -/
theorem Appended.outLen_eq {v t : Nat} {s s' : State} (h : Appended v t s s') : outLen s' = outLen s + t := by
  obtain ⟨_, _, _, h4, h5, _⟩ := h
  simp only [outLen, h4, h5, bytesOut]
  omega

theorem Appended.zero (v : Nat) (s : State) (hn : s.W.n < 8) : Appended v 0 s s := by
  refine ⟨rfl, rfl, rfl, ?_, ?_, ?_, fun _ _ => rfl, fun _ _ => rfl, ⟨rfl, rfl, rfl, rfl, rfl⟩⟩
  · omega
  · simp only [bytesOut]; omega
  · intro i hi; omega

/-- Only the low t bits of the number matter. -/
theorem Appended.congr {v w t : Nat} {s s' : State} (h : Appended v t s s') (e : ∀ i, i < t → v.testBit i = w.testBit i) :
    Appended w t s s' := by
  obtain ⟨h1, h2, h3, h4, h5, h6, h7, h8, h9⟩ := h
  exact ⟨h1, h2, h3, h4, h5, fun i hi => (h6 i hi).trans (e _ (by omega)), h7, h8, h9⟩

theorem testBit_join_low (v₁ v₂ t i : Nat) (h : i < t) : (v₁ * 2 ^ t + v₂ % 2 ^ t).testBit i = v₂.testBit i := by
  rw [Nat.mul_comm, Nat.testBit_two_pow_mul_add _ (Nat.mod_lt _ (Nat.two_pow_pos t)), if_pos h, Nat.testBit_mod_two_pow]
  simp [h]

theorem testBit_join_high (v₁ v₂ t i : Nat) (h : t ≤ i) : (v₁ * 2 ^ t + v₂ % 2 ^ t).testBit i = v₁.testBit (i - t) := by
  rw [Nat.mul_comm, Nat.testBit_two_pow_mul_add _ (Nat.mod_lt _ (Nat.two_pow_pos t)), if_neg (by omega)]

/-- Appending one number and then another appends the two joined. -/
theorem Appended.trans {v₁ t₁ v₂ t₂ : Nat} {s s₁ s₂ : State} (h : Appended v₁ t₁ s s₁) (g : Appended v₂ t₂ s₁ s₂) :
    Appended (v₁ * 2 ^ t₂ + v₂ % 2 ^ t₂) (t₁ + t₂) s s₂ := by
  have hl := h.outLen_eq
  obtain ⟨h1, h2, h3, h4, h5, h6, h7, h8, h9⟩ := h
  obtain ⟨g1, g2, g3, g4, g5, g6, g7, g8, g9⟩ := g
  have hk : bytesOut s t₁ + bytesOut s₁ t₂ = bytesOut s (t₁ + t₂) := by simp only [bytesOut, h4]; omega
  refine ⟨g1.trans h1, g2.trans h2, ?_, ?_, ?_, ?_, ?_, ?_, h9.trans g9⟩
  · rw [g3, h3]; omega
  · rw [g4, h4]; omega
  · rw [g5, h5]; omega
  · intro i hi
    by_cases hlt : i < t₁
    · rw [g7 _ (by omega), h6 i hlt, testBit_join_high _ _ _ _ (by omega)]
      congr 1; omega
    · have := g6 (i - t₁) (by omega)
      rw [hl] at this
      have e : outLen s + t₁ + (i - t₁) = outLen s + i := by omega
      rw [e] at this
      rw [this, testBit_join_low _ _ _ _ (by omega)]
      congr 1; omega
  · intro j hj
    rw [g7 j (by omega), h7 j hj]
  · intro a ha
    rw [g8 a (by rw [h5]; omega), h8 a (by omega)]

/-- A write that breaks after a part that did not. -/
theorem BrokeWriting.after {v₁ t₁ v₂ t₂ a : Nat} {s s₁ s₂ : State} (h : Appended v₁ t₁ s s₁) (g : BrokeWriting v₂ t₂ a s₁ s₂)
    (ha : s₁.W.k ≤ a) (hb : a < s₁.W.k + bytesOut s₁ t₂) :
    BrokeWriting (v₁ * 2 ^ t₂ + v₂ % 2 ^ t₂) (t₁ + t₂) a s s₂ := by
  have hl := h.outLen_eq
  obtain ⟨h1, h2, h3, h4, h5, h6, h7, h8, h9⟩ := h
  obtain ⟨g1, g2, g3, g4, g5, g6, g7, g8, g9⟩ := g
  have hq : 8 * (s₁.W.k + bytesOut s₁ t₂) ≤ outLen s₁ + t₂ := by simp only [bytesOut, outLen]; omega
  refine ⟨g1, g2, g3, g4.trans h2, ?_, ?_, ?_, ?_, h9.trans g9⟩
  · rw [h3] at g5; omega
  · intro i hi
    by_cases hlt : i < t₁
    · rw [g7 _ (by omega) hi, h6 i hlt, testBit_join_high _ _ _ _ (by omega)]
      congr 1; omega
    · have := g6 (i - t₁) (by omega)
      have e : outLen s₁ + (i - t₁) = outLen s + i := by omega
      rw [e] at this
      rw [this, testBit_join_low _ _ _ _ (by omega)]
      congr 1; omega
  · intro j hj hj2
    rw [g7 j (by omega) hj2, h7 j hj]
  · intro b hb2
    rw [g8 b (by rw [h5] at ha ⊢; omega), h8 b (by rw [h5] at ha; omega)]

theorem BrokeWriting.congr {v w t a : Nat} {s s' : State} (h : BrokeWriting v t a s s')
    (e : ∀ i, i < t → v.testBit i = w.testBit i) (ht : 8 * a ≤ outLen s + t) : BrokeWriting w t a s s' := by
  obtain ⟨h1, h2, h3, h4, h5, h6, h7, h8, h9⟩ := h
  exact ⟨h1, h2, h3, h4, h5, fun i hi => (h6 i hi).trans (e _ (by omega)), h7, h8, h9⟩

theorem Appended.ready {v t : Nat} {s s' : State} (h : Appended v t s s') : s'.W.n < 8 := by
  rw [h.2.2.2.1]; omega

/-- What is left to accept after a part. -/
theorem Accepts.rest {v t₁ t₂ : Nat} {s s₁ : State} (h : Accepts s (t₁ + t₂)) (g : Appended v t₁ s s₁) : Accepts s₁ t₂ := by
  intro a ha hk
  rw [g.2.2.2.2.2.2.2.2.chanWrite]
  have h4 := g.2.2.2.1
  have h5 := g.2.2.2.2.1
  refine h a ?_ ?_
  · simp only [bytesOut] at *; omega
  · omega

theorem Accepts.first {t₁ t₂ : Nat} {s : State} (h : Accepts s (t₁ + t₂)) : Accepts s t₁ := by
  intro a ha hk
  refine h a ?_ hk
  simp only [bytesOut] at *; omega

theorem bits_join_top (v t i : Nat) (h : i < t + 1) :
    (v / 2 ^ t % 2 * 2 ^ t + v % 2 ^ t).testBit i = v.testBit i := by
  by_cases hi : i < t
  · exact testBit_join_low _ _ _ _ hi
  · obtain rfl : i = t := by omega
    rw [testBit_join_high _ _ _ _ (le_refl _)]
    simp [Nat.testBit, Nat.shiftRight_eq_div_pow]

/-- `PutBits` appends its bits where the channel accepts them. -/
theorem putBits_appends (v t : Nat) (s : State) (hn : s.W.n < 8) (ha : Accepts s t) :
    ∃ s', putBits v t s = .ok () s' ∧ Appended v t s s' ∧ Quiet s s' := by
  induction t generalizing s with
  | zero => exact ⟨s, rfl, Appended.zero v s hn, Quiet.refl s⟩
  | succ t ih =>
    have hb : v / 2 ^ t % 2 < 2 := Nat.mod_lt _ (by omega)
    have ha' : Accepts s (1 + t) := by rw [Nat.add_comm]; exact ha
    have key : ∀ s₁, putBit (v / 2 ^ t % 2) s = .ok () s₁ → Appended (v / 2 ^ t % 2) 1 s s₁ → Quiet s s₁ →
        ∃ s', putBits v (t + 1) s = .ok () s' ∧ Appended v (t + 1) s s' ∧ Quiet s s' := by
      intro s₁ e h q
      obtain ⟨s', e', h', q'⟩ := ih s₁ h.ready (ha'.rest h)
      refine ⟨s', ?_, ?_, q.trans q'⟩
      · simp only [putBits, e, Res.andThen, e']
      · have := h.trans h'
        rw [Nat.add_comm 1 t] at this
        exact this.congr (fun i hi => bits_join_top v t i hi)
    rcases putBit_cases (v / 2 ^ t % 2) s with ⟨h, e⟩ | ⟨h, _, e⟩ | ⟨h, hc, _⟩
    · exact key _ e (keepBit_appended _ _ hb (by omega)) ⟨rfl, rfl⟩
    · exact key _ e (handOver_appended _ _ hb h) ⟨rfl, rfl⟩
    · exfalso
      have := ha s.W.k (by simp only [bytesOut]; omega) (le_refl _)
      simp [this] at hc

/-- `PutBits` breaks at the first byte the channel refuses. -/
theorem putBits_breaks (v t a : Nat) (s : State) (hn : s.W.n < 8) (ha : FirstRefused s t a) :
    ∃ s', putBits v t s = .stop .channelIo s' ∧ BrokeWriting v t a s s' ∧ Quiet s s' := by
  induction t generalizing s with
  | zero =>
    obtain ⟨h1, h2, _⟩ := ha
    simp only [bytesOut] at h2
    omega
  | succ t ih =>
    obtain ⟨h1, h2, h3, h4⟩ := ha
    have hb : v / 2 ^ t % 2 < 2 := Nat.mod_lt _ (by omega)
    have key : ∀ s₁, putBit (v / 2 ^ t % 2) s = .ok () s₁ → Appended (v / 2 ^ t % 2) 1 s s₁ → Quiet s s₁ → s₁.W.k ≤ a →
        ∃ s', putBits v (t + 1) s = .stop .channelIo s' ∧ BrokeWriting v (t + 1) a s s' ∧ Quiet s s' := by
      intro s₁ e h q hk
      have hk1 := h.2.2.2.2.1
      have hn1 := h.2.2.2.1
      have hout := h.2.2.2.2.2.2.2.2
      have hlt : a < s₁.W.k + bytesOut s₁ t := by simp only [bytesOut] at *; omega
      have f : FirstRefused s₁ t a :=
        ⟨hk, hlt, by rw [hout.chanWrite]; exact h3, fun b hb hb' => by rw [hout.chanWrite]; exact h4 b hb (by omega)⟩
      obtain ⟨s', e', h', q'⟩ := ih s₁ h.ready f
      refine ⟨s', ?_, ?_, q.trans q'⟩
      · simp only [putBits, e, Res.andThen, e']
      · have := BrokeWriting.after h h' hk hlt
        rw [Nat.add_comm 1 t] at this
        refine this.congr (fun i hi => bits_join_top v t i hi) ?_
        simp only [bytesOut, outLen] at *
        omega
    rcases putBit_cases (v / 2 ^ t % 2) s with ⟨h, e⟩ | ⟨h, hc, e⟩ | ⟨h, hc, e⟩
    · exact key _ e (keepBit_appended _ _ hb (by omega)) ⟨rfl, rfl⟩ h1
    · refine key _ e (handOver_appended _ _ hb h) ⟨rfl, rfl⟩ ?_
      simp only [handOver, State.setW_W]
      rcases Nat.lt_or_ge s.W.k a with hlt | hge
      · exact hlt
      · obtain rfl : a = s.W.k := by omega
        simp [hc] at h3
    · obtain rfl : a = s.W.k := by
        rcases Nat.lt_or_ge s.W.k a with hlt | hge
        · have := h4 s.W.k hlt (le_refl _)
          simp [hc] at this
        · omega
      refine ⟨refuseByte (v / 2 ^ t % 2) s, by simp only [putBits, e, Res.andThen], ?_, ⟨rfl, rfl⟩⟩
      obtain ⟨r1, r2, r3, r4, r5, r6, r7, r8, r9⟩ := refuseByte_broke (v / 2 ^ t % 2) s h
      refine ⟨r1, r2, r3, r4, r5, ?_, r7, r8, r9⟩
      intro i hi
      simp only [outLen] at hi
      omega

/-- The channel accepts the next t bits, or there is a first byte it refuses. -/
theorem accepts_or_refuses (s : State) (t : Nat) : Accepts s t ∨ ∃ a, FirstRefused s t a := by
  by_cases h : Accepts s t
  · exact .inl h
  · right
    have hex : ∃ a, a < s.W.k + bytesOut s t ∧ s.W.k ≤ a ∧ chanWrite s.outp a = .ioerr := by
      simp only [Accepts, not_forall] at h
      obtain ⟨a, h1, h2, h3⟩ := h
      exact ⟨a, h1, h2, (chanWrite_cases s.outp a).resolve_left h3⟩
    obtain ⟨h1, h2, h3⟩ := Nat.find_spec hex
    refine ⟨Nat.find hex, h2, h1, h3, fun b hb hk => ?_⟩
    rcases chanWrite_cases s.outp b with h | h
    · exact h
    · exact absurd ⟨by omega, hk, h⟩ (Nat.find_min hex hb)

end Sys2Proof.Machine
end

