-- ==== Sys2Proof/Laws/Reading.lean ====
section
/-! SUPPORT. Everything `GetBits` can do (41_bit_cursor.md R101), said once: it consumes its bits and returns the number they spell
where the channel supplies them, and it breaks at the first byte the channel does not give. -/

namespace Sys2Proof.Machine

theorem inBit_held {s : State} {i : Nat} (h : i < s.R.n) : inBit s i = s.R.hold.testBit (s.R.n - 1 - i) := if_pos h

theorem inBit_channel {s : State} {i : Nat} (h : s.R.n ≤ i) : inBit s i = channelBit s.inp (8 * s.R.k + (i - s.R.n)) :=
  if_neg (by omega)

theorem channelBit_byte {c : InChannel} {j : Nat} {b : Byte} (h : chanRead c (j / 8) = .byte b) :
    channelBit c j = byteBit b (j % 8) := by
  simp only [channelBit, h]

theorem hasByte_true {c : InChannel} {a : Nat} (h : hasByte c a = true) : ∃ b, chanRead c a = .byte b := by
  unfold hasByte at h
  split at h
  · exact ⟨_, by assumption⟩
  · simp at h
  · simp at h

theorem hasByte_of_byte {c : InChannel} {a : Nat} {b : Byte} (h : chanRead c a = .byte b) : hasByte c a = true := by
  simp only [hasByte, h]

/-- A read without a byte says why: IOERR at a failing index, else the end of the data. -/
theorem hasByte_false {c : InChannel} {a : Nat} (h : hasByte c a = false) :
    (chanRead c a = .ioerr ∧ missingStatus c a = .channelIo) ∨ (chanRead c a = .eod ∧ missingStatus c a = .endOfInput) := by
  unfold hasByte at h
  by_cases hf : a ∈ c.fail
  · exact .inl ⟨by simp [chanRead, hf], by simp [missingStatus, hf]⟩
  · right
    refine ⟨?_, by simp [missingStatus, hf]⟩
    cases hr : Memory.read c.bytes a with
    | none => simp [chanRead, hf, hr]
    | some b => simp [chanRead, hf, hr] at h

theorem testBit_bit (v i : Nat) : (v / 2 ^ i % 2 : Nat) = (v.testBit i).toNat := by
  rw [Nat.testBit_eq_decide_div_mod_eq]
  have := Nat.mod_lt (v / 2 ^ i) (show 0 < 2 by omega)
  by_cases h : v / 2 ^ i % 2 = 1 <;> simp [h]
  omega

/-- The reader after it has consumed the first held bit. -/
def dropHeld (s : State) : State :=
  s.setR { s.R with n := s.R.n - 1, hold := s.R.hold % 2 ^ (s.R.n - 1), pos := s.R.pos + 1 }

/-- The reader after it has taken a byte and consumed its first bit. -/
def takeByte (b : Byte) (s : State) : State :=
  s.setR { s.R with n := 7, hold := b.toNat % 2 ^ 7, pos := s.R.pos + 1, k := s.R.k + 1 }

/-- The reader after the channel has given no byte. -/
def starve (s : State) : State := s.setR { s.R with st := .failed }

/-- Everything one round of `GetBits` can do. -/
theorem getBit_cases (s : State) :
    (s.R.n ≠ 0 ∧ getBit s = .ok (s.R.hold.testBit (s.R.n - 1)).toNat (dropHeld s)) ∨
      (∃ b, s.R.n = 0 ∧ chanRead s.inp s.R.k = .byte b ∧ getBit s = .ok (byteBit b 0).toNat (takeByte b s)) ∨
      (s.R.n = 0 ∧ hasByte s.inp s.R.k = false ∧ getBit s = .stop (missingStatus s.inp s.R.k) (starve s)) := by
  by_cases h : s.R.n = 0
  · cases hb : hasByte s.inp s.R.k with
    | true =>
      obtain ⟨b, e⟩ := hasByte_true hb
      refine .inr (.inl ⟨b, h, e, ?_⟩)
      simp [getBit, fillHold, h, e, Res.andThen, takeHeldBit, takeByte, byteBit]
      exact testBit_bit b.toNat 7
    | false =>
      refine .inr (.inr ⟨h, rfl, ?_⟩)
      rcases hasByte_false hb with ⟨e, m⟩ | ⟨e, m⟩ <;>
        simp [getBit, fillHold, h, e, m, Res.andThen, starve]
  · left
    refine ⟨h, ?_⟩
    simp [getBit, fillHold, h, Res.andThen, takeHeldBit, dropHeld]
    exact testBit_bit s.R.hold (s.R.n - 1)

theorem OnlyReaderMoved.trans {s t u : State} (h : OnlyReaderMoved s t) (g : OnlyReaderMoved t u) : OnlyReaderMoved s u := by
  obtain ⟨h1, h2, h3, h4, h5⟩ := h
  obtain ⟨g1, g2, g3, g4, g5⟩ := g
  exact ⟨g1.trans h1, g2.trans h2, g3.trans h3, g4.trans h4, g5.trans h5⟩

theorem OnlyReaderMoved.setR (s : State) (r : Reader) : OnlyReaderMoved s (s.setR r) := ⟨rfl, rfl, rfl, rfl, rfl⟩

theorem dropHeld_consumed (s : State) (h : s.R.n ≠ 0) : Consumed 1 s (dropHeld s) := by
  have hn : (dropHeld s).R.n = s.R.n - 1 := rfl
  have hh : (dropHeld s).R.hold = s.R.hold % 2 ^ (s.R.n - 1) := rfl
  have hq : bytesIn s 1 = 0 := by simp only [bytesIn]; omega
  refine ⟨rfl, rfl, rfl, ?_, ?_, ?_, OnlyReaderMoved.setR _ _⟩
  · rw [hq]; rfl
  · rw [hq, hn]; omega
  · intro j
    by_cases hj : j < s.R.n - 1
    · rw [inBit_held (by rw [hn]; exact hj), inBit_held (by omega), hn, hh, Nat.testBit_mod_two_pow]
      have : s.R.n - 1 - (1 + j) = s.R.n - 1 - 1 - j := by omega
      rw [this]
      simp
      omega
    · rw [inBit_channel (by rw [hn]; omega), inBit_channel (by omega), hn]
      have e : (dropHeld s).inp = s.inp := rfl
      have e2 : (dropHeld s).R.k = s.R.k := rfl
      rw [e, e2]
      congr 1; omega

theorem takeByte_consumed (s : State) (b : Byte) (h : s.R.n = 0) (hb : chanRead s.inp s.R.k = .byte b) :
    Consumed 1 s (takeByte b s) := by
  have hn : (takeByte b s).R.n = 7 := rfl
  have hh : (takeByte b s).R.hold = b.toNat % 2 ^ 7 := rfl
  have hk : (takeByte b s).R.k = s.R.k + 1 := rfl
  have hi : (takeByte b s).inp = s.inp := rfl
  have hq : bytesIn s 1 = 1 := by simp only [bytesIn]; omega
  refine ⟨rfl, rfl, rfl, ?_, ?_, ?_, OnlyReaderMoved.setR _ _⟩
  · rw [hq]; rfl
  · rw [hq, hn, h]
  · intro j
    by_cases hj : j < 7
    · rw [inBit_held (by rw [hn]; exact hj), inBit_channel (by omega), hn, hh, Nat.testBit_mod_two_pow]
      have e1 : 8 * s.R.k + (1 + j - s.R.n) = 8 * s.R.k + (1 + j) := by omega
      have e2 : (8 * s.R.k + (1 + j)) / 8 = s.R.k := by omega
      have e3 : (8 * s.R.k + (1 + j)) % 8 = 1 + j := by omega
      rw [e1, channelBit_byte (by rw [e2]; exact hb), e3, byteBit]
      have : 7 - (1 + j) = 7 - 1 - j := by omega
      rw [this]
      simp
      omega
    · rw [inBit_channel (by rw [hn]; omega), inBit_channel (by omega), hn, hk, hi]
      congr 1; omega

theorem Consumed.zero (s : State) : Consumed 0 s s := by
  refine ⟨rfl, rfl, rfl, ?_, ?_, ?_, ⟨rfl, rfl, rfl, rfl, rfl⟩⟩
  · simp only [bytesIn]; omega
  · simp only [bytesIn]; omega
  · intro j; rw [Nat.zero_add]

theorem Consumed.bytesIn_add {t₁ : Nat} (t₂ : Nat) {s s₁ : State} (h : Consumed t₁ s s₁) :
    bytesIn s t₁ + bytesIn s₁ t₂ = bytesIn s (t₁ + t₂) := by
  have h5 := h.2.2.2.2.1
  simp only [bytesIn] at *
  omega

/-- Consuming some bits and then others consumes both. -/
theorem Consumed.trans {t₁ t₂ : Nat} {s s₁ s₂ : State} (h : Consumed t₁ s s₁) (g : Consumed t₂ s₁ s₂) :
    Consumed (t₁ + t₂) s s₂ := by
  have hb := h.bytesIn_add t₂
  obtain ⟨h1, h2, h3, h4, h5, h6, h7⟩ := h
  obtain ⟨g1, g2, g3, g4, g5, g6, g7⟩ := g
  refine ⟨g1.trans h1, g2.trans h2, ?_, ?_, ?_, ?_, h7.trans g7⟩
  · rw [g3, h3]; omega
  · rw [g4, h4, ← hb]; omega
  · omega
  · intro j
    rw [g6, h6]
    congr 1; omega

theorem BrokeReading.after {t₁ a : Nat} {s s₁ s₂ : State} (h : Consumed t₁ s s₁) (g : BrokeReading a s₁ s₂) :
    BrokeReading a s s₂ := by
  obtain ⟨h1, h2, h3, h4, h5, h6, h7⟩ := h
  obtain ⟨g1, g2, g3, g4, g5, g6⟩ := g
  refine ⟨g1, g2, g3, g4.trans h2, ?_, h7.trans g6⟩
  rw [h3, h4] at g5
  omega

theorem Consumed.inp {t : Nat} {s s' : State} (h : Consumed t s s') : s'.inp = s.inp := h.2.2.2.2.2.2.2.2.1

/-- What is left to supply after a part. -/
theorem Supplies.rest {t₁ t₂ : Nat} {s s₁ : State} (h : Supplies s (t₁ + t₂)) (g : Consumed t₁ s s₁) : Supplies s₁ t₂ := by
  intro a ha hk
  have hb := g.bytesIn_add t₂
  have h4 := g.2.2.2.1
  rw [g.inp]
  exact h a (by omega) (by omega)

theorem Supplies.first {t₁ t₂ : Nat} {s : State} (h : Supplies s (t₁ + t₂)) : Supplies s t₁ := by
  intro a ha hk
  refine h a ?_ hk
  simp only [bytesIn] at *
  omega

theorem FirstMissing.rest {t₁ t₂ a : Nat} {s s₁ : State} (h : FirstMissing s (t₁ + t₂) a) (g : Consumed t₁ s s₁)
    (hk : s₁.R.k ≤ a) : FirstMissing s₁ t₂ a := by
  obtain ⟨h1, h2, h3, h4⟩ := h
  have hb := g.bytesIn_add t₂
  have e4 := g.2.2.2.1
  refine ⟨hk, by omega, by rw [g.inp]; exact h3, fun b hb' hkb => ?_⟩
  rw [g.inp]
  exact h4 b hb' (by omega)

/-- The first missing byte lies in the first part, or after it. -/
theorem FirstMissing.split {t₁ t₂ a : Nat} {s : State} (h : FirstMissing s (t₁ + t₂) a) :
    FirstMissing s t₁ a ∨ (Supplies s t₁ ∧ s.R.k + bytesIn s t₁ ≤ a) := by
  obtain ⟨h1, h2, h3, h4⟩ := h
  by_cases hlt : a < s.R.k + bytesIn s t₁
  · exact .inl ⟨h1, hlt, h3, h4⟩
  · exact .inr ⟨fun b hb hk => h4 b (by omega) hk, by omega⟩

/-! ### The number that bits spell -/

theorem inNumber_lt (s : State) (i t : Nat) : inNumber s i t < 2 ^ t := by
  induction t with
  | zero => simp [inNumber]
  | succ t ih =>
    have := Bool.toNat_lt (inBit s (i + t))
    rw [inNumber, Nat.pow_succ]
    omega

theorem inNumber_add (s : State) (i a b : Nat) :
    inNumber s i (a + b) = inNumber s i a * 2 ^ b + inNumber s (i + a) b := by
  induction b with
  | zero => simp [inNumber]
  | succ b ih =>
    rw [← Nat.add_assoc, inNumber, ih, inNumber, Nat.pow_succ]
    have : i + (a + b) = i + a + b := by omega
    rw [this, Nat.mul_add]
    have : inNumber s i a * (2 ^ b * 2) = 2 * (inNumber s i a * 2 ^ b) := by
      rw [← Nat.mul_assoc, Nat.mul_comm]
    omega

theorem inNumber_one (s : State) (i : Nat) : inNumber s i 1 = (inBit s i).toNat := by
  simp [inNumber]

theorem inNumber_shift {t₁ : Nat} {s s₁ : State} (h : Consumed t₁ s s₁) (i t : Nat) :
    inNumber s₁ i t = inNumber s (t₁ + i) t := by
  induction t with
  | zero => rfl
  | succ t ih =>
    rw [inNumber, inNumber, ih, h.2.2.2.2.2.1]
    have : t₁ + (i + t) = t₁ + i + t := by omega
    rw [this]

/-- The bits of the number that bits spell. -/
theorem inNumber_testBit (s : State) (i t j : Nat) (h : j < t) : (inNumber s i t).testBit (t - 1 - j) = inBit s (i + j) := by
  induction t with
  | zero => omega
  | succ t ih =>
    rw [inNumber]
    by_cases hj : j = t
    · subst hj
      have : j + 1 - 1 - j = 0 := by omega
      rw [this, testBit_shift_in_zero]
      cases inBit s (i + j) <;> simp [Nat.testBit_zero]
    · have : t + 1 - 1 - j = (t - 1 - j) + 1 := by omega
      rw [this, testBit_shift_in _ _ _ (Bool.toNat_lt _), ih (by omega)]

theorem getBitsFrom_consumes (v t : Nat) (s : State) (hs : Supplies s t) :
    ∃ s', getBitsFrom v t s = .ok (v * 2 ^ t + inNumber s 0 t) s' ∧ Consumed t s s' ∧ Quiet s s' := by
  induction t generalizing v s with
  | zero => exact ⟨s, by simp [getBitsFrom, inNumber], Consumed.zero s, Quiet.refl s⟩
  | succ t ih =>
    have hs' : Supplies s (1 + t) := by rw [Nat.add_comm]; exact hs
    have key : ∀ s₁, getBit s = .ok (inBit s 0).toNat s₁ → Consumed 1 s s₁ → Quiet s s₁ →
        ∃ s', getBitsFrom v (t + 1) s = .ok (v * 2 ^ (t + 1) + inNumber s 0 (t + 1)) s' ∧ Consumed (t + 1) s s' ∧ Quiet s s' := by
      intro s₁ e h q
      obtain ⟨s', e', h', q'⟩ := ih (2 * v + (inBit s 0).toNat) s₁ (hs'.rest h)
      refine ⟨s', ?_, ?_, q.trans q'⟩
      · simp only [getBitsFrom, e, Res.andThen, e']
        congr 1
        rw [inNumber_shift h, Nat.add_comm t 1, inNumber_add s 0 1 t, inNumber_one, Nat.pow_add]
        simp only [Nat.zero_add, Nat.pow_one, Nat.add_zero]
        ring
      · rw [Nat.add_comm t 1]
        exact h.trans h'
    rcases getBit_cases s with ⟨h, e⟩ | ⟨b, h, hc, e⟩ | ⟨h, hc, _⟩
    · refine key _ ?_ (dropHeld_consumed s h) ⟨rfl, rfl⟩
      rw [e, inBit_held (by omega), Nat.sub_zero]
    · refine key _ ?_ (takeByte_consumed s b h hc) ⟨rfl, rfl⟩
      rw [e, inBit_channel (by omega)]
      have e1 : 8 * s.R.k + (0 - s.R.n) = 8 * s.R.k := by omega
      have e2 : 8 * s.R.k / 8 = s.R.k := by omega
      have e3 : 8 * s.R.k % 8 = 0 := by omega
      rw [e1, channelBit_byte (by rw [e2]; exact hc), e3]
    · exfalso
      have := hs s.R.k (by simp only [bytesIn]; omega) (le_refl _)
      simp [this] at hc

theorem getBitsFrom_breaks (v t a : Nat) (s : State) (hs : FirstMissing s t a) :
    ∃ s', getBitsFrom v t s = .stop (missingStatus s.inp a) s' ∧ BrokeReading a s s' ∧ Quiet s s' := by
  induction t generalizing v s with
  | zero =>
    obtain ⟨h1, h2, _⟩ := hs
    simp only [bytesIn] at h2
    omega
  | succ t ih =>
    have hs' : FirstMissing s (1 + t) a := by rw [Nat.add_comm]; exact hs
    have key : ∀ b s₁, getBit s = .ok b s₁ → Consumed 1 s s₁ → Quiet s s₁ → s₁.R.k ≤ a →
        ∃ s', getBitsFrom v (t + 1) s = .stop (missingStatus s.inp a) s' ∧ BrokeReading a s s' ∧ Quiet s s' := by
      intro b s₁ e h q hk
      obtain ⟨s', e', h', q'⟩ := ih (2 * v + b) s₁ (hs'.rest h hk)
      refine ⟨s', ?_, BrokeReading.after h h', q.trans q'⟩
      rw [h.inp] at e'
      simp only [getBitsFrom, e, Res.andThen, e']
    obtain ⟨h1, h2, h3, h4⟩ := hs
    rcases getBit_cases s with ⟨h, e⟩ | ⟨b, h, hc, e⟩ | ⟨h, hc, e⟩
    · exact key _ _ e (dropHeld_consumed s h) ⟨rfl, rfl⟩ h1
    · refine key _ _ e (takeByte_consumed s b h hc) ⟨rfl, rfl⟩ ?_
      have hk : (takeByte b s).R.k = s.R.k + 1 := rfl
      rw [hk]
      rcases Nat.lt_or_ge s.R.k a with hlt | hge
      · exact hlt
      · obtain rfl : a = s.R.k := by omega
        simp [hasByte_of_byte hc] at h3
    · obtain rfl : a = s.R.k := by
        rcases Nat.lt_or_ge s.R.k a with hlt | hge
        · have := h4 s.R.k hlt (le_refl _)
          simp [this] at hc
        · omega
      refine ⟨starve s, by simp only [getBitsFrom, e, Res.andThen], ?_, ⟨rfl, rfl⟩⟩
      refine ⟨rfl, rfl, h, rfl, ?_, OnlyReaderMoved.setR _ _⟩
      have : (starve s).R.pos = s.R.pos := rfl
      rw [this, h, Nat.add_zero]

/-- `GetBits` consumes its bits and returns the number they spell where the channel supplies them. -/
theorem getBits_consumes (t : Nat) (s : State) (hs : Supplies s t) :
    ∃ s', getBits t s = .ok (inNumber s 0 t) s' ∧ Consumed t s s' ∧ Quiet s s' := by
  obtain ⟨s', e, h⟩ := getBitsFrom_consumes 0 t s hs
  exact ⟨s', by simpa [getBits] using e, h⟩

/-- `GetBits` breaks at the first byte the channel does not give. -/
theorem getBits_breaks (t a : Nat) (s : State) (hs : FirstMissing s t a) :
    ∃ s', getBits t s = .stop (missingStatus s.inp a) s' ∧ BrokeReading a s s' ∧ Quiet s s' :=
  getBitsFrom_breaks 0 t a s hs

/-- The channel supplies the next t bits, or there is a first byte it does not give. -/
theorem supplies_or_misses (s : State) (t : Nat) : Supplies s t ∨ ∃ a, FirstMissing s t a := by
  by_cases h : Supplies s t
  · exact .inl h
  · right
    have hex : ∃ a, a < s.R.k + bytesIn s t ∧ s.R.k ≤ a ∧ hasByte s.inp a = false := by
      simp only [Supplies, not_forall] at h
      obtain ⟨a, h1, h2, h3⟩ := h
      exact ⟨a, h1, h2, by simpa using h3⟩
    obtain ⟨h1, h2, h3⟩ := Nat.find_spec hex
    refine ⟨Nat.find hex, h2, h1, h3, fun b hb hk => ?_⟩
    cases h : hasByte s.inp b with
    | true => rfl
    | false => exact absurd ⟨by omega, hk, h⟩ (Nat.find_min hex hb)

end Sys2Proof.Machine
end

