-- ==== Sys2Proof/Laws/Outcome.lean ====
section
/-! SUPPORT. How a command ends: the checks, the report, and the two kinds of procedure a command is made of, `Puts` and `Gets`,
with the lemmas that chain them and turn them into the terms of Safety.lean. -/

namespace Sys2Proof.Machine

/-! ### Outcomes and checks -/

@[simp] theorem Res.ok_andThen {α β : Type} (a : α) (s : State) (f : α → State → Res β) : (Res.ok a s).andThen f = f a s := rfl

@[simp] theorem Res.stop_andThen {α β : Type} (c : Status) (s : State) (f : α → State → Res β) :
    (Res.stop c s : Res α).andThen f = .stop c s := rfl

theorem Res.andThen_assoc {α β γ : Type} (r : Res α) (f : α → State → Res β) (g : β → State → Res γ) :
    (r.andThen f).andThen g = r.andThen fun a s => (f a s).andThen g := by
  cases r <;> rfl

@[simp] theorem complete_value (v : Data) (s : State) : complete (.ok (.value v) s) = .next (report .ok v false s) := rfl

@[simp] theorem complete_null (s : State) : complete (.ok .null s) = .next (report .ok 0 true s) := rfl

@[simp] theorem complete_stop (c : Status) (s : State) : complete (.stop c s) = .next (report c 0 false s) := rfl

/-- Every command completes (60_exceptions.md R261): one report, of one status. -/
theorem complete_cases (r : Res Reply) :
    (∃ v s, r = .ok (.value v) s ∧ complete r = .next (report .ok v false s)) ∨
      (∃ s, r = .ok .null s ∧ complete r = .next (report .ok 0 true s)) ∨
      ∃ c s, r = .stop c s ∧ complete r = .next (report c 0 false s) := by
  cases r with
  | stop c s => exact .inr (.inr ⟨c, s, rfl, rfl⟩)
  | ok a s =>
    cases a with
    | value v => exact .inl ⟨v, s, rfl, rfl⟩
    | null => exact .inr (.inl ⟨s, rfl, rfl⟩)

@[simp] theorem require_true (c : Status) (s : State) : require true c s = .ok () s := rfl

@[simp] theorem require_false (c : Status) (s : State) : require false c s = .stop c s := rfl

/-- Everything a check can do: pass, or end the command where nothing has changed. -/
theorem require_cases (p : Bool) (c : Status) (s : State) :
    (p = true ∧ require p c s = .ok () s) ∨ (p = false ∧ require p c s = .stop c s) := by
  cases p <;> simp

theorem checkW_opened {s : State} (h : s.W.st = .opened) : checkW s = .ok () s := by simp [checkW, h]

theorem checkW_closed {s : State} (h : s.W.st = .closed) : checkW s = .stop .illegalState s := by simp [checkW, h]

theorem checkW_failed {s : State} (h : s.W.st = .failed) : checkW s = .stop .useAfterFailure s := by simp [checkW, h]

theorem checkR_opened {s : State} (h : s.R.st = .opened) : checkR s = .ok () s := by simp [checkR, h]

theorem checkR_closed {s : State} (h : s.R.st = .closed) : checkR s = .stop .illegalState s := by simp [checkR, h]

theorem checkR_failed {s : State} (h : s.R.st = .failed) : checkR s = .stop .useAfterFailure s := by simp [checkR, h]

/-! ### The report -/

@[simp] theorem report_W (c : Status) (v : Data) (z : Bool) (s : State) : (report c v z s).W = s.W := rfl
@[simp] theorem report_R (c : Status) (v : Data) (z : Bool) (s : State) : (report c v z s).R = s.R := rfl
@[simp] theorem report_S (c : Status) (v : Data) (z : Bool) (s : State) : (report c v z s).S = s.S.record c := rfl
@[simp] theorem report_port (c : Status) (v : Data) (z : Bool) (s : State) : (report c v z s).port = s.port := rfl
@[simp] theorem report_result (c : Status) (v : Data) (z : Bool) (s : State) :
    (report c v z s).result = some { dout := v, isnull := z, status := c.code } := rfl
@[simp] theorem report_inp (c : Status) (v : Data) (z : Bool) (s : State) : (report c v z s).inp = s.inp := rfl
@[simp] theorem report_outp (c : Status) (v : Data) (z : Bool) (s : State) : (report c v z s).outp = s.outp := rfl
@[simp] theorem report_queue (c : Status) (v : Data) (z : Bool) (s : State) : (report c v z s).queue = s.queue := rfl

theorem record_ok (b : BlockStatus) : b.record .ok = { b with last := 0 } := by
  simp [BlockStatus.record, Status.cls, Status.code]

theorem record_precondition (b : BlockStatus) {c : Status} (h : c.cls = .precondition) :
    b.record c = { b with pf := true, last := c.code } := by
  simp [BlockStatus.record, h]

theorem record_io (b : BlockStatus) {c : Status} (h : c.cls = .io) : b.record c = { b with iof := true, last := c.code } := by
  simp [BlockStatus.record, h]

theorem record_fault (b : BlockStatus) {c : Status} (h : c.cls = .fault) :
    b.record c = { b with fault := true, last := c.code } := by
  simp [BlockStatus.record, h]

theorem report_precondition {c : Status} (h : c.cls = .precondition) (s : State) :
    report c 0 false s = preconditionFailed c s := by
  rw [report, record_precondition _ h]
  rfl

theorem report_io {c : Status} (h : c.cls = .io) (s : State) : report c 0 false s = ioFailed c s := by
  rw [report, record_io _ h]
  rfl

theorem report_fault {c : Status} (h : c.cls = .fault) (s : State) : report c 0 false s = modelFault c s := by
  rw [report, record_fault _ h]
  rfl

theorem report_ok (v : Data) (z : Bool) (s : State) : report .ok v z s = completedWith v z s := by
  rw [report, record_ok]
  rfl

theorem report_endedOk {s u : State} (v : Data) (z : Bool) (q : Quiet s u) : EndedOk v z s (report .ok v z u) :=
  ⟨rfl, by rw [report_S, record_ok, q.1]⟩

theorem report_endedIo {s u : State} {c : Status} (h : c.cls = .io) (q : Quiet s u) : EndedIo c s (report c 0 false u) :=
  ⟨rfl, by rw [report_S, record_io _ h, q.1]⟩

theorem report_endedFault {s u : State} {c : Status} (h : c.cls = .fault) (q : Quiet s u) :
    EndedFault c s (report c 0 false u) :=
  ⟨rfl, by rw [report_S, record_fault _ h, q.1]⟩

theorem Appended.report {v t : Nat} {s u : State} (h : Appended v t s u) (c : Status) (d : Data) (z : Bool) :
    Appended v t s (report c d z u) := h

theorem BrokeWriting.report {v t a : Nat} {s u : State} (h : BrokeWriting v t a s u) (c : Status) (d : Data) (z : Bool) :
    BrokeWriting v t a s (report c d z u) := h

theorem Consumed.report {t : Nat} {s u : State} (h : Consumed t s u) (c : Status) (d : Data) (z : Bool) :
    Consumed t s (report c d z u) := h

theorem BrokeReading.report {a : Nat} {s u : State} (h : BrokeReading a s u) (c : Status) (d : Data) (z : Bool) :
    BrokeReading a s (report c d z u) := h

theorem missingStatus_cls (c : InChannel) (a : Nat) : (missingStatus c a).cls = .io := by
  unfold missingStatus
  split <;> rfl

theorem Status.code_injective {c d : Status} (h : c.code = d.code) : c = d := by
  cases c <;> cases d <;> first | rfl | (exact absurd h (by decide))

/-! ### Guards -/

/-- A command that starts with `CheckW()` is turned away from a side that is not open. -/
theorem guardedW_of {i : Instr} {s : State} {f : Unit → State → Res Reply} (h : exec i s = complete ((checkW s).andThen f)) :
    GuardedW i s := by
  refine ⟨fun hc => ?_, fun hf => ?_⟩
  · rw [h, checkW_closed hc, Res.stop_andThen, complete_stop, report_precondition rfl]
  · rw [h, checkW_failed hf, Res.stop_andThen, complete_stop, report_fault rfl]

/-- A command that starts with `CheckR()` is turned away from a side that is not open. -/
theorem guardedR_of {i : Instr} {s : State} {f : Unit → State → Res Reply} (h : exec i s = complete ((checkR s).andThen f)) :
    GuardedR i s := by
  refine ⟨fun hc => ?_, fun hf => ?_⟩
  · rw [h, checkR_closed hc, Res.stop_andThen, complete_stop, report_precondition rfl]
  · rw [h, checkR_failed hf, Res.stop_andThen, complete_stop, report_fault rfl]

/-! ### Procedures that write -/

/-- The outcome r of a procedure started in s: the low t bits of v appended where the channel accepts them, and CHANNEL_IO at the
first byte it refuses. -/
def Puts (v t : Nat) (s : State) (r : Res Unit) : Prop :=
  (Accepts s t → ∃ s', r = .ok () s' ∧ Appended v t s s' ∧ Quiet s s') ∧
    ∀ a, FirstRefused s t a → ∃ s', r = .stop .channelIo s' ∧ BrokeWriting v t a s s' ∧ Quiet s s'

theorem putBits_puts (v t : Nat) {s : State} (hn : s.W.n < 8) : Puts v t s (putBits v t s) :=
  ⟨putBits_appends v t s hn, fun a => putBits_breaks v t a s hn⟩

/-- Only the low t bits of the number matter. -/
theorem Puts.congr {v w t : Nat} {s : State} {r : Res Unit} (h : Puts v t s r) (e : ∀ i, i < t → v.testBit i = w.testBit i) :
    Puts w t s r := by
  refine ⟨fun ha => ?_, fun a hf => ?_⟩
  · obtain ⟨s', e', h', q⟩ := h.1 ha
    exact ⟨s', e', h'.congr e, q⟩
  · obtain ⟨s', e', h', q⟩ := h.2 a hf
    have hb := hf.2.1
    refine ⟨s', e', h'.congr e ?_, q⟩
    simp only [bytesOut, outLen] at *
    omega

theorem Puts.congr_mod {v w t : Nat} {s : State} {r : Res Unit} (h : Puts v t s r) (e : v % 2 ^ t = w % 2 ^ t) :
    Puts w t s r := by
  refine h.congr fun i hi => ?_
  have := congrArg (fun n => n.testBit i) e
  simpa [Nat.testBit_mod_two_pow, hi] using this

/-- The first refused byte lies in the first part, or after it. -/
theorem FirstRefused.split {t₁ t₂ a : Nat} {s : State} (h : FirstRefused s (t₁ + t₂) a) :
    FirstRefused s t₁ a ∨ (Accepts s t₁ ∧ s.W.k + bytesOut s t₁ ≤ a) := by
  obtain ⟨h1, h2, h3, h4⟩ := h
  by_cases hlt : a < s.W.k + bytesOut s t₁
  · exact .inl ⟨h1, hlt, h3, h4⟩
  · exact .inr ⟨fun b hb hk => h4 b (by omega) hk, by omega⟩

theorem FirstRefused.rest {v t₁ t₂ a : Nat} {s s₁ : State} (h : FirstRefused s (t₁ + t₂) a) (g : Appended v t₁ s s₁)
    (hk : s₁.W.k ≤ a) : FirstRefused s₁ t₂ a := by
  obtain ⟨h1, h2, h3, h4⟩ := h
  have e4 := g.2.2.2.1
  have e5 := g.2.2.2.2.1
  have e9 := g.2.2.2.2.2.2.2.2
  refine ⟨hk, ?_, by rw [e9.chanWrite]; exact h3, fun b hb hkb => ?_⟩
  · simp only [bytesOut] at *; omega
  · rw [e9.chanWrite]
    exact h4 b hb (by omega)

theorem BrokeWriting.widen {v t u a : Nat} {s s' : State} (h : BrokeWriting v t a s s') (w : Nat)
    (ht : 8 * a ≤ outLen s + t) : BrokeWriting (v * 2 ^ u + w % 2 ^ u) (t + u) a s s' := by
  obtain ⟨h1, h2, h3, h4, h5, h6, h7, h8, h9⟩ := h
  refine ⟨h1, h2, h3, h4, h5, fun i hi => (h6 i hi).trans ?_, h7, h8, h9⟩
  rw [testBit_join_high _ _ _ _ (by omega)]
  congr 1
  omega

/-- Writing one number and then another writes the two joined. -/
theorem Puts.andThen {v₁ t₁ v₂ t₂ : Nat} {s : State} {r : Res Unit} {f : Unit → State → Res Unit} (h : Puts v₁ t₁ s r)
    (g : ∀ s₁, Appended v₁ t₁ s s₁ → Quiet s s₁ → Puts v₂ t₂ s₁ (f () s₁)) :
    Puts (v₁ * 2 ^ t₂ + v₂ % 2 ^ t₂) (t₁ + t₂) s (r.andThen f) := by
  refine ⟨fun ha => ?_, fun a hf => ?_⟩
  · obtain ⟨s₁, e₁, h₁, q₁⟩ := h.1 ha.first
    obtain ⟨s₂, e₂, h₂, q₂⟩ := (g s₁ h₁ q₁).1 (ha.rest h₁)
    exact ⟨s₂, by rw [e₁, Res.ok_andThen, e₂], h₁.trans h₂, q₁.trans q₂⟩
  · rcases hf.split with hf₁ | ⟨ha₁, hk⟩
    · obtain ⟨s₁, e₁, h₁, q₁⟩ := h.2 a hf₁
      have hb := hf₁.2.1
      refine ⟨s₁, by rw [e₁, Res.stop_andThen], h₁.widen _ ?_, q₁⟩
      simp only [bytesOut, outLen] at *
      omega
    · obtain ⟨s₁, e₁, h₁, q₁⟩ := h.1 ha₁
      have hk₁ : s₁.W.k ≤ a := by rw [h₁.2.2.2.2.1]; exact hk
      have hf₂ := hf.rest h₁ hk₁
      obtain ⟨s₂, e₂, h₂, q₂⟩ := (g s₁ h₁ q₁).2 a hf₂
      exact ⟨s₂, by rw [e₁, Res.ok_andThen, e₂], BrokeWriting.after h₁ h₂ hf₂.1 hf₂.2.1, q₁.trans q₂⟩

/-- A command whose meaning is to write the low t bits of v, answering 0. -/
theorem writes_of_puts {i : Instr} {v t : Nat} {s : State} {r : Res Unit}
    (e : exec i s = complete (r.andThen fun _ s => done 0 s)) (h : Puts v t s r) : Writes i v t s := by
  refine ⟨fun ha => ?_, fun a hf => ?_⟩
  · obtain ⟨s', e', h', q⟩ := h.1 ha
    exact ⟨_, by rw [e, e', Res.ok_andThen, done, complete_value], h'.report .ok 0 false, report_endedOk 0 false q⟩
  · obtain ⟨s', e', h', q⟩ := h.2 a hf
    exact ⟨_, by rw [e, e', Res.stop_andThen, complete_stop], h'.report .channelIo 0 false, report_endedIo rfl q⟩

/-! ### Procedures that read -/

/-- The outcome r of a procedure started in s: t bits consumed and the answer x where the channel supplies them, and the I/O status
of the first byte it does not give. -/
def Gets {α : Type} (x : α) (t : Nat) (s : State) (r : Res α) : Prop :=
  (Supplies s t → ∃ s', r = .ok x s' ∧ Consumed t s s' ∧ Quiet s s') ∧
    ∀ a, FirstMissing s t a → ∃ s', r = .stop (missingStatus s.inp a) s' ∧ BrokeReading a s s' ∧ Quiet s s'

theorem getBits_gets (t : Nat) (s : State) : Gets (inNumber s 0 t) t s (getBits t s) :=
  ⟨getBits_consumes t s, fun a => getBits_breaks t a s⟩

theorem Gets.map {α β : Type} {x : α} {t : Nat} {s : State} {r : Res α} (h : Gets x t s r) (g : α → β) :
    Gets (g x) t s (r.andThen fun a s => .ok (g a) s) := by
  refine ⟨fun hs => ?_, fun a hf => ?_⟩
  · obtain ⟨s', e, c⟩ := h.1 hs
    exact ⟨s', by rw [e, Res.ok_andThen], c⟩
  · obtain ⟨s', e, c⟩ := h.2 a hf
    exact ⟨s', by rw [e, Res.stop_andThen], c⟩

/-- Reading some bits and then others reads both. -/
theorem Gets.andThen {α β : Type} {x : α} {y : β} {t₁ t₂ : Nat} {s : State} {r : Res α} {f : α → State → Res β}
    (h : Gets x t₁ s r) (g : ∀ s₁, Consumed t₁ s s₁ → Quiet s s₁ → Gets y t₂ s₁ (f x s₁)) :
    Gets y (t₁ + t₂) s (r.andThen f) := by
  refine ⟨fun hs => ?_, fun a hf => ?_⟩
  · obtain ⟨s₁, e₁, h₁, q₁⟩ := h.1 hs.first
    obtain ⟨s₂, e₂, h₂, q₂⟩ := (g s₁ h₁ q₁).1 (hs.rest h₁)
    exact ⟨s₂, by rw [e₁, Res.ok_andThen, e₂], h₁.trans h₂, q₁.trans q₂⟩
  · rcases hf.split with hf₁ | ⟨hs₁, hk⟩
    · obtain ⟨s₁, e₁, h₁, q₁⟩ := h.2 a hf₁
      exact ⟨s₁, by rw [e₁, Res.stop_andThen], h₁, q₁⟩
    · obtain ⟨s₁, e₁, h₁, q₁⟩ := h.1 hs₁
      have hf₂ := hf.rest h₁ (by rw [h₁.2.2.2.1]; exact hk)
      obtain ⟨s₂, e₂, h₂, q₂⟩ := (g s₁ h₁ q₁).2 a hf₂
      rw [h₁.inp] at e₂
      exact ⟨s₂, by rw [e₁, Res.ok_andThen, e₂], BrokeReading.after h₁ h₂, q₁.trans q₂⟩

/-- What a command does whose meaning is to read t bits and answer the value w. -/
theorem answers_of_gets {i : Instr} {t : Nat} {w : Data} {z : Bool} {s : State} {r : Res Reply}
    (e : exec i s = complete r) (h : Gets (if z then .null else .value w) t s r) (hw : z = true → w = 0) :
    (Supplies s t → ∃ s', exec i s = .next s' ∧ Consumed t s s' ∧ EndedOk w z s s') ∧
      ∀ a, FirstMissing s t a → ∃ s', exec i s = .next s' ∧ BrokeReading a s s' ∧ EndedIo (missingStatus s.inp a) s s' := by
  refine ⟨fun hs => ?_, fun a hf => ?_⟩
  · obtain ⟨s', e', h', q⟩ := h.1 hs
    refine ⟨report .ok w z s', ?_, h'.report .ok w z, report_endedOk w z q⟩
    cases z with
    | true => simp [e, e', hw]
    | false => simp [e, e']
  · obtain ⟨s', e', h', q⟩ := h.2 a hf
    exact ⟨_, by rw [e, e', complete_stop], h'.report _ 0 false, report_endedIo (missingStatus_cls _ _) q⟩

theorem reads_of_gets {i : Instr} {skip t : Nat} {f : Nat → Data} {s : State} {r : Res Reply} (e : exec i s = complete r)
    (h : Gets (.value (f (inNumber s skip t))) (skip + t) s r) : Reads i skip t f s :=
  answers_of_gets (z := false) e h (fun h => by simp at h)

end Sys2Proof.Machine
end

