-- ==== Sys2Proof/Laws/Codec.lean ====
section
/-! SUPPORT. What the shared codec procedures do: the Nullable wrapper (43_float_codec.md R179, R180) and the VLQ procedures
(46_vlq.md R241, R242), each said once. -/

namespace Sys2Proof.Machine

/-! ### The Nullable wrapper -/

theorem nullableWrite_plain {α : Type} (f : α) (put : α → State → Res Unit) (s : State) :
    nullableWrite false (some f) put s = put f s := rfl

theorem nullableWrite_null {α : Type} {s : State} (check : Option α) (put : α → State → Res Unit) (h : s.port.present = false) :
    nullableWrite true check put s = putBits 0 1 s := by
  simp [nullableWrite, h]

theorem nullableWrite_present {α : Type} {s : State} (f : α) (put : α → State → Res Unit) (h : s.port.present = true) :
    nullableWrite true (some f) put s = (putBits 1 1 s).andThen fun _ s => put f s := by
  simp [nullableWrite, h, checkValue]

theorem nullableWrite_none {α : Type} {nl : Bool} {s : State} (put : α → State → Res Unit) (h : nl = false ∨ s.port.present = true) :
    nullableWrite nl none put s = .stop .undefinedInput s := by
  rcases h with h | h
  · subst h; rfl
  · cases nl <;> simp [nullableWrite, h, checkValue]

/-- A command whose meaning is a Nullable write: `num` says which number the fields of the value check spell. -/
theorem nullableWrites_of {α : Type} {i : Instr} {nl : Bool} {t : Nat} {s : State} {check : Option α}
    {put : α → State → Res Unit} (num : α → Nat)
    (e : exec i s = complete ((nullableWrite nl check put s).andThen fun _ s => done 0 s)) (hn : s.W.n < 8)
    (h : ∀ f, check = some f → ∀ s₁ : State, s₁.W.n < 8 → Puts (num f) t s₁ (put f s₁)) :
    NullableWrites i nl (check.map num) t s := by
  refine ⟨fun hnl v hv => ?_, fun hnl hp v hv => ?_, fun hnl hp => ?_, fun hp hv => ?_⟩
  · subst hnl
    obtain ⟨f, hf, rfl⟩ := Option.map_eq_some_iff.1 hv
    rw [hf, nullableWrite_plain] at e
    exact writes_of_puts e (h f hf s hn)
  · subst hnl
    obtain ⟨f, hf, rfl⟩ := Option.map_eq_some_iff.1 hv
    rw [hf, nullableWrite_present f put hp] at e
    have := (putBits_puts 1 1 hn).andThen (f := fun _ s => put f s) fun s₁ h₁ _ => h f hf s₁ h₁.ready
    rw [Nat.one_mul, Nat.add_comm 1 t] at this
    exact writes_of_puts e this
  · subst hnl
    rw [nullableWrite_null check put hp] at e
    exact writes_of_puts e (putBits_puts 0 1 hn)
  · rw [Option.map_eq_none_iff] at hv
    rw [hv, nullableWrite_none put hp, Res.stop_andThen, complete_stop, report_fault rfl] at e
    exact e

theorem nullableRead_gets_value {x t : Nat} {s : State} {get : State → Res Nat} (h : Gets x t s (get s)) :
    Gets (.value (dout x)) t s (nullableRead false get s) := h.map fun x => Reply.value (dout x)

/-- A command whose meaning is a Nullable read: `g` is what the payload's number stands for. -/
theorem nullableReads_of {i : Instr} {nl : Bool} {t : Nat} {s : State} {get : State → Res Nat} (g : Nat → Nat)
    (e : exec i s = complete (nullableRead nl get s)) (h : ∀ s₁ : State, Gets (g (inNumber s₁ 0 t)) t s₁ (get s₁)) :
    NullableReads i nl t (fun p => BitVec.ofNat 64 (g p)) s := by
  refine ⟨fun hnl => ?_, fun hnl hp => ?_, fun hnl hp => ?_⟩
  · subst hnl
    refine reads_of_gets e ?_
    rw [Nat.zero_add]
    exact nullableRead_gets_value (h s)
  · subst hnl
    refine reads_of_gets e ((getBits_gets 1 s).andThen fun s₁ h₁ _ => ?_)
    rw [inNumber_one, hp, if_neg (by simp)]
    have := (h s₁).map fun x => Reply.value (dout x)
    rw [inNumber_shift h₁] at this
    exact this
  · subst hnl
    refine answers_of_gets (z := true) e ?_ (fun _ => rfl)
    show Gets Reply.null (1 + 0) s _
    refine (getBits_gets 1 s).andThen fun s₁ h₁ _ => ?_
    rw [inNumber_one, hp, if_pos (by simp)]
    refine ⟨fun _ => ⟨s₁, rfl, Consumed.zero s₁, Quiet.refl s₁⟩, fun a hf => ?_⟩
    obtain ⟨h1, h2, _⟩ := hf
    simp only [bytesIn] at h2
    omega

/-! ### Variable-length quantities -/

theorem vlqLen_small {v : Nat} (h : v < 128) : vlqLen v = 1 := by
  unfold vlqLen
  split
  · rfl
  · next h0 =>
    have := (Nat.log2_lt (n := v) (k := 7) h0).2 (by omega)
    omega

theorem log2_div_128 {v : Nat} (h : 128 ≤ v) : Nat.log2 v = Nat.log2 (v / 128) + 7 := by
  have e : v / 128 ≠ 0 := by omega
  rw [Nat.log2_eq_iff (by omega)]
  have h1 := Nat.log2_self_le e
  have h2 := Nat.lt_log2_self (n := v / 128)
  have p1 : 2 ^ (Nat.log2 (v / 128) + 7) = 2 ^ Nat.log2 (v / 128) * 128 := by rw [Nat.pow_add]
  have p2 : 2 ^ (Nat.log2 (v / 128) + 7 + 1) = 2 ^ (Nat.log2 (v / 128) + 1) * 128 := by
    rw [Nat.add_right_comm, Nat.pow_add _ _ 7]
  omega

/-- A value of more than one unit has one unit more than its quotient by 128. -/
theorem vlqLen_large {v : Nat} (h : 128 ≤ v) : vlqLen v = vlqLen (v / 128) + 1 := by
  unfold vlqLen
  rw [if_neg (by omega), if_neg (by omega), log2_div_128 h]
  omega

theorem vlqLen_pos (v : Nat) : 1 ≤ vlqLen v := by
  unfold vlqLen
  split <;> omega

/-- The fuel of `vlqPut` is the number of units. -/
theorem vlqLen_eq_fuel (v : Nat) : vlqLen v = Nat.log2 v / 7 + 1 := by
  unfold vlqLen
  split
  · next h => subst h; simp
  · omega

theorem vlqUnit_succ (v k i : Nat) : vlqUnit v (k + 1) (i + 1) = vlqUnit (v / 128) k i := by
  unfold vlqUnit
  rw [Nat.pow_succ', Nat.div_div_eq_div_mul]
  simp only [Nat.add_lt_add_iff_right]

theorem vlqPrefix_succ (v k i : Nat) :
    vlqPrefix v (k + 1) (i + 1) = vlqUnit v (k + 1) 0 * 256 ^ i + vlqPrefix (v / 128) k i := by
  induction i with
  | zero => simp [vlqPrefix]
  | succ i ih =>
    rw [vlqPrefix, ih, vlqUnit_succ, vlqPrefix, Nat.pow_succ]
    ring

theorem vlqUnit_lt (v k i : Nat) : vlqUnit v k i < 256 := by
  unfold vlqUnit
  have := Nat.mod_lt (v / 128 ^ i) (show 0 < 128 by omega)
  split <;> omega

theorem vlqPrefix_lt (v k i : Nat) : vlqPrefix v k i < 256 ^ i := by
  induction i with
  | zero => simp [vlqPrefix]
  | succ i ih =>
    have := vlqUnit_lt v k i
    rw [vlqPrefix, Nat.pow_succ]
    omega

theorem vlqWire_small {v : Nat} (h : v < 128) : vlqWire v = v := by
  simp [vlqWire, vlqLen_small h, vlqPrefix, vlqUnit]
  omega

theorem vlqWire_large {v : Nat} (h : 128 ≤ v) :
    vlqWire v = (128 + v % 128) * 2 ^ (8 * vlqLen (v / 128)) + vlqWire (v / 128) % 2 ^ (8 * vlqLen (v / 128)) := by
  have hp : (2 : Nat) ^ (8 * vlqLen (v / 128)) = 256 ^ vlqLen (v / 128) := by rw [Nat.pow_mul]
  have hl := vlqPrefix_lt (v / 128) (vlqLen (v / 128)) (vlqLen (v / 128))
  have hm : vlqWire (v / 128) % 256 ^ vlqLen (v / 128) = vlqWire (v / 128) := Nat.mod_eq_of_lt hl
  rw [hp, hm]
  unfold vlqWire
  rw [vlqLen_large h, vlqPrefix_succ]
  have hk := vlqLen_pos (v / 128)
  congr 2
  simp only [vlqUnit, Nat.pow_zero, Nat.div_one]
  rw [if_pos (by omega)]

/-- The groups hold the value. -/
theorem lt_pow_vlqLen (v : Nat) : v < 128 ^ vlqLen v := by
  rw [show 128 = 2 ^ 7 from rfl, ← Nat.pow_mul, vlqLen_eq_fuel]
  by_cases h0 : v = 0
  · subst h0; exact Nat.two_pow_pos _
  · rw [← Nat.log2_lt h0]; omega

/-- No fewer groups hold it (46_vlq.md R241). -/
theorem vlqLen_le {v k : Nat} (hk : 1 ≤ k) (h : v < 128 ^ k) : vlqLen v ≤ k := by
  rw [show 128 = 2 ^ 7 from rfl, ← Nat.pow_mul] at h
  rw [vlqLen_eq_fuel]
  by_cases h0 : v = 0
  · subst h0; simpa using hk
  · have := (Nat.log2_lt h0).2 h
    omega

theorem vlqPrefix_div (v k i j : Nat) : vlqPrefix v k (i + j) / 256 ^ j = vlqPrefix v k i := by
  induction j with
  | zero => simp
  | succ j ih =>
    have := vlqUnit_lt v k (i + j)
    rw [← Nat.add_assoc, vlqPrefix, Nat.pow_succ', ← Nat.div_div_eq_div_mul,
      show (256 * vlqPrefix v k (i + j) + vlqUnit v k (i + j)) / 256 = vlqPrefix v k (i + j) by omega, ih]

/-- Byte i of the field, counted from the first on the stream, is unit i. -/
theorem vlqWire_unit {v i : Nat} (h : i < vlqLen v) : vlqWire v / 256 ^ (vlqLen v - 1 - i) % 256 = vlqUnit v (vlqLen v) i := by
  have hd := vlqPrefix_div v (vlqLen v) (i + 1) (vlqLen v - 1 - i)
  rw [show i + 1 + (vlqLen v - 1 - i) = vlqLen v by omega] at hd
  have := vlqUnit_lt v (vlqLen v) i
  rw [vlqWire, hd, vlqPrefix]
  omega

/-- One unit, written (46_vlq.md R240). -/
theorem putUnit_puts (c g : Nat) {s : State} (hn : s.W.n < 8) : Puts (c * 128 + g % 128) 8 s (putUnit c g s) :=
  (putBits_puts c 1 hn).andThen (t₂ := 7) (f := fun _ s => putBits g 7 s) fun _ h₁ _ => putBits_puts g 7 h₁.ready

theorem vlqPutWithin_puts (fuel v : Nat) {s : State} (hn : s.W.n < 8) (hf : vlqLen v ≤ fuel) :
    Puts (vlqWire v) (8 * vlqLen v) s (vlqPutWithin fuel v s) := by
  induction fuel generalizing v s with
  | zero => have := vlqLen_pos v; omega
  | succ fuel ih =>
    rw [vlqPutWithin]
    by_cases h : 128 ≤ v
    · have h0 : v / 128 ≠ 0 := by omega
      simp only [ne_eq, h0, not_false_eq_true, if_true]
      have hl := vlqLen_large h
      have := (putUnit_puts 1 (v % 128) hn).andThen (f := fun _ s => vlqPutWithin fuel (v / 128) s)
        fun s₁ h₁ _ => ih (v / 128) h₁.ready (by omega)
      rw [vlqWire_large h, hl, Nat.mul_add, Nat.add_comm (8 * _)]
      simpa using this
    · have h0 : v / 128 = 0 := by omega
      simp only [ne_eq, h0, not_true_eq_false, if_false]
      rw [vlqWire_small (by omega), vlqLen_small (by omega)]
      have := (putUnit_puts 0 (v % 128) hn).andThen (v₂ := 0) (t₂ := 0) (f := fun _ s => .ok () s)
        fun s₁ h₁ _ => putBits_puts 0 0 h₁.ready
      refine this.congr_mod ?_
      norm_num
      omega

/-- `VlqPut` writes the units of its value (46_vlq.md R241). -/
theorem vlqPut_puts (v : Nat) {s : State} (hn : s.W.n < 8) : Puts (vlqWire v) (8 * vlqLen v) s (vlqPut v s) :=
  vlqPutWithin_puts _ _ hn (by rw [vlqLen_eq_fuel])

/-- One unit, read: its continuation bit and its group (46_vlq.md R242). -/
def getUnit (s : State) : Res (Nat × Nat) :=
  (getBits 1 s).andThen fun c s => (getBits 7 s).andThen fun g s => .ok (c, g) s

theorem getUnit_gets (s : State) : Gets ((unitContinues s 0).toNat, unitGroup s 0) 8 s (getUnit s) := by
  refine (getBits_gets 1 s).andThen (t₂ := 7) fun s₁ h₁ _ => ?_
  have := (getBits_gets 7 s₁).map fun g => (inNumber s 0 1, g)
  rw [inNumber_shift h₁, inNumber_one] at this
  rw [inNumber_one]
  exact this

theorem vlqGetFrom_succ (L left i v : Nat) (s : State) :
    vlqGetFrom L (left + 1) i v s = (getUnit s).andThen fun u s =>
      (require (decide (u.2 * 2 ^ (7 * i) < 2 ^ L)) .malformedVlq s).andThen fun _ s =>
        if u.1 = 0 then .ok (v + u.2 * 2 ^ (7 * i)) s else vlqGetFrom L left (i + 1) (v + u.2 * 2 ^ (7 * i)) s := by
  simp only [vlqGetFrom, getUnit, Res.andThen_assoc, Res.ok_andThen]

theorem unitContinues_shift {m : Nat} {s s₁ : State} (h : Consumed (8 * m) s s₁) (j : Nat) :
    unitContinues s₁ j = unitContinues s (m + j) := by
  unfold unitContinues
  rw [h.2.2.2.2.2.1, Nat.mul_add]

theorem unitGroup_shift {m : Nat} {s s₁ : State} (h : Consumed (8 * m) s s₁) (j : Nat) :
    unitGroup s₁ j = unitGroup s (m + j) := by
  unfold unitGroup
  rw [inNumber_shift h]
  congr 1
  omega

/-- While units announce another and fit, `VlqGet` goes on with the next, having summed the groups. -/
theorem vlqGet_goOn {L m : Nat} {s : State} (left : Nat) (hu : UnitsGoOn L m s) (hs : Supplies s (8 * m)) :
    ∃ s₁, vlqGetFrom L (m + left) 0 0 s = vlqGetFrom L left m (unitsValue s m) s₁ ∧ Consumed (8 * m) s s₁ ∧ Quiet s s₁ := by
  induction m generalizing left with
  | zero => exact ⟨s, by rw [Nat.zero_add]; rfl, Consumed.zero s, Quiet.refl s⟩
  | succ m ih =>
    obtain ⟨s₁, e₁, h₁, q₁⟩ := ih (left + 1) (fun i hi => hu i (by omega)) (Supplies.first (t₂ := 8) (by rw [← Nat.mul_succ]; exact hs))
    obtain ⟨s₂, e₂, h₂, q₂⟩ := (getUnit_gets s₁).1 (Supplies.rest (t₁ := 8 * m) (by rw [← Nat.mul_succ]; exact hs) h₁)
    obtain ⟨hc, hg⟩ := hu m (by omega)
    refine ⟨s₂, ?_, by rw [Nat.mul_succ]; exact h₁.trans h₂, q₁.trans q₂⟩
    have : m + 1 + left = m + (left + 1) := by omega
    rw [this, e₁, vlqGetFrom_succ, e₂, Res.ok_andThen, unitContinues_shift h₁, unitGroup_shift h₁, Nat.add_zero, hc]
    simp [hg, unitsValue]

/-- What `VlqGet` does with the unit after those (46_vlq.md R242). -/
theorem vlqGet_next {L G m : Nat} {s : State} (hm : m < G) (hu : UnitsGoOn L m s) (hs : Supplies s (8 * m)) :
    ∃ s₁, Consumed (8 * m) s s₁ ∧ Quiet s s₁ ∧ Gets ((unitContinues s m).toNat, unitGroup s m) 8 s₁ (getUnit s₁) ∧
      vlqGet L G s = (getUnit s₁).andThen fun u s' =>
        (require (decide (u.2 * 2 ^ (7 * m) < 2 ^ L)) .malformedVlq s').andThen fun _ s' =>
          if u.1 = 0 then .ok (unitsValue s m + u.2 * 2 ^ (7 * m)) s'
          else vlqGetFrom L (G - 1 - m) (m + 1) (unitsValue s m + u.2 * 2 ^ (7 * m)) s' := by
  obtain ⟨s₁, e₁, h₁, q₁⟩ := vlqGet_goOn (G - 1 - m + 1) hu hs
  refine ⟨s₁, h₁, q₁, ?_, ?_⟩
  · have := getUnit_gets s₁
    rw [unitContinues_shift h₁, unitGroup_shift h₁, Nat.add_zero] at this
    exact this
  · have : G = m + (G - 1 - m + 1) := by omega
    rw [vlqGet, this, e₁, vlqGetFrom_succ]
    have : m + (G - 1 - m + 1) - 1 - m = G - 1 - m := by omega
    simp only [this]

end Sys2Proof.Machine
end

