-- ==== Sys2Proof/Laws/Sides.lean ====
section
/-! SUPPORT. What a command can do to the machine, from any state: the two kinds of move, one for each side, what the procedures
make of them, and one lemma per command that says how it can end. -/

namespace Sys2Proof.Machine

/-! ### Moves of the output side -/

/-- Output operations lead from s to u: the input side, the ports and the report are as before, the bytes handed over before are
kept, and the cursor of an open side still agrees with its channel. -/
structure WMove (s u : State) : Prop where
  R : u.R = s.R
  inp : u.inp = s.inp
  port : u.port = s.port
  queue : u.queue = s.queue
  quiet : Quiet s u
  index : s.W.k ≤ u.W.k
  kept : ∀ a, a < s.W.k → Memory.read u.outp.bytes a = Memory.read s.outp.bytes a
  inv : s.W.st = .opened → WriterInv s → WriterInv u

theorem WMove.refl (s : State) : WMove s s := ⟨rfl, rfl, rfl, rfl, Quiet.refl s, le_refl _, fun _ _ => rfl, fun _ h => h⟩

theorem WMove.trans {s t u : State} (h : WMove s t) (e : t.W.st = s.W.st) (g : WMove t u) : WMove s u where
  R := g.R.trans h.R
  inp := g.inp.trans h.inp
  port := g.port.trans h.port
  queue := g.queue.trans h.queue
  quiet := h.quiet.trans g.quiet
  index := h.index.trans g.index
  kept a ha := (g.kept a (Nat.lt_of_lt_of_le ha h.index)).trans (h.kept a ha)
  inv o i := g.inv (e.trans o) (h.inv o i)

/-- The outcome r of writing t bits from s, whatever the state is. -/
def WRes (t : Nat) (s : State) (r : Res Unit) : Prop :=
  match r with
  | .ok _ u => WMove s u ∧ u.W.st = s.W.st ∧ u.W.pos = s.W.pos + t ∧ u.W.base = s.W.base ∧ outLen u = outLen s + t
  | .stop c u => c = .channelIo ∧ WMove s u ∧ u.W.st = .failed

theorem acc_next {a b n : Nat} (ha : a < 2 ^ n) (hb : b < 2) : 2 * a + b < 2 ^ (n + 1) := by
  rw [Nat.pow_succ]
  omega

theorem keepBit_move {b : Nat} {s : State} (hb : b < 2) (hn : s.W.n + 1 ≠ 8) : WMove s (keepBit b s) where
  R := rfl
  inp := rfl
  port := rfl
  queue := rfl
  quiet := ⟨rfl, rfl⟩
  index := le_refl _
  kept _ _ := rfl
  inv o i := by
    obtain ⟨h1, h2, h3, h4, h5, h6, h7, h8, h9⟩ := i
    have h3 := h3 o
    simp only [WriterInv, keepBit, outLen, State.setW_W, State.setW_outp] at *
    exact ⟨acc_next h1 hb, by omega, fun _ => by omega, by omega, by omega, by omega, h7, h8, h9⟩

theorem handOver_move {b : Nat} {s : State} (hn : s.W.n + 1 = 8) : WMove s (handOver b s) where
  R := rfl
  inp := rfl
  port := rfl
  queue := rfl
  quiet := ⟨rfl, rfl⟩
  index := Nat.le_succ _
  kept a ha := Memory.read_write_other _ _ (by omega)
  inv o i := by
    obtain ⟨h1, h2, h3, h4, h5, h6, h7, h8, h9⟩ := i
    have hm : (handOver b s).outp.bytes = s.outp.bytes ++ [(s.W.k, BitVec.ofNat 8 (2 * s.W.acc + b))] := by
      refine Memory.write_append _ _ _ fun x hx => ?_
      rw [h8] at hx
      exact List.mem_range.1 hx
    have hr : (handOver b s).outp.bytes.map Prod.fst = List.range (s.W.k + 1) := by
      rw [hm, List.map_append, h8, List.range_succ]
      rfl
    simp only [WriterInv, outLen] at *
    refine ⟨Nat.one_pos, by simp [handOver], fun _ => by simp [handOver], ?_, ?_, ?_, ?_, hr, h9⟩
    · show s.W.pos + 1 ≤ 8 * (s.W.k + 1) + 0
      omega
    · show (8 * (s.W.k + 1) + 0 - (s.W.pos + 1)) % 8 = 0
      omega
    · show s.W.base ≤ s.W.pos + 1
      omega
    · exact h7

theorem refuseByte_move {b : Nat} {s : State} (hb : b < 2) (hn : s.W.n + 1 = 8) : WMove s (refuseByte b s) where
  R := rfl
  inp := rfl
  port := rfl
  queue := rfl
  quiet := ⟨rfl, rfl⟩
  index := le_refl _
  kept _ _ := rfl
  inv o i := by
    obtain ⟨h1, h2, h3, h4, h5, h6, h7, h8, h9⟩ := i
    simp only [WriterInv, outLen] at *
    refine ⟨acc_next h1 hb, ?_, fun h => by simp [refuseByte] at h, ?_, ?_, ?_, h7, h8, ?_⟩
    · show s.W.n + 1 ≤ 8
      omega
    · show s.W.pos + 1 ≤ 8 * s.W.k + (s.W.n + 1)
      omega
    · show (8 * s.W.k + (s.W.n + 1) - (s.W.pos + 1)) % 8 = 0
      omega
    · show s.W.base ≤ s.W.pos + 1
      omega
    · rw [o] at h9
      exact h9

theorem WRes.andThen {t₁ t₂ : Nat} {s : State} {r : Res Unit} {f : Unit → State → Res Unit} (h : WRes t₁ s r)
    (g : ∀ s₁, WRes t₂ s₁ (f () s₁)) : WRes (t₁ + t₂) s (r.andThen f) := by
  cases r with
  | stop c u => exact h
  | ok a u =>
    obtain ⟨h1, h2, h3, h4, h5⟩ := h
    have := g u
    rw [Res.ok_andThen]
    cases e : f () u with
    | ok a' u' =>
      rw [e] at this
      obtain ⟨g1, g2, g3, g4, g5⟩ := this
      exact ⟨h1.trans h2 g1, g2.trans h2, by rw [g3, h3]; omega, g4.trans h4, by rw [g5, h5]; omega⟩
    | stop c u' =>
      rw [e] at this
      exact ⟨this.1, h1.trans h2 this.2.1, this.2.2⟩

theorem putBit_moves (v : Nat) (s : State) : WRes 1 s (putBit (v % 2) s) := by
  have hb : v % 2 < 2 := Nat.mod_lt _ (by omega)
  rcases putBit_cases (v % 2) s with ⟨h, e⟩ | ⟨h, _, e⟩ | ⟨h, _, e⟩
  · rw [e]; exact ⟨keepBit_move hb h, rfl, rfl, rfl, rfl⟩
  · rw [e]; exact ⟨handOver_move h, rfl, rfl, rfl, by simp only [outLen, handOver, State.setW_W]; omega⟩
  · rw [e]; exact ⟨rfl, refuseByte_move hb h, rfl⟩

theorem putBits_moves (v t : Nat) (s : State) : WRes t s (putBits v t s) := by
  induction t generalizing s with
  | zero => exact ⟨WMove.refl s, rfl, rfl, rfl, rfl⟩
  | succ t ih =>
    have := (putBit_moves (v / 2 ^ t) s).andThen (f := fun _ s => putBits v t s) ih
    rwa [Nat.add_comm] at this

theorem fPut_moves (e sz : Nat) (f : Stored) (s : State) : WRes (1 + e + sz) s (fPut e sz f s) := by
  rw [Nat.add_assoc]
  exact (putBits_moves _ 1 s).andThen fun s₁ => (putBits_moves _ e s₁).andThen fun s₂ => putBits_moves _ sz s₂

theorem putSignSig_moves (so : Bool) (w : Nat) (f : Nat × Nat) (s : State) :
    WRes (if so then w else 1 + w) s (putSignSig so w f s) := by
  cases so with
  | true => exact putBits_moves _ w s
  | false => exact (putBits_moves _ 1 s).andThen fun s₁ => putBits_moves _ w s₁

theorem vlqPutWithin_moves (fuel v : Nat) (s : State) : ∃ t, WRes t s (vlqPutWithin fuel v s) := by
  induction fuel generalizing v s with
  | zero => exact ⟨0, WMove.refl s, rfl, rfl, rfl, rfl⟩
  | succ fuel ih =>
    have h8 : ∀ c g, WRes 8 s (putUnit c g s) := fun c g =>
      (putBits_moves c 1 s).andThen (t₂ := 7) (f := fun _ s => putBits g 7 s) fun s₁ => putBits_moves g 7 s₁
    rw [vlqPutWithin]
    have h := h8 (if v / 128 ≠ 0 then 1 else 0) (v % 128)
    cases e : putUnit (if v / 128 ≠ 0 then 1 else 0) (v % 128) s with
    | stop c u => rw [e] at h; exact ⟨8, h⟩
    | ok a u =>
      rw [e] at h
      rw [Res.ok_andThen]
      split
      · obtain ⟨t, ht⟩ := ih (v / 128) u
        refine ⟨8 + t, ?_⟩
        obtain ⟨h1, h2, h3, h4, h5⟩ := h
        cases e' : vlqPutWithin fuel (v / 128) u with
        | stop c u' => rw [e'] at ht; exact ⟨ht.1, h1.trans h2 ht.2.1, ht.2.2⟩
        | ok a' u' =>
          rw [e'] at ht
          obtain ⟨g1, g2, g3, g4, g5⟩ := ht
          exact ⟨h1.trans h2 g1, g2.trans h2, by rw [g3, h3]; omega, g4.trans h4, by rw [g5, h5]; omega⟩
      · exact ⟨8, h⟩

/-! ### Moves of the input side -/

/-- Input operations lead from s to u: the output side, the channel, the ports and the report are as before, and the cursor of an
open side still agrees with its channel. -/
structure RMove (s u : State) : Prop where
  W : u.W = s.W
  outp : u.outp = s.outp
  inp : u.inp = s.inp
  port : u.port = s.port
  queue : u.queue = s.queue
  quiet : Quiet s u
  index : s.R.k ≤ u.R.k
  forward : s.R.pos ≤ u.R.pos
  inv : s.R.st = .opened → ReaderInv s → ReaderInv u

theorem RMove.refl (s : State) : RMove s s := ⟨rfl, rfl, rfl, rfl, rfl, Quiet.refl s, le_refl _, le_refl _, fun _ h => h⟩

theorem RMove.trans {s t u : State} (h : RMove s t) (e : t.R.st = s.R.st) (g : RMove t u) : RMove s u where
  W := g.W.trans h.W
  outp := g.outp.trans h.outp
  inp := g.inp.trans h.inp
  port := g.port.trans h.port
  queue := g.queue.trans h.queue
  quiet := h.quiet.trans g.quiet
  index := h.index.trans g.index
  forward := h.forward.trans g.forward
  inv o i := g.inv (e.trans o) (h.inv o i)

/-- The outcome r of reading t bits from s, whatever the state is. -/
def RRes {α : Type} (t : Nat) (s : State) (r : Res α) : Prop :=
  match r with
  | .ok _ u => RMove s u ∧ u.R.st = s.R.st ∧ u.R.pos = s.R.pos + t ∧ u.R.base = s.R.base
  | .stop c u => (c = .channelIo ∨ c = .endOfInput) ∧ RMove s u ∧ u.R.st = .failed

theorem heldAgrees_iff {s : State} :
    heldAgrees s = true ↔ s.R.n = 0 ∨ ∃ b, chanRead s.inp (s.R.k - 1) = .byte b ∧ s.R.hold = b.toNat % 2 ^ s.R.n := by
  unfold heldAgrees
  cases h : chanRead s.inp (s.R.k - 1) <;> simp

theorem held_count {n pos : Nat} (h : n ≠ 0) (e : n = (8 - pos % 8) % 8) :
    n - 1 = (8 - (pos + 1) % 8) % 8 ∧ (pos + 7) / 8 = (pos + 1 + 7) / 8 := by
  omega

theorem dropHeld_move {s : State} (h : s.R.n ≠ 0) : RMove s (dropHeld s) where
  W := rfl
  outp := rfl
  inp := rfl
  port := rfl
  queue := rfl
  quiet := ⟨rfl, rfl⟩
  index := le_refl _
  forward := Nat.le_succ _
  inv o i := by
    obtain ⟨h1, h2, h3, h4, h5, h6, h7⟩ := i
    rw [heldAgrees_iff] at h6
    obtain ⟨b, hb, hh⟩ := h6.resolve_left h
    refine ⟨Nat.mod_lt _ (Nat.two_pow_pos _), ?_, ?_, ?_, h5, ?_, h7⟩
    · exact (held_count h h2).1
    · exact h3.trans (held_count h h2).2
    · exact Nat.le_succ_of_le h4
    · rw [heldAgrees_iff]
      refine .inr ⟨b, hb, ?_⟩
      show s.R.hold % 2 ^ (s.R.n - 1) = b.toNat % 2 ^ (s.R.n - 1)
      rw [hh, Nat.mod_mod_of_dvd _ (Nat.pow_dvd_pow 2 (by omega))]

theorem takeByte_move {b : Byte} {s : State} (h : s.R.n = 0) (hb : chanRead s.inp s.R.k = .byte b) : RMove s (takeByte b s) where
  W := rfl
  outp := rfl
  inp := rfl
  port := rfl
  queue := rfl
  quiet := ⟨rfl, rfl⟩
  index := Nat.le_succ _
  forward := Nat.le_succ _
  inv o i := by
    obtain ⟨h1, h2, h3, h4, h5, h6, h7⟩ := i
    refine ⟨Nat.mod_lt _ (Nat.two_pow_pos _), ?_, ?_, ?_, h5, ?_, h7⟩
    · show 7 = (8 - (s.R.pos + 1) % 8) % 8
      omega
    · show s.R.k + 1 = (s.R.pos + 1 + 7) / 8
      omega
    · show s.R.base ≤ s.R.pos + 1
      omega
    · rw [heldAgrees_iff]
      exact .inr ⟨b, hb, rfl⟩

theorem starve_move (s : State) : RMove s (starve s) where
  W := rfl
  outp := rfl
  inp := rfl
  port := rfl
  queue := rfl
  quiet := ⟨rfl, rfl⟩
  index := le_refl _
  forward := le_refl _
  inv o i := by
    obtain ⟨h1, h2, h3, h4, h5, h6, h7⟩ := i
    refine ⟨h1, h2, h3, h4, h5, h6, ?_⟩
    rw [o] at h7
    exact h7

theorem RRes.andThen {α β : Type} {t₁ t₂ : Nat} {s : State} {r : Res α} {f : α → State → Res β} (h : RRes t₁ s r)
    (g : ∀ a s₁, RRes t₂ s₁ (f a s₁)) : RRes (t₁ + t₂) s (r.andThen f) := by
  cases r with
  | stop c u => exact h
  | ok a u =>
    obtain ⟨h1, h2, h3, h4⟩ := h
    have := g a u
    rw [Res.ok_andThen]
    cases e : f a u with
    | ok a' u' =>
      rw [e] at this
      obtain ⟨g1, g2, g3, g4⟩ := this
      exact ⟨h1.trans h2 g1, g2.trans h2, by rw [g3, h3]; omega, g4.trans h4⟩
    | stop c u' =>
      rw [e] at this
      exact ⟨this.1, h1.trans h2 this.2.1, this.2.2⟩

theorem RRes.map {α β : Type} {t : Nat} {s : State} {r : Res α} (h : RRes t s r) (g : α → β) :
    RRes t s (r.andThen fun a s => .ok (g a) s) := by
  cases r <;> exact h

theorem missingStatus_cases (c : InChannel) (a : Nat) : missingStatus c a = .channelIo ∨ missingStatus c a = .endOfInput := by
  unfold missingStatus
  split <;> simp

theorem getBit_moves (s : State) : RRes 1 s (getBit s) := by
  rcases getBit_cases s with ⟨h, e⟩ | ⟨b, h, hb, e⟩ | ⟨h, _, e⟩
  · rw [e]; exact ⟨dropHeld_move h, rfl, rfl, rfl⟩
  · rw [e]; exact ⟨takeByte_move h hb, rfl, rfl, rfl⟩
  · rw [e]; exact ⟨missingStatus_cases _ _, starve_move s, rfl⟩

theorem getBitsFrom_moves (v t : Nat) (s : State) : RRes t s (getBitsFrom v t s) := by
  induction t generalizing v s with
  | zero => exact ⟨RMove.refl s, rfl, rfl, rfl⟩
  | succ t ih =>
    have := (getBit_moves s).andThen (f := fun b s => getBitsFrom (2 * v + b) t s) fun b s₁ => ih (2 * v + b) s₁
    rwa [Nat.add_comm] at this

theorem getBits_moves (t : Nat) (s : State) : RRes t s (getBits t s) := getBitsFrom_moves 0 t s

theorem fDec_moves (fmt : Fmt) (e sz : Nat) (s : State) : RRes (1 + e + sz) s (fDec fmt e sz s) := by
  rw [Nat.add_assoc]
  exact (getBits_moves 1 s).andThen fun _ s₁ => (getBits_moves e s₁).andThen fun _ s₂ => (getBits_moves sz s₂).map _

theorem getSign_moves (so : Bool) (s : State) : RRes (if so then 0 else 1) s (getSign so s) := by
  cases so with
  | true => exact ⟨RMove.refl s, rfl, rfl, rfl⟩
  | false => exact getBits_moves 1 s

end Sys2Proof.Machine
end

