-- ==== Sys2Proof/Laws/Commands.lean ====
section
/-! SUPPORT. How each command can end, from any state: turned away with nothing changed, or after moves of its own side. One lemma
for each kind of side says it of every command of that side. -/

namespace Sys2Proof.Machine

/-- The statuses a check can end a command with. -/
abbrev IsCheck (c : Status) : Prop :=
  c = .invalidSize ∨ c = .invalidCount ∨ c = .invalidBoundary ∨ c = .illegalState ∨ c = .undefinedInput ∨ c = .useAfterFailure

/-! ### The output side -/

/-- From s to u the position and the stream length have moved by one number of bits on an open side (20_memory.md R48), or neither
the position nor the channel index has moved. -/
def CountsAgree (s u : State) : Prop :=
  (s.W.st = .opened ∧ u.W.st = .opened ∧ ∃ t, u.W.pos = s.W.pos + t ∧ outLen u = outLen s + t) ∨
    (u.W.pos = s.W.pos ∧ u.W.k = s.W.k)

/-- What an output command that went past its checks has done; `rewinds` says that it may write the position itself. -/
structure WDone (rewinds : Prop) (s u : State) : Prop where
  move : WMove s u
  inv : WriterInv s → WriterInv u
  st : u.W.st = s.W.st ∨ u.W.st = .closed
  count : rewinds ∨ CountsAgree s u

/-- How the outcome r of an output command started in s can look. -/
def EndsW (rewinds : Prop) (s : State) (r : Res Reply) : Prop :=
  match r with
  | .ok _ u => WDone rewinds s u
  | .stop c u => (IsCheck c ∧ u = s) ∨ (c = .channelIo ∧ WMove s u ∧ (WriterInv s → WriterInv u) ∧ u.W.st ≠ .opened)

variable {rewinds : Prop}

theorem EndsW.ofCheckW {s : State} {f : Unit → State → Res Reply} (h : s.W.st = .opened → EndsW rewinds s (f () s)) :
    EndsW rewinds s ((checkW s).andThen f) := by
  cases e : s.W.st with
  | opened => rw [checkW_opened e]; exact h e
  | closed => rw [checkW_closed e]; exact .inl ⟨by decide, rfl⟩
  | failed => rw [checkW_failed e]; exact .inl ⟨by decide, rfl⟩

theorem EndsW.ofRequire {s : State} {p : Bool} {c : Status} {f : Unit → State → Res Reply} (hc : IsCheck c)
    (h : EndsW rewinds s (f () s)) : EndsW rewinds s ((require p c s).andThen f) := by
  rcases require_cases p c s with ⟨_, e⟩ | ⟨_, e⟩
  · rw [e]; exact h
  · rw [e]; exact .inl ⟨hc, rfl⟩

theorem EndsW.ofWRes {s : State} {t : Nat} {r : Res Unit} {v : Data} (o : s.W.st = .opened) (h : WRes t s r) :
    EndsW rewinds s (r.andThen fun _ s => done v s) := by
  cases r with
  | ok a u => exact ⟨h.1, h.1.inv o, .inl h.2.1, .inr (.inl ⟨o, h.2.1.trans o, t, h.2.2.1, h.2.2.2.2⟩)⟩
  | stop c u => exact .inr ⟨h.1, h.2.1, h.2.1.inv o, by rw [h.2.2]; simp⟩

theorem nullableWrite_ends {α : Type} {s : State} {t : Nat} {v : Data} {nl : Bool} {check : Option α} {put : α → State → Res Unit}
    (o : s.W.st = .opened) (h : ∀ f s₁, WRes t s₁ (put f s₁)) :
    EndsW rewinds s ((nullableWrite nl check put s).andThen fun _ s => done v s) := by
  by_cases hn : nl = true ∧ s.port.present = false
  · obtain ⟨rfl, hp⟩ := hn
    rw [nullableWrite_null check put hp]
    exact .ofWRes o (putBits_moves 0 1 s)
  · have hp : nl = false ∨ s.port.present = true := by
      cases nl
      · exact .inl rfl
      · exact .inr (by simpa using hn)
    cases check with
    | none =>
      rw [nullableWrite_none put hp]
      exact .inl ⟨by decide, rfl⟩
    | some f =>
      cases nl with
      | false => exact .ofWRes o (h f s)
      | true =>
        rw [nullableWrite_present f put (by simpa using hp)]
        exact .ofWRes o ((putBits_moves 1 1 s).andThen (h f))

theorem writeInt_ends (native : Nat) (u : Bool) (sz : Nat) (s : State) : EndsW rewinds s (writeInt native u sz s) :=
  .ofCheckW fun o => .ofRequire (by decide) <| .ofRequire (by decide) <| .ofWRes o (putBits_moves _ _ s)

theorem writePattern_ends (native : Nat) (s : State) : EndsW rewinds s (writePattern native s) :=
  .ofCheckW fun o => .ofWRes o (putBits_moves _ _ s)

theorem writeFloat_ends (fmt : Fmt) (nl : Bool) (sz ex : Nat) (s : State) : EndsW rewinds s (writeFloat fmt nl sz ex s) :=
  .ofCheckW fun o => .ofRequire (by decide) <| nullableWrite_ends o fun f s₁ => fPut_moves ex sz f s₁

theorem writeSignOnly_ends (fmt : Fmt) (c : Category) (nl : Bool) (s : State) : EndsW rewinds s (writeSignOnly fmt c nl s) :=
  .ofCheckW fun o => nullableWrite_ends o fun f s₁ => putBits_moves f 1 s₁

theorem writeSubnormal_ends (fmt : Fmt) (nl : Bool) (w : Nat) (s : State) : EndsW rewinds s (writeSubnormal fmt nl w s) :=
  .ofCheckW fun o => .ofRequire (by decide) <| nullableWrite_ends o fun f s₁ => putSignSig_moves false w f s₁

theorem writeNan_ends (fmt : Fmt) (nl so : Bool) (w : Nat) (s : State) : EndsW rewinds s (writeNan fmt nl so w s) :=
  .ofCheckW fun o => .ofRequire (by decide) <| nullableWrite_ends o fun f s₁ => putSignSig_moves so w f s₁

theorem writeVlq_ends (n : Nat) (s : State) : EndsW rewinds s (writeVlq n s) :=
  .ofCheckW fun o => .ofRequire (by decide) <| by
    obtain ⟨t, h⟩ := vlqPutWithin_moves (Nat.log2 (dinSigned n s).toNat / 7 + 1) (dinSigned n s).toNat s
    exact .ofWRes o h

/-- An ALIGNW that has written its bits moves the alignment point to a byte boundary. -/
theorem alignw_ends (s : State) : ∃ r, exec .alignw s = complete r ∧ EndsW rewinds s r := by
  refine ⟨_, rfl, .ofCheckW fun o => ?_⟩
  rcases require_cases (decide (0 < dinSigned 32 s)) .invalidBoundary s with ⟨hp, e⟩ | ⟨_, e⟩
  · rw [e, Res.ok_andThen]
    have hpos : 0 < dinSigned 32 s := of_decide_eq_true hp
    generalize dinSigned 32 s = d at hpos
    dsimp only
    have h := putBits_moves 0 (padTo d.toNat s.W.pos s.W.base) s
    cases e : putBits 0 (padTo d.toNat s.W.pos s.W.base) s with
    | stop c u =>
      rw [e] at h
      exact .inr ⟨h.1, h.2.1, h.2.1.inv o, by rw [h.2.2]; simp⟩
    | ok a u =>
      rw [e] at h
      obtain ⟨m, h2, h3, h4, h5⟩ := h
      rw [Res.ok_andThen]
      have key : WriterInv s → u.W.pos % 8 = 0 := by
        intro i
        obtain ⟨_, _, _, _, _, i6, i7, _⟩ := i
        rw [h3]
        have hm : (s.W.pos - s.W.base + padTo d.toNat s.W.pos s.W.base) % (8 * d.toNat) = 0 := by
          unfold padTo
          rw [Nat.add_mod_mod]
          have := Nat.mod_lt (s.W.pos - s.W.base) (show 0 < 8 * d.toNat by omega)
          have h5 := Nat.div_add_mod (s.W.pos - s.W.base) (8 * d.toNat)
          have : s.W.pos - s.W.base + (8 * d.toNat - (s.W.pos - s.W.base) % (8 * d.toNat)) =
              8 * d.toNat * ((s.W.pos - s.W.base) / (8 * d.toNat) + 1) := by
            rw [Nat.mul_add]; omega
          rw [this, Nat.mul_mod_right]
        have h8 := Nat.mod_mod_of_dvd (s.W.pos - s.W.base + padTo d.toNat s.W.pos s.W.base) (Nat.dvd_mul_right 8 d.toNat)
        rw [hm] at h8
        omega
      have inv' : s.W.st = .opened → WriterInv s → WriterInv (u.setW { u.W with base := u.W.pos }) := by
        intro o i
        obtain ⟨i1, i2, i3, i4, i5, i6, i7, i8, i9⟩ := m.inv o i
        exact ⟨i1, i2, i3, i4, i5, le_refl _, key i, i8, i9⟩
      exact ⟨⟨m.R, m.inp, m.port, m.queue, m.quiet, m.index, m.kept, inv'⟩, inv' o, .inl h2,
        .inr (.inl ⟨o, h2.trans o, _, h3, h5⟩)⟩
  · rw [e]; exact .inl ⟨by decide, rfl⟩

theorem resetw_ends (s : State) : ∃ r, exec .resetw s = complete r ∧ EndsW True s r := by
  refine ⟨_, rfl, .ofCheckW fun o => ?_⟩
  rcases require_cases (decide (s.W.n = 0)) .illegalState s with ⟨hp, e⟩ | ⟨_, e⟩
  · rw [e, Res.ok_andThen]
    have hn : s.W.n = 0 := of_decide_eq_true hp
    have inv' : WriterInv s → WriterInv (s.setW { s.W with pos := 0, base := 0 }) := by
      intro i
      obtain ⟨i1, i2, i3, i4, i5, i6, i7, i8, i9⟩ := i
      refine ⟨i1, i2, i3, Nat.zero_le _, ?_, le_refl _, rfl, i8, i9⟩
      show (8 * s.W.k + s.W.n - 0) % 8 = 0
      omega
    exact ⟨⟨rfl, rfl, rfl, rfl, ⟨rfl, rfl⟩, le_refl _, fun _ _ => rfl, fun _ => inv'⟩, inv', .inl rfl, .inl trivial⟩
  · rw [e]; exact .inl ⟨by decide, rfl⟩

theorem flushw_ends (s : State) : ∃ r, exec .flushw s = complete r ∧ EndsW rewinds s r := by
  refine ⟨_, rfl, .ofCheckW fun o => ?_⟩
  cases chanFlush s.outp with
  | ok => exact ⟨⟨rfl, rfl, rfl, rfl, ⟨rfl, rfl⟩, le_refl _, fun _ _ => rfl, fun _ i => i⟩, fun i => i, .inl rfl,
      .inr (.inr ⟨rfl, rfl⟩)⟩
  | ioerr =>
    have inv' : WriterInv s → WriterInv ((s.setOutp s.outp.flushed).setW { s.W with st := .failed }) := by
      intro i
      obtain ⟨i1, i2, i3, i4, i5, i6, i7, i8, i9⟩ := i
      rw [o] at i9
      exact ⟨i1, i2, fun h => by simp at h, i4, i5, i6, i7, i8, i9⟩
    exact .inr ⟨rfl, ⟨rfl, rfl, rfl, rfl, ⟨rfl, rfl⟩, le_refl _, fun _ _ => rfl, fun _ => inv'⟩, inv', by simp⟩

theorem closew_ends (s : State) : ∃ r, exec .closew s = complete r ∧ EndsW rewinds s r := by
  refine ⟨_, rfl, ?_⟩
  have inv' : s.W.st ≠ .closed → WriterInv s → WriterInv ((s.setOutp s.outp.closedOnce).setW { s.W with st := .closed }) := by
    intro o i
    obtain ⟨i1, i2, i3, i4, i5, i6, i7, i8, i9⟩ := i
    rw [if_neg o] at i9
    exact ⟨i1, i2, fun h => by simp at h, i4, i5, i6, i7, i8, by simp [OutChannel.closedOnce, i9]⟩
  have move : s.W.st ≠ .closed → WMove s ((s.setOutp s.outp.closedOnce).setW { s.W with st := .closed }) := fun o =>
    ⟨rfl, rfl, rfl, rfl, ⟨rfl, rfl⟩, le_refl _, fun _ _ => rfl, fun _ => inv' o⟩
  cases e : s.W.st with
  | closed => exact ⟨WMove.refl s, fun i => i, .inl rfl, .inr (.inr ⟨rfl, rfl⟩)⟩
  | opened =>
    have o : s.W.st ≠ .closed := by rw [e]; simp
    cases chanClose s.outp with
    | ok => exact ⟨move o, inv' o, .inr rfl, .inr (.inr ⟨rfl, rfl⟩)⟩
    | ioerr => exact .inr ⟨rfl, move o, inv' o, by simp⟩
  | failed =>
    have o : s.W.st ≠ .closed := by rw [e]; simp
    cases chanClose s.outp with
    | ok => exact ⟨move o, inv' o, .inr rfl, .inr (.inr ⟨rfl, rfl⟩)⟩
    | ioerr => exact .inr ⟨rfl, move o, inv' o, by simp⟩

/-! ### The input side -/

/-- What an input command that went past its checks has done. -/
structure RDone (s u : State) : Prop where
  W : u.W = s.W
  outp : u.outp = s.outp
  bytes : u.inp.bytes = s.inp.bytes
  fail : u.inp.fail = s.inp.fail
  port : u.port = s.port
  queue : u.queue = s.queue
  quiet : Quiet s u
  index : s.R.k ≤ u.R.k
  forward : s.R.pos ≤ u.R.pos
  inv : ReaderInv s → ReaderInv u

theorem RMove.done {s u : State} (h : RMove s u) (o : s.R.st = .opened) : RDone s u :=
  ⟨h.W, h.outp, by rw [h.inp], by rw [h.inp], h.port, h.queue, h.quiet, h.index, h.forward, h.inv o⟩

/-- How the outcome r of an input command started in s can look. -/
def EndsR {α : Type} (s : State) (r : Res α) : Prop :=
  match r with
  | .ok _ u => RDone s u ∧ (u.R.st = s.R.st ∨ u.R.st = .closed)
  | .stop c u => (IsCheck c ∧ u = s) ∨ ((c = .channelIo ∨ c = .endOfInput) ∧ RDone s u ∧ u.R.st ≠ .opened) ∨
      (c = .malformedVlq ∧ RDone s u ∧ u.R.st = s.R.st ∧ ∃ m, 1 ≤ m ∧ m ≤ 9 ∧ Consumed (8 * m) s u)

theorem EndsR.ofCheckR {s : State} {f : Unit → State → Res Reply} (h : s.R.st = .opened → EndsR s (f () s)) :
    EndsR s ((checkR s).andThen f) := by
  cases e : s.R.st with
  | opened => rw [checkR_opened e]; exact h e
  | closed => rw [checkR_closed e]; exact .inl ⟨by decide, rfl⟩
  | failed => rw [checkR_failed e]; exact .inl ⟨by decide, rfl⟩

theorem EndsR.ofRequire {s : State} {p : Bool} {c : Status} {f : Unit → State → Res Reply} (hc : IsCheck c)
    (h : EndsR s (f () s)) : EndsR s ((require p c s).andThen f) := by
  rcases require_cases p c s with ⟨_, e⟩ | ⟨_, e⟩
  · rw [e]; exact h
  · rw [e]; exact .inl ⟨hc, rfl⟩

theorem EndsR.ofRRes {α : Type} {s : State} {t : Nat} {r : Res α} (o : s.R.st = .opened) (h : RRes t s r) : EndsR s r := by
  cases r with
  | ok a u => exact ⟨h.1.done o, .inl h.2.1⟩
  | stop c u => exact .inr (.inl ⟨h.1, h.2.1.done o, by rw [h.2.2]; simp⟩)

theorem nullableRead_ends {s : State} {t : Nat} {nl : Bool} {get : State → Res Nat} (o : s.R.st = .opened)
    (h : ∀ s₁, RRes t s₁ (get s₁)) : EndsR s (nullableRead nl get s) := by
  cases nl with
  | false => exact .ofRRes o ((h s).map fun x => Reply.value (dout x))
  | true =>
    have h1 := getBits_moves 1 s
    show EndsR s ((getBits 1 s).andThen _)
    cases e : getBits 1 s with
    | stop c u => rw [e] at h1; exact .ofRRes (t := 1) o h1
    | ok p u =>
      rw [e] at h1
      rw [Res.ok_andThen]
      by_cases hp : p = 0
      · rw [if_pos hp]; exact .ofRRes (t := 1) o h1
      · rw [if_neg hp]
        have := RRes.andThen (r := .ok p u) (f := fun _ s => (get s).andThen fun x s => done (dout x) s) h1
          fun _ s₁ => (h s₁).map fun x => Reply.value (dout x)
        exact .ofRRes o this

theorem readInt_ends (native : Nat) (u : Bool) (sz : Nat) (s : State) : EndsR s (readInt native u sz s) :=
  .ofCheckR fun o => .ofRequire (by decide) <| .ofRRes o (((getBits_moves sz s).map _).map _)

theorem readPattern_ends (native : Nat) (s : State) : EndsR s (readPattern native s) :=
  .ofCheckR fun o => .ofRRes o ((getBits_moves native s).map _)

theorem readFloat_ends (fmt : Fmt) (nl : Bool) (sz ex : Nat) (s : State) : EndsR s (readFloat fmt nl sz ex s) :=
  .ofCheckR fun o => .ofRequire (by decide) <| nullableRead_ends o fun s₁ => fDec_moves fmt ex sz s₁

theorem readSignOnly_ends (fmt : Fmt) (ef : Nat) (nl : Bool) (s : State) : EndsR s (readSignOnly fmt ef nl s) :=
  .ofCheckR fun o => nullableRead_ends o fun s₁ => (getBits_moves 1 s₁).map _

theorem readSignSig_ends (fmt : Fmt) (ef : Nat) (nl so : Bool) (w : Nat) (s : State) : EndsR s (readSignSig fmt ef nl so w s) :=
  .ofCheckR fun o => .ofRequire (by decide) <| nullableRead_ends o fun s₁ =>
    (getSign_moves so s₁).andThen fun _ s₂ => (getBits_moves w s₂).map _

theorem getBits_ok {t v : Nat} {s u : State} (h : getBits t s = .ok v u) : v = inNumber s 0 t ∧ Consumed t s u ∧ Quiet s u := by
  rcases supplies_or_misses s t with hs | ⟨a, hf⟩
  · obtain ⟨u', e, c, q⟩ := getBits_consumes t s hs
    rw [h] at e
    obtain ⟨rfl, rfl⟩ := Res.ok.inj e
    exact ⟨rfl, c, q⟩
  · obtain ⟨u', e, _⟩ := getBits_breaks t a s hf
    rw [h] at e
    simp at e

theorem getUnit_moves (s : State) : RRes 8 s (getUnit s) :=
  (getBits_moves 1 s).andThen (t₂ := 7) fun _ s₁ => (getBits_moves 7 s₁).map _

theorem getUnit_ok {c g : Nat} {s u : State} (h : getUnit s = .ok (c, g) u) : Consumed 8 s u := by
  unfold getUnit at h
  cases e1 : getBits 1 s with
  | stop d w => rw [e1] at h; simp at h
  | ok a w =>
    rw [e1, Res.ok_andThen] at h
    cases e2 : getBits 7 w with
    | stop d x => rw [e2] at h; simp at h
    | ok b x =>
      rw [e2, Res.ok_andThen] at h
      obtain ⟨_, rfl⟩ := Res.ok.inj h
      exact (getBits_ok e1).2.1.trans (getBits_ok e2).2.1

/-- How `VlqGet` can end after its first units. -/
theorem vlqGetFrom_ends (L left i v : Nat) (s : State) :
    match vlqGetFrom L left i v s with
    | .ok _ u => RMove s u ∧ u.R.st = s.R.st
    | .stop c u => ((c = .channelIo ∨ c = .endOfInput) ∧ RMove s u ∧ u.R.st = .failed) ∨
      (c = .malformedVlq ∧ RMove s u ∧ u.R.st = s.R.st ∧ ∃ m, (left ≠ 0 → 1 ≤ m) ∧ m ≤ left ∧ Consumed (8 * m) s u) := by
  induction left generalizing i v s with
  | zero => exact .inr ⟨rfl, RMove.refl s, rfl, 0, fun h => absurd rfl h, le_refl _, Consumed.zero s⟩
  | succ left ih =>
    rw [vlqGetFrom_succ]
    have h := getUnit_moves s
    cases e : getUnit s with
    | stop c u => rw [e] at h; exact .inl h
    | ok a u =>
      obtain ⟨c, g⟩ := a
      have hc := getUnit_ok e
      rw [e] at h
      obtain ⟨m, hst, _⟩ := h
      rw [Res.ok_andThen]
      rcases require_cases (decide (g * 2 ^ (7 * i) < 2 ^ L)) .malformedVlq u with ⟨_, e2⟩ | ⟨_, e2⟩
      · rw [e2, Res.ok_andThen]
        by_cases h0 : c = 0
        · rw [if_pos h0]
          exact ⟨m, hst⟩
        · rw [if_neg h0]
          have := ih (i + 1) (v + g * 2 ^ (7 * i)) u
          cases e3 : vlqGetFrom L left (i + 1) (v + g * 2 ^ (7 * i)) u with
          | ok x u' =>
            rw [e3] at this
            exact ⟨m.trans hst this.1, this.2.trans hst⟩
          | stop d u' =>
            rw [e3] at this
            rcases this with ⟨h1, h2, h3⟩ | ⟨h1, h2, h3, k, _, hk, hcc⟩
            · exact .inl ⟨h1, m.trans hst h2, h3⟩
            · refine .inr ⟨h1, m.trans hst h2, h3.trans hst, k + 1, fun _ => by omega, by omega, ?_⟩
              have := hc.trans hcc
              have e8 : 8 * (k + 1) = 8 + 8 * k := by omega
              rw [e8]
              exact this
      · rw [e2]
        exact .inr ⟨rfl, m, hst, 1, fun _ => le_refl _, by omega, hc⟩

theorem readVlq_ends (L G : Nat) (hG : 1 ≤ G) (hG' : G ≤ 9) (s : State) : EndsR s (readVlq L G s) := by
  refine .ofCheckR fun o => ?_
  have h := vlqGetFrom_ends L G 0 0 s
  unfold vlqGet
  cases e : vlqGetFrom L G 0 0 s with
  | ok x u => rw [e] at h; exact ⟨h.1.done o, .inl h.2⟩
  | stop c u =>
    rw [e] at h
    rcases h with ⟨h1, h2, h3⟩ | ⟨h1, h2, h3, m, hm, hm', hc⟩
    · exact .inr (.inl ⟨h1, h2.done o, by rw [h3]; simp⟩)
    · exact .inr (.inr ⟨h1, h2.done o, h3, m, hm (by omega), by omega, hc⟩)

/-- An ALIGNR that has discarded its bits moves the alignment point to a byte boundary. -/
theorem alignr_ends (s : State) : ∃ r, exec .alignr s = complete r ∧ EndsR s r := by
  refine ⟨_, rfl, .ofCheckR fun o => ?_⟩
  rcases require_cases (decide (0 < dinSigned 32 s)) .invalidBoundary s with ⟨hp, e⟩ | ⟨_, e⟩
  · rw [e, Res.ok_andThen]
    have hpos : 0 < dinSigned 32 s := of_decide_eq_true hp
    generalize dinSigned 32 s = d at hpos
    dsimp only
    have h := getBits_moves (padTo d.toNat s.R.pos s.R.base) s
    cases e : getBits (padTo d.toNat s.R.pos s.R.base) s with
    | stop c u =>
      rw [e] at h
      exact .inr (.inl ⟨h.1, h.2.1.done o, by rw [h.2.2]; simp⟩)
    | ok a u =>
      rw [e] at h
      obtain ⟨m, h2, h3, h4⟩ := h
      rw [Res.ok_andThen]
      have key : ReaderInv s → u.R.pos % 8 = 0 := by
        intro i
        obtain ⟨_, _, _, i4, i5, _⟩ := i
        rw [h3]
        have hm : (s.R.pos - s.R.base + padTo d.toNat s.R.pos s.R.base) % (8 * d.toNat) = 0 := by
          unfold padTo
          rw [Nat.add_mod_mod]
          have := Nat.mod_lt (s.R.pos - s.R.base) (show 0 < 8 * d.toNat by omega)
          have h5 := Nat.div_add_mod (s.R.pos - s.R.base) (8 * d.toNat)
          have : s.R.pos - s.R.base + (8 * d.toNat - (s.R.pos - s.R.base) % (8 * d.toNat)) =
              8 * d.toNat * ((s.R.pos - s.R.base) / (8 * d.toNat) + 1) := by
            rw [Nat.mul_add]; omega
          rw [this, Nat.mul_mod_right]
        have h8 := Nat.mod_mod_of_dvd (s.R.pos - s.R.base + padTo d.toNat s.R.pos s.R.base) (Nat.dvd_mul_right 8 d.toNat)
        rw [hm] at h8
        omega
      refine ⟨⟨m.W, m.outp, by rw [← m.inp]; rfl, by rw [← m.inp]; rfl, m.port, m.queue, m.quiet, m.index, m.forward, fun i => ?_⟩, .inl h2⟩
      obtain ⟨i1, i2, i3, i4, i5, i6, i7⟩ := m.inv o i
      exact ⟨i1, i2, i3, le_refl _, key i, i6, i7⟩
  · rw [e]; exact .inl ⟨by decide, rfl⟩

theorem closer_ends (s : State) : ∃ r, exec .closer s = complete r ∧ EndsR s r := by
  refine ⟨_, rfl, ?_⟩
  have fin : s.R.st ≠ .closed → RDone s ((s.setInp s.inp.closedOnce).setR { s.R with st := .closed }) := by
    intro o
    refine ⟨rfl, rfl, rfl, rfl, rfl, rfl, ⟨rfl, rfl⟩, le_refl _, le_refl _, fun i => ?_⟩
    obtain ⟨i1, i2, i3, i4, i5, i6, i7⟩ := i
    rw [if_neg o] at i7
    exact ⟨i1, i2, i3, i4, i5, i6, by simp [InChannel.closedOnce, i7]⟩
  cases e : s.R.st with
  | closed => exact ⟨⟨rfl, rfl, rfl, rfl, rfl, rfl, Quiet.refl s, le_refl _, le_refl _, fun i => i⟩, .inl rfl⟩
  | opened =>
    have o : s.R.st ≠ .closed := by rw [e]; simp
    cases chanCloseIn s.inp with
    | ok => exact ⟨fin o, .inr rfl⟩
    | ioerr => exact .inr (.inl ⟨.inl rfl, fin o, by simp⟩)
  | failed =>
    have o : s.R.st ≠ .closed := by rw [e]; simp
    cases chanCloseIn s.inp with
    | ok => exact ⟨fin o, .inr rfl⟩
    | ioerr => exact .inr (.inl ⟨.inl rfl, fin o, by simp⟩)

/-! ### Every command -/

/-- How every command of the output side can end. -/
theorem exec_output_ends {i : Instr} (h : sideOf i = .output) (s : State) : ∃ r, exec i s = complete r ∧ EndsW (i = .resetw) s r := by
  cases i with
  | wrbits sz => exact ⟨_, rfl, .ofCheckW fun o => .ofRequire (by decide) <| .ofWRes o (putBits_moves _ _ s)⟩
  | skipw => exact ⟨_, rfl, .ofCheckW fun o => .ofRequire (by decide) <| .ofWRes o (putBits_moves _ _ s)⟩
  | alignw => exact alignw_ends s
  | resetw => simpa using resetw_ends s
  | flushw => exact flushw_ends s
  | closew => exact closew_ends s
  | wrint u sz => exact ⟨_, rfl, writeInt_ends 32 u sz s⟩
  | wrlong u sz => exact ⟨_, rfl, writeInt_ends 64 u sz s⟩
  | wrbyte u sz => exact ⟨_, rfl, writeInt_ends 8 u sz s⟩
  | wrshort u sz => exact ⟨_, rfl, writeInt_ends 16 u sz s⟩
  | wrchar sz =>
    exact ⟨_, rfl, .ofCheckW fun o => .ofRequire (by decide) <| .ofRequire (by decide) <| .ofWRes o (putBits_moves _ _ s)⟩
  | wrbool => exact ⟨_, rfl, writePattern_ends 1 s⟩
  | wrbyte8 => exact ⟨_, rfl, writePattern_ends 8 s⟩
  | wrshort16 => exact ⟨_, rfl, writePattern_ends 16 s⟩
  | wrint32 => exact ⟨_, rfl, writePattern_ends 32 s⟩
  | wrlong64 => exact ⟨_, rfl, writePattern_ends 64 s⟩
  | wrchar16 => exact ⟨_, rfl, writePattern_ends 16 s⟩
  | wrfloat nl sz ex => exact ⟨_, rfl, writeFloat_ends .F nl sz ex s⟩
  | wrdouble nl sz ex => exact ⟨_, rfl, writeFloat_ends .D nl sz ex s⟩
  | wrzerof nl => exact ⟨_, rfl, writeSignOnly_ends .F .zero nl s⟩
  | wrzerod nl => exact ⟨_, rfl, writeSignOnly_ends .D .zero nl s⟩
  | wrinff nl => exact ⟨_, rfl, writeSignOnly_ends .F .infinity nl s⟩
  | wrinfd nl => exact ⟨_, rfl, writeSignOnly_ends .D .infinity nl s⟩
  | wrsubf nl sz => exact ⟨_, rfl, writeSubnormal_ends .F nl sz s⟩
  | wrsubd nl sz => exact ⟨_, rfl, writeSubnormal_ends .D nl sz s⟩
  | wrnanf nl so sz => exact ⟨_, rfl, writeNan_ends .F nl so sz s⟩
  | wrnand nl so sz => exact ⟨_, rfl, writeNan_ends .D nl so sz s⟩
  | wrvlqi => exact ⟨_, rfl, writeVlq_ends 32 s⟩
  | wrvlql => exact ⟨_, rfl, writeVlq_ends 64 s⟩
  | _ => simp [sideOf] at h

/-- How every command of the input side can end. -/
theorem exec_input_ends {i : Instr} (h : sideOf i = .input) (s : State) : ∃ r, exec i s = complete r ∧ EndsR s r := by
  cases i with
  | rdbits sz => exact ⟨_, rfl, .ofCheckR fun o => .ofRequire (by decide) <| .ofRRes o ((getBits_moves sz s).map _)⟩
  | skipr => exact ⟨_, rfl, .ofCheckR fun o => .ofRequire (by decide) <| .ofRRes o ((getBits_moves _ s).map fun _ => Reply.value 0)⟩
  | alignr => exact alignr_ends s
  | closer => exact closer_ends s
  | rdint u sz => exact ⟨_, rfl, readInt_ends 32 u sz s⟩
  | rdlong u sz => exact ⟨_, rfl, readInt_ends 64 u sz s⟩
  | rdbyte u sz => exact ⟨_, rfl, readInt_ends 8 u sz s⟩
  | rdshort u sz => exact ⟨_, rfl, readInt_ends 16 u sz s⟩
  | rdchar sz => exact ⟨_, rfl, .ofCheckR fun o => .ofRequire (by decide) <| .ofRRes o ((getBits_moves sz s).map _)⟩
  | rdbool => exact ⟨_, rfl, readPattern_ends 1 s⟩
  | rdbyte8 => exact ⟨_, rfl, readPattern_ends 8 s⟩
  | rdshort16 => exact ⟨_, rfl, readPattern_ends 16 s⟩
  | rdint32 => exact ⟨_, rfl, readPattern_ends 32 s⟩
  | rdlong64 => exact ⟨_, rfl, readPattern_ends 64 s⟩
  | rdchar16 => exact ⟨_, rfl, readPattern_ends 16 s⟩
  | rdfloat nl sz ex => exact ⟨_, rfl, readFloat_ends .F nl sz ex s⟩
  | rddouble nl sz ex => exact ⟨_, rfl, readFloat_ends .D nl sz ex s⟩
  | rdzerof nl => exact ⟨_, rfl, readSignOnly_ends .F _ nl s⟩
  | rdzerod nl => exact ⟨_, rfl, readSignOnly_ends .D _ nl s⟩
  | rdinff nl => exact ⟨_, rfl, readSignOnly_ends .F _ nl s⟩
  | rdinfd nl => exact ⟨_, rfl, readSignOnly_ends .D _ nl s⟩
  | rdsubf nl sz => exact ⟨_, rfl, readSignSig_ends .F _ nl false sz s⟩
  | rdsubd nl sz => exact ⟨_, rfl, readSignSig_ends .D _ nl false sz s⟩
  | rdnanf nl so sz => exact ⟨_, rfl, readSignSig_ends .F _ nl so sz s⟩
  | rdnand nl so sz => exact ⟨_, rfl, readSignSig_ends .D _ nl so sz s⟩
  | rdvlqi => exact ⟨_, rfl, readVlq_ends 31 5 (by omega) (by omega) s⟩
  | rdvlql => exact ⟨_, rfl, readVlq_ends 63 9 (by omega) (by omega) s⟩
  | _ => simp [sideOf] at h

/-- A detector always answers (45_float_detectors.md R229). -/
theorem exec_neither_ends {i : Instr} (h : sideOf i = .neither) (s : State) :
    ∃ v, exec i s = complete (.ok (.value v) s) := by
  cases i <;> first | exact ⟨_, rfl⟩ | simp [sideOf] at h

/-- Everything the command i, started in s, has done by the time it reports the status c from the state u. -/
structure Ran (i : Instr) (s u : State) (c : Status) : Prop where
  quiet : Quiet s u
  port : u.port = s.port
  queue : u.queue = s.queue
  otherW : sideOf i ≠ .output → u.W = s.W ∧ u.outp = s.outp
  otherR : sideOf i ≠ .input → u.R = s.R ∧ u.inp = s.inp
  check : IsCheck c → u = s
  notIllegal : c ≠ .illegalCommand
  notFaulted : c ≠ .faulted
  malformed : c = .malformedVlq → ∃ m, 1 ≤ m ∧ m ≤ 9 ∧ Consumed (8 * m) s u
  kept : ∀ a, a < s.W.k → Memory.read u.outp.bytes a = Memory.read s.outp.bytes a
  windex : s.W.k ≤ u.W.k
  rindex : s.R.k ≤ u.R.k
  wcount : c = .ok → i ≠ .resetw → CountsAgree s u
  rforward : s.R.pos ≤ u.R.pos
  bytes : u.inp.bytes = s.inp.bytes
  fail : u.inp.fail = s.inp.fail
  winv : WriterInv s → WriterInv u
  rinv : ReaderInv s → ReaderInv u
  io : c.cls = .io → (u.W.st ≠ .opened ∧ u.R = s.R ∧ u.inp = s.inp) ∨ (u.R.st ≠ .opened ∧ u.W = s.W ∧ u.outp = s.outp)
  failed : u.W.st = .failed ∨ u.R.st = .failed → c.cls = .io ∨ s.W.st = .failed ∨ s.R.st = .failed

theorem Ran.ofCheck (i : Instr) (s : State) {c : Status} (h : IsCheck c) : Ran i s s c where
  quiet := Quiet.refl s
  port := rfl
  queue := rfl
  otherW _ := ⟨rfl, rfl⟩
  otherR _ := ⟨rfl, rfl⟩
  check _ := rfl
  notIllegal := by rcases h with rfl | rfl | rfl | rfl | rfl | rfl <;> simp
  notFaulted := by rcases h with rfl | rfl | rfl | rfl | rfl | rfl <;> simp
  malformed e := by rcases h with rfl | rfl | rfl | rfl | rfl | rfl <;> simp at e
  kept _ _ := rfl
  windex := le_refl _
  rindex := le_refl _
  wcount _ _ := .inr ⟨rfl, rfl⟩
  rforward := le_refl _
  bytes := rfl
  fail := rfl
  winv h := h
  rinv h := h
  io e := by rcases h with rfl | rfl | rfl | rfl | rfl | rfl <;> simp [Status.cls] at e
  failed h := .inr h

theorem Ran.ofW {i : Instr} {s u : State} {c : Status} (hs : sideOf i = .output) (m : WMove s u) (hi : WriterInv s → WriterInv u)
    (k : c = .ok → i ≠ .resetw → CountsAgree s u)
    (h : (c = .ok ∧ (u.W.st = s.W.st ∨ u.W.st = .closed)) ∨ (c = .channelIo ∧ u.W.st ≠ .opened)) : Ran i s u c where
  quiet := m.quiet
  port := m.port
  queue := m.queue
  otherW e := absurd hs e
  otherR _ := ⟨m.R, m.inp⟩
  check e := by rcases h with ⟨rfl, _⟩ | ⟨rfl, _⟩ <;> simp [IsCheck] at e
  notIllegal := by rcases h with ⟨rfl, _⟩ | ⟨rfl, _⟩ <;> simp
  notFaulted := by rcases h with ⟨rfl, _⟩ | ⟨rfl, _⟩ <;> simp
  malformed e := by rcases h with ⟨rfl, _⟩ | ⟨rfl, _⟩ <;> simp at e
  kept := m.kept
  windex := m.index
  rindex := by rw [m.R]
  wcount := k
  rforward := by rw [m.R]
  bytes := by rw [m.inp]
  fail := by rw [m.inp]
  winv := hi
  rinv j := by simp only [ReaderInv, heldAgrees] at *; rw [m.R, m.inp]; exact j
  io e := by
    rcases h with ⟨rfl, _⟩ | ⟨rfl, h⟩
    · simp [Status.cls] at e
    · exact .inl ⟨h, m.R, m.inp⟩
  failed e := by
    rcases h with ⟨rfl, h⟩ | ⟨rfl, _⟩
    · rw [m.R] at e
      rcases e with e | e
      · rcases h with h | h
        · exact .inr (.inl (h ▸ e))
        · simp [h] at e
      · exact .inr (.inr e)
    · exact .inl rfl

theorem Ran.ofR {i : Instr} {s u : State} {c : Status} (hs : sideOf i = .input) (m : RDone s u)
    (h : (c = .ok ∧ (u.R.st = s.R.st ∨ u.R.st = .closed)) ∨ ((c = .channelIo ∨ c = .endOfInput) ∧ u.R.st ≠ .opened) ∨
      (c = .malformedVlq ∧ u.R.st = s.R.st ∧ ∃ m, 1 ≤ m ∧ m ≤ 9 ∧ Consumed (8 * m) s u)) : Ran i s u c where
  quiet := m.quiet
  port := m.port
  queue := m.queue
  otherW _ := ⟨m.W, m.outp⟩
  otherR e := absurd hs e
  check e := by rcases h with ⟨rfl, _⟩ | ⟨rfl | rfl, _⟩ | ⟨rfl, _⟩ <;> simp [IsCheck] at e
  notIllegal := by rcases h with ⟨rfl, _⟩ | ⟨rfl | rfl, _⟩ | ⟨rfl, _⟩ <;> simp
  notFaulted := by rcases h with ⟨rfl, _⟩ | ⟨rfl | rfl, _⟩ | ⟨rfl, _⟩ <;> simp
  malformed e := by
    rcases h with ⟨rfl, _⟩ | ⟨rfl | rfl, _⟩ | ⟨_, _, h⟩
    · simp at e
    · simp at e
    · simp at e
    · exact h
  kept _ _ := by rw [m.outp]
  windex := by rw [m.W]
  rindex := m.index
  wcount _ _ := .inr ⟨by rw [m.W], by rw [m.W]⟩
  rforward := m.forward
  bytes := m.bytes
  fail := m.fail
  winv j := by simp only [WriterInv, outLen] at *; rw [m.W, m.outp]; exact j
  rinv := m.inv
  io e := by
    rcases h with ⟨rfl, _⟩ | ⟨_, h⟩ | ⟨rfl, _⟩
    · simp [Status.cls] at e
    · exact .inr ⟨h, m.W, m.outp⟩
    · simp [Status.cls] at e
  failed e := by
    rw [m.W] at e
    rcases h with ⟨rfl, h⟩ | ⟨rfl | rfl, _⟩ | ⟨rfl, h, _⟩
    · rcases e with e | e
      · exact .inr (.inl e)
      · rcases h with h | h
        · exact .inr (.inr (h ▸ e))
        · simp [h] at e
    · exact .inl rfl
    · exact .inl rfl
    · rw [h] at e; exact .inr e

/-- How a command of any side ends: it reports one status, and a failure answers DOUT = 0 and ISNULL = 0. -/
theorem exec_ran (i : Instr) (s : State) :
    ∃ c v z u, exec i s = .next (report c v z u) ∧ (c ≠ .ok → v = 0 ∧ z = false) ∧ Ran i s u c := by
  cases hs : sideOf i with
  | neither =>
    obtain ⟨v, e⟩ := exec_neither_ends hs s
    exact ⟨.ok, v, false, s, e, fun h => absurd rfl h, Quiet.refl s, rfl, rfl, fun _ => ⟨rfl, rfl⟩, fun _ => ⟨rfl, rfl⟩, fun _ => rfl, by simp,
      by simp, by simp, fun _ _ => rfl, le_refl _, le_refl _, fun _ _ => .inr ⟨rfl, rfl⟩, le_refl _, rfl, rfl, fun h => h,
      fun h => h, by simp [Status.cls], fun h => .inr h⟩
  | output =>
    obtain ⟨r, e, k⟩ := exec_output_ends hs s
    rcases complete_cases r with ⟨v, u, rfl, e'⟩ | ⟨u, rfl, e'⟩ | ⟨c, u, rfl, e'⟩
    · exact ⟨.ok, v, false, u, e.trans e', fun h => absurd rfl h,
        .ofW hs k.move k.inv (fun _ hi => k.count.resolve_left hi) (.inl ⟨rfl, k.st⟩)⟩
    · exact ⟨.ok, 0, true, u, e.trans e', fun h => absurd rfl h,
        .ofW hs k.move k.inv (fun _ hi => k.count.resolve_left hi) (.inl ⟨rfl, k.st⟩)⟩
    · rcases k with ⟨hc, rfl⟩ | ⟨hc, m, hi, h⟩
      · exact ⟨c, 0, false, u, e.trans e', fun _ => ⟨rfl, rfl⟩, .ofCheck i u hc⟩
      · exact ⟨c, 0, false, u, e.trans e', fun _ => ⟨rfl, rfl⟩, .ofW hs m hi (fun e => by rw [hc] at e; simp at e) (.inr ⟨hc, h⟩)⟩
  | input =>
    obtain ⟨r, e, k⟩ := exec_input_ends hs s
    rcases complete_cases r with ⟨v, u, rfl, e'⟩ | ⟨u, rfl, e'⟩ | ⟨c, u, rfl, e'⟩
    · exact ⟨.ok, v, false, u, e.trans e', fun h => absurd rfl h, .ofR hs k.1 (.inl ⟨rfl, k.2⟩)⟩
    · exact ⟨.ok, 0, true, u, e.trans e', fun h => absurd rfl h, .ofR hs k.1 (.inl ⟨rfl, k.2⟩)⟩
    · rcases k with ⟨hc, rfl⟩ | ⟨hc, m, h⟩ | ⟨hc, m, h⟩
      · exact ⟨c, 0, false, u, e.trans e', fun _ => ⟨rfl, rfl⟩, .ofCheck i u hc⟩
      · exact ⟨c, 0, false, u, e.trans e', fun _ => ⟨rfl, rfl⟩, .ofR hs m (.inr (.inl ⟨hc, h⟩))⟩
      · exact ⟨c, 0, false, u, e.trans e', fun _ => ⟨rfl, rfl⟩, .ofR hs m (.inr (.inr ⟨hc, h⟩))⟩

end Sys2Proof.Machine
end

