-- ==== Sys2Proof/Laws/Float.lean ====
section
/-! SUPPORT. The fields of native patterns and of stored values: their bounds, what assembling and taking apart gives, and what the
general float procedures write and read (43_float_codec.md R170 to R173). -/

namespace Sys2Proof.Machine

theorem Fmt.width_eq (fmt : Fmt) : fmt.width - 1 = fmt.expBits + fmt.sigBits := by cases fmt <;> rfl

theorem Fmt.expMin_pos (fmt : Fmt) : 1 ≤ fmt.expMin := by
  cases fmt <;> exact Nat.succ_pos _

theorem Fmt.sigMin_pos (fmt : Fmt) : 1 ≤ fmt.sigMin := by
  cases fmt <;> exact Nat.succ_pos _

/-- The native widths are legal sizes whatever the minimums are (00_scope.md R9). -/
theorem Fmt.expMin_le (fmt : Fmt) : fmt.expMin ≤ fmt.expBits := by
  cases fmt
  · exact Config.floatExpMinPred.isLt
  · exact Config.doubleExpMinPred.isLt

theorem Fmt.sigMin_le (fmt : Fmt) : fmt.sigMin ≤ fmt.sigBits := by
  cases fmt
  · exact Config.floatSigMinPred.isLt
  · exact Config.doubleSigMinPred.isLt

/-- The check of the general float sizes (43_float_codec.md R171). -/
theorem legalFloatSize_iff (fmt : Fmt) (e sz : Nat) :
    (!(decide (e < fmt.expMin) || decide (e > fmt.expBits) || decide (sz < fmt.sigMin) || decide (sz > fmt.sigBits))) = true ↔
      fmt.expMin ≤ e ∧ e ≤ fmt.expBits ∧ fmt.sigMin ≤ sz ∧ sz ≤ fmt.sigBits := by
  simp
  omega

/-! ### Native patterns -/

theorem signOf_lt (fmt : Fmt) (x : Nat) : signOf fmt x < 2 := Nat.mod_lt _ (by omega)

theorem expOf_lt (fmt : Fmt) (x : Nat) : expOf fmt x < 2 ^ fmt.expBits := Nat.mod_lt _ (Nat.two_pow_pos _)

theorem sigOf_lt (fmt : Fmt) (x : Nat) : sigOf fmt x < 2 ^ fmt.sigBits := Nat.mod_lt _ (Nat.two_pow_pos _)

theorem highSig_lt (fmt : Fmt) {s : Nat} (h : s ≤ fmt.sigBits) (x : Nat) : highSig fmt s x < 2 ^ s := by
  unfold highSig
  rw [Nat.div_lt_iff_lt_mul (Nat.two_pow_pos _), ← Nat.pow_add]
  have : s + (fmt.sigBits - s) = fmt.sigBits := by omega
  rw [this]
  exact sigOf_lt fmt x

/-- A pattern is the assembly of its fields. -/
theorem assemble_fields (fmt : Fmt) {x : Nat} (h : x < 2 ^ fmt.width) :
    assemble fmt (signOf fmt x) (expOf fmt x) (sigOf fmt x) = x := by
  cases fmt <;> simp only [assemble, signOf, expOf, sigOf, Fmt.width, Fmt.expBits, Fmt.sigBits] at * <;> omega

theorem signOf_assemble (fmt : Fmt) {sg ef mf : Nat} (h1 : sg < 2) (h2 : ef < 2 ^ fmt.expBits) (h3 : mf < 2 ^ fmt.sigBits) :
    signOf fmt (assemble fmt sg ef mf) = sg := by
  cases fmt <;> simp only [assemble, signOf, Fmt.width, Fmt.expBits, Fmt.sigBits] at * <;> omega

theorem expOf_assemble (fmt : Fmt) {sg ef mf : Nat} (h2 : ef < 2 ^ fmt.expBits) (h3 : mf < 2 ^ fmt.sigBits) :
    expOf fmt (assemble fmt sg ef mf) = ef := by
  cases fmt <;> simp only [assemble, expOf, Fmt.width, Fmt.expBits, Fmt.sigBits] at * <;> omega

theorem sigOf_assemble (fmt : Fmt) {sg ef mf : Nat} (h3 : mf < 2 ^ fmt.sigBits) : sigOf fmt (assemble fmt sg ef mf) = mf := by
  cases fmt <;> simp only [assemble, sigOf, Fmt.width, Fmt.sigBits] at * <;> omega

/-- Kept significand bits, left-aligned over zeros, stay within the native significand. -/
theorem shifted_lt (fmt : Fmt) {s t : Nat} (h : s ≤ fmt.sigBits) (ht : t < 2 ^ s) : t * 2 ^ (fmt.sigBits - s) < 2 ^ fmt.sigBits := by
  have : (2 : Nat) ^ fmt.sigBits = 2 ^ s * 2 ^ (fmt.sigBits - s) := by rw [← Nat.pow_add]; congr 1; omega
  rw [this]
  exact Nat.mul_lt_mul_of_pos_right ht (Nat.two_pow_pos _)

theorem forceNonZero_lt {s t : Nat} (h : 1 ≤ s) (ht : t < 2 ^ s) : forceNonZero t < 2 ^ s := by
  unfold forceNonZero
  split
  · exact Nat.one_lt_two_pow (by omega)
  · exact ht

/-! ### Stored fields -/

/-- The fields of a value fit their widths (43_float_codec.md R172). -/
theorem fEncFields_bounds {fmt : Fmt} {e sz x : Nat} {f : Stored} (he : 1 ≤ e) (hs : 1 ≤ sz) (hs' : sz ≤ fmt.sigBits)
    (h : fEncFields fmt e sz x = some f) : f.sg < 2 ∧ f.fe < 2 ^ e ∧ f.t < 2 ^ sz := by
  have h1 := signOf_lt fmt x
  have ht := highSig_lt fmt hs' x
  have he2 : (2 : Nat) ^ e = 2 * 2 ^ (e - 1) := by rw [← Nat.pow_succ']; congr 1; omega
  have hp := Nat.two_pow_pos (e - 1)
  unfold fEncFields at h
  dsimp only at h
  split at h
  · cases h
    exact ⟨h1, by simp only [ones]; omega, forceNonZero_lt hs ht⟩
  · split at h
    · cases h
      exact ⟨h1, by simp only [ones]; omega, ht⟩
    · split at h
      · cases h
        exact ⟨h1, Nat.two_pow_pos _, ht⟩
      · split at h
        · simp at h
        · cases h
          refine ⟨h1, ?_, ht⟩
          simp only [biasOf] at *
          omega

/-- `FPut` writes the number its fields spell (43_float_codec.md R173). -/
theorem fPut_puts (e sz : Nat) {f : Stored} {s : State} (hn : s.W.n < 8) (he : f.fe < 2 ^ e) (ht : f.t < 2 ^ sz) :
    Puts (storedNumber e sz f) (1 + e + sz) s (fPut e sz f s) := by
  have h := (putBits_puts f.sg 1 hn).andThen (t₂ := e + sz)
    (f := fun _ s => (putBits f.fe e s).andThen fun _ s => putBits f.t sz s) fun s₁ h₁ _ =>
      (putBits_puts f.fe e h₁.ready).andThen (f := fun _ s => putBits f.t sz s) fun s₂ h₂ _ => putBits_puts f.t sz h₂.ready
  have hm : (f.fe * 2 ^ sz + f.t % 2 ^ sz) % 2 ^ (e + sz) = f.fe * 2 ^ sz + f.t := by
    rw [Nat.mod_eq_of_lt ht]
    apply Nat.mod_eq_of_lt
    rw [Nat.pow_add]
    calc f.fe * 2 ^ sz + f.t < f.fe * 2 ^ sz + 2 ^ sz := by omega
      _ = (f.fe + 1) * 2 ^ sz := by ring
      _ ≤ 2 ^ e * 2 ^ sz := Nat.mul_le_mul_right _ he
  rw [hm, ← Nat.add_assoc, ← Nat.add_assoc] at h
  exact h

/-- `FDec` rebuilds the pattern from the fields it reads (43_float_codec.md R173). -/
theorem fDec_gets (fmt : Fmt) (e sz : Nat) (s : State) :
    Gets (fDecFields fmt e sz (storedFields e sz (inNumber s 0 (1 + e + sz)))) (1 + e + sz) s (fDec fmt e sz s) := by
  have hsg : inNumber s 0 (1 + e + sz) / 2 ^ (e + sz) = inNumber s 0 1 := by
    rw [Nat.add_assoc, inNumber_add, Nat.mul_comm, Nat.mul_add_div (Nat.two_pow_pos _),
      Nat.div_eq_of_lt (inNumber_lt _ _ _), Nat.add_zero]
  have hfe : inNumber s 0 (1 + e + sz) / 2 ^ sz % 2 ^ e = inNumber s 1 e := by
    rw [inNumber_add, Nat.mul_comm, Nat.mul_add_div (Nat.two_pow_pos _), Nat.div_eq_of_lt (inNumber_lt _ _ _), Nat.add_zero,
      inNumber_add, Nat.mul_comm, Nat.mul_add_mod, Nat.mod_eq_of_lt (inNumber_lt _ _ _)]
  have ht : inNumber s 0 (1 + e + sz) % 2 ^ sz = inNumber s (1 + e) sz := by
    rw [inNumber_add, Nat.mul_comm, Nat.mul_add_mod, Nat.mod_eq_of_lt (inNumber_lt _ _ _), Nat.zero_add]
  rw [storedFields, hsg, hfe, ht, Nat.add_assoc]
  refine (getBits_gets 1 s).andThen fun s₁ h₁ _ => ?_
  refine Gets.andThen (x := inNumber s 1 e) (by rw [← Nat.add_zero 1, ← inNumber_shift h₁]; exact getBits_gets e s₁)
    fun s₂ h₂ _ => ?_
  have h₁₂ := h₁.trans h₂
  have := (getBits_gets sz s₂).map fun t => fDecFields fmt e sz ⟨inNumber s 0 1, inNumber s 1 e, t⟩
  rw [inNumber_shift h₁₂, Nat.add_zero] at this
  exact this

end Sys2Proof.Machine
end

