-- ==== Sys2Proof/Laws/Operands.lean ====
section
/-! SUPPORT. The operand and result functions of Machine/Operands.lean and Machine/Integer.lean in the terms of BitVec. -/

namespace Sys2Proof.Machine

/-- `val_N` of the low N bits of a number is their signed value. -/
theorem valS_mod (N v : Nat) : valS N (v % 2 ^ N) = (BitVec.ofNat N v).toInt := by
  unfold valS
  rw [BitVec.toInt_eq_msb_cond]
  have : (BitVec.ofNat N v).msb = (v % 2 ^ N).testBit (N - 1) := by
    rw [BitVec.msb_eq_getLsbD_last, ← BitVec.testBit_toNat, BitVec.toNat_ofNat]
  rw [this, BitVec.toNat_ofNat]
  norm_cast

theorem dinSigned_eq (N : Nat) (s : State) : dinSigned N s = dinInt N s := by
  have : s.port.din.setWidth N = BitVec.ofNat N s.port.din.toNat := by simp
  rw [dinInt, this]
  exact valS_mod N _

theorem dinBits_64 (s : State) : dinBits 64 s = s.port.din.toNat := Nat.mod_eq_of_lt s.port.din.isLt

/-- The two's-complement pattern of a signed value is the value itself. -/
theorem truncS_toInt {N : Nat} (b : BitVec N) : truncS N b.toInt = b.toNat := by
  unfold truncS
  have : (2 ^ N : Int) = ((2 ^ N : Nat) : Int) := by norm_cast
  rw [this, BitVec.toInt_eq_toNat_bmod, Int.bmod_emod, Int.emod_eq_of_lt (by omega) (by exact_mod_cast b.isLt), Int.toNat_natCast]

/-- A signed result on DOUT is the sign extension of its pattern to the native width (30_encoding.md R69). -/
theorem doutSigned_valS {N sz p : Nat} (hp : p < 2 ^ sz) (h : sz ≤ N) :
    doutSigned N (valS sz p) = ((BitVec.ofNat sz p).signExtend N).setWidth 64 := by
  have e : valS sz p = (BitVec.ofNat sz p).toInt := by rw [← valS_mod, Nat.mod_eq_of_lt hp]
  rw [doutSigned, e, ← BitVec.toInt_signExtend_of_le h, truncS_toInt, dout]
  apply BitVec.eq_of_toNat_eq
  simp

/-- An unsigned result on DOUT is the zero extension of its pattern. -/
theorem doutSigned_natCast {N sz p : Nat} (hp : p < 2 ^ sz) (h : sz ≤ N) :
    doutSigned N (p : Int) = ((BitVec.ofNat sz p).setWidth N).setWidth 64 := by
  have hN : p < 2 ^ N := Nat.lt_of_lt_of_le hp (Nat.pow_le_pow_right (by omega) h)
  have : truncS N (p : Int) = p := by
    unfold truncS
    have : (2 ^ N : Int) = ((2 ^ N : Nat) : Int) := by norm_cast
    rw [this, Int.emod_eq_of_lt (by omega) (by exact_mod_cast hN), Int.toNat_natCast]
  rw [doutSigned, this, dout]
  apply BitVec.eq_of_toNat_eq
  simp [Nat.mod_eq_of_lt hp, Nat.mod_eq_of_lt hN]

/-- DOUT of a sized read (42_integer_codec.md R132). -/
theorem doutSigned_intOfPattern {N sz p : Nat} (u : Bool) (hp : p < 2 ^ sz) (h : sz ≤ N) :
    doutSigned N (intOfPattern u sz p) = extended N u sz p := by
  cases u with
  | true => exact doutSigned_natCast hp h
  | false => exact doutSigned_valS hp h

theorem inCodomain_iff (u : Bool) (sz : Nat) (v : Int) : inCodomain u sz v = true ↔ IntCodomain u sz v := by
  cases u <;> simp [inCodomain, IntCodomain]

theorem legalIntSize_iff (native : Nat) (u : Bool) (sz : Nat) :
    (decide (1 ≤ sz) && decide (sz ≤ maxIntSize native u)) = true ↔ LegalIntSize native u sz := by
  cases u <;> simp [maxIntSize, LegalIntSize]

/-- The pad of an align is the least number of bits that reaches the boundary (41_bit_cursor.md R107, R108). -/
theorem padTo_eq {n pos base pad : Nat} (h1 : pad < 8 * n) (h2 : (pos - base + pad) % (8 * n) = 0) : padTo n pos base = pad := by
  unfold padTo
  generalize pos - base = d at *
  have hd := Nat.mod_lt d (show 0 < 8 * n by omega)
  rw [← Nat.mod_add_mod] at h2
  generalize d % (8 * n) = r at *
  by_cases hr : r = 0
  · subst hr
    rw [Nat.zero_add, Nat.mod_eq_of_lt h1] at h2
    simp [h2]
  · rw [Nat.mod_eq_of_lt (by omega)]
    obtain ⟨k, hk⟩ := Nat.dvd_of_mod_eq_zero h2
    obtain rfl : k = 1 := by
      rcases k with _ | _ | k
      · omega
      · rfl
      · rw [Nat.mul_add, Nat.mul_add] at hk; omega
    omega

end Sys2Proof.Machine
end

