-- ==== Sys2Proof/Laws/PerInstr.lean ====
section
/-! SUPPORT. One law for each command: its word is selected by its own row of the opcode map (30_encoding.md R70). -/

namespace Sys2Proof.Laws.EncodesItsRow

/-- The word of a well-formed command is selected by the row that bears the command's mnemonic (30_encoding.md R70). -/
def Statement (i : Instr) : Prop :=
  wellFormed i = true → ∃ r ∈ opcodeMap, r.mnemonic = i.mnemonic ∧ r.selects (encode i) = true

/-- The fields below OPC, as one number (30_encoding.md R60). -/
def low (u nl so sz ex : Nat) : Nat := u * 2 ^ 23 + (nl * 2 ^ 22 + (so * 2 ^ 21 + (sz * 2 ^ 14 + ex * 2 ^ 10)))

/-- A word meets a mask where its opcode and its lower fields do. -/
theorem pack_and (opc u nl so sz ex : Nat) (m : Word) (h : low u nl so sz ex < 2 ^ 24) :
    pack opc u nl so sz ex &&& m = (BitVec.ofNat 32 (opc * 2 ^ 24) &&& m) ||| (BitVec.ofNat 32 (low u nl so sz ex) &&& m) := by
  have e : pack opc u nl so sz ex = BitVec.ofNat 32 (opc * 2 ^ 24 ||| low u nl so sz ex) := by
    rw [Nat.mul_comm, ← Nat.two_pow_add_eq_or_of_lt h]
    simp only [pack, low]; congr 1; omega
  rw [e, BitVec.ofNat_or, BitVec.and_comm, BitVec.and_or_distrib_left, BitVec.and_comm m, BitVec.and_comm m]

theorem selects_pack (r : OpcodeRow) (opc u nl so sz ex : Nat) (h : low u nl so sz ex < 2 ^ 24)
    (hl : BitVec.ofNat 32 (low u nl so sz ex) &&& r.mask = 0#32) (ho : BitVec.ofNat 32 (opc * 2 ^ 24) &&& r.mask = r.pattern) :
    r.selects (pack opc u nl so sz ex) = true := by
  simp only [OpcodeRow.selects, pack_and opc u nl so sz ex r.mask h, hl, ho, BitVec.or_zero,
    beq_self_eq_true]

theorem low_lt (u nl so : Bool) {sz ex : Nat} (hs : sz < 2 ^ 7) (he : ex < 2 ^ 4) :
    low u.toNat nl.toNat so.toNat sz ex < 2 ^ 24 := by
  have := u.toNat_lt; have := nl.toNat_lt; have := so.toNat_lt; simp only [low]; omega

/-- Format FS leaves SZ alone out of its mask (30_encoding.md R61). -/
theorem low_fs : ∀ sz, sz < 2 ^ 7 → BitVec.ofNat 32 (low 0 0 0 sz 0) &&& 0xFFE03FFF = 0 := by decide

/-- Format FUS leaves U and SZ out of its mask (30_encoding.md R61). -/
theorem low_fus : ∀ (u : Bool) (sz), sz < 2 ^ 7 → BitVec.ofNat 32 (low u.toNat 0 0 sz 0) &&& 0xFF603FFF = 0 := by decide

/-- Format FN leaves NL alone out of its mask (30_encoding.md R61). -/
theorem low_fn : ∀ nl : Bool, BitVec.ofNat 32 (low 0 nl.toNat 0 0 0) &&& 0xFFBFFFFF = 0 := by decide

/-- Format FNS leaves NL and SZ out of its mask (30_encoding.md R61). -/
theorem low_fns : ∀ (nl : Bool) (sz), sz < 2 ^ 7 → BitVec.ofNat 32 (low 0 nl.toNat 0 sz 0) &&& 0xFFA03FFF = 0 := by decide

/-- Format FNOS leaves NL, SO and SZ out of its mask (30_encoding.md R61). -/
theorem low_fnos : ∀ (nl so : Bool) (sz), sz < 2 ^ 7 → BitVec.ofNat 32 (low 0 nl.toNat so.toNat sz 0) &&& 0xFF803FFF = 0 := by
  decide

/-- Format FNSE leaves NL, SZ and EX out of its mask (30_encoding.md R61). -/
theorem low_fnse : ∀ (nl : Bool) (sz), sz < 2 ^ 7 → ∀ ex, ex < 2 ^ 4 →
    BitVec.ofNat 32 (low 0 nl.toNat 0 sz ex) &&& 0xFFA003FF = 0 := by decide +kernel

theorem szFits_iff {sz : Nat} : szFits sz = true ↔ sz < 2 ^ 7 := by simp [szFits]

theorem exFits_iff {ex : Nat} : exFits ex = true ↔ ex < 2 ^ 4 := by simp [exFits]

theorem fits {sz ex : Nat} (h : (szFits sz && exFits ex) = true) : sz < 2 ^ 7 ∧ ex < 2 ^ 4 :=
  (Bool.and_eq_true_iff.mp h).imp szFits_iff.mp exFits_iff.mp

theorem of_row {i : Instr} (k : Nat) (r : OpcodeRow) (hr : opcodeMap[k]? = some r) (hm : r.mnemonic = i.mnemonic)
    (h : wellFormed i = true → r.selects (encode i) = true) : Statement i :=
  fun hw => ⟨r, List.mem_of_getElem? hr, hm, h hw⟩

theorem rdbits (sz : Nat) : Statement (.rdbits sz) :=
  of_row 0 ⟨"RDBITS", 0x01000000, 0xFFE03FFF⟩ rfl rfl fun h =>
    selects_pack _ _ _ _ _ _ _ (low_lt false false false (szFits_iff.mp h) (by decide))
      (low_fs sz (szFits_iff.mp h)) rfl

theorem wrbits (sz : Nat) : Statement (.wrbits sz) :=
  of_row 1 ⟨"WRBITS", 0x02000000, 0xFFE03FFF⟩ rfl rfl fun h =>
    selects_pack _ _ _ _ _ _ _ (low_lt false false false (szFits_iff.mp h) (by decide))
      (low_fs sz (szFits_iff.mp h)) rfl

theorem skipr : Statement .skipr :=
  of_row 2 ⟨"SKIPR", 0x03000000, 0xFFFFFFFF⟩ rfl rfl fun _ => by decide

theorem skipw : Statement .skipw :=
  of_row 3 ⟨"SKIPW", 0x04000000, 0xFFFFFFFF⟩ rfl rfl fun _ => by decide

theorem alignr : Statement .alignr :=
  of_row 4 ⟨"ALIGNR", 0x05000000, 0xFFFFFFFF⟩ rfl rfl fun _ => by decide

theorem alignw : Statement .alignw :=
  of_row 5 ⟨"ALIGNW", 0x06000000, 0xFFFFFFFF⟩ rfl rfl fun _ => by decide

theorem resetw : Statement .resetw :=
  of_row 6 ⟨"RESETW", 0x07000000, 0xFFFFFFFF⟩ rfl rfl fun _ => by decide

theorem flushw : Statement .flushw :=
  of_row 7 ⟨"FLUSHW", 0x08000000, 0xFFFFFFFF⟩ rfl rfl fun _ => by decide

theorem closer : Statement .closer :=
  of_row 8 ⟨"CLOSER", 0x09000000, 0xFFFFFFFF⟩ rfl rfl fun _ => by decide

theorem closew : Statement .closew :=
  of_row 9 ⟨"CLOSEW", 0x0A000000, 0xFFFFFFFF⟩ rfl rfl fun _ => by decide

theorem wrint (u : Bool) (sz : Nat) : Statement (.wrint u sz) :=
  of_row 10 ⟨"WRINT", 0x10000000, 0xFF603FFF⟩ rfl rfl fun h =>
    selects_pack _ _ _ _ _ _ _ (low_lt u false false (szFits_iff.mp h) (by decide))
      (low_fus u sz (szFits_iff.mp h)) rfl

theorem rdint (u : Bool) (sz : Nat) : Statement (.rdint u sz) :=
  of_row 11 ⟨"RDINT", 0x11000000, 0xFF603FFF⟩ rfl rfl fun h =>
    selects_pack _ _ _ _ _ _ _ (low_lt u false false (szFits_iff.mp h) (by decide))
      (low_fus u sz (szFits_iff.mp h)) rfl

theorem wrlong (u : Bool) (sz : Nat) : Statement (.wrlong u sz) :=
  of_row 12 ⟨"WRLONG", 0x12000000, 0xFF603FFF⟩ rfl rfl fun h =>
    selects_pack _ _ _ _ _ _ _ (low_lt u false false (szFits_iff.mp h) (by decide))
      (low_fus u sz (szFits_iff.mp h)) rfl

theorem rdlong (u : Bool) (sz : Nat) : Statement (.rdlong u sz) :=
  of_row 13 ⟨"RDLONG", 0x13000000, 0xFF603FFF⟩ rfl rfl fun h =>
    selects_pack _ _ _ _ _ _ _ (low_lt u false false (szFits_iff.mp h) (by decide))
      (low_fus u sz (szFits_iff.mp h)) rfl

theorem wrbool : Statement .wrbool :=
  of_row 14 ⟨"WRBOOL", 0x14000000, 0xFFFFFFFF⟩ rfl rfl fun _ => by decide

theorem rdbool : Statement .rdbool :=
  of_row 15 ⟨"RDBOOL", 0x15000000, 0xFFFFFFFF⟩ rfl rfl fun _ => by decide

theorem wrbyte (u : Bool) (sz : Nat) : Statement (.wrbyte u sz) :=
  of_row 16 ⟨"WRBYTE", 0x16000000, 0xFF603FFF⟩ rfl rfl fun h =>
    selects_pack _ _ _ _ _ _ _ (low_lt u false false (szFits_iff.mp h) (by decide))
      (low_fus u sz (szFits_iff.mp h)) rfl

theorem rdbyte (u : Bool) (sz : Nat) : Statement (.rdbyte u sz) :=
  of_row 17 ⟨"RDBYTE", 0x17000000, 0xFF603FFF⟩ rfl rfl fun h =>
    selects_pack _ _ _ _ _ _ _ (low_lt u false false (szFits_iff.mp h) (by decide))
      (low_fus u sz (szFits_iff.mp h)) rfl

theorem wrshort (u : Bool) (sz : Nat) : Statement (.wrshort u sz) :=
  of_row 18 ⟨"WRSHORT", 0x18000000, 0xFF603FFF⟩ rfl rfl fun h =>
    selects_pack _ _ _ _ _ _ _ (low_lt u false false (szFits_iff.mp h) (by decide))
      (low_fus u sz (szFits_iff.mp h)) rfl

theorem rdshort (u : Bool) (sz : Nat) : Statement (.rdshort u sz) :=
  of_row 19 ⟨"RDSHORT", 0x19000000, 0xFF603FFF⟩ rfl rfl fun h =>
    selects_pack _ _ _ _ _ _ _ (low_lt u false false (szFits_iff.mp h) (by decide))
      (low_fus u sz (szFits_iff.mp h)) rfl

theorem wrchar (sz : Nat) : Statement (.wrchar sz) :=
  of_row 20 ⟨"WRCHAR", 0x1A000000, 0xFFE03FFF⟩ rfl rfl fun h =>
    selects_pack _ _ _ _ _ _ _ (low_lt false false false (szFits_iff.mp h) (by decide))
      (low_fs sz (szFits_iff.mp h)) rfl

theorem rdchar (sz : Nat) : Statement (.rdchar sz) :=
  of_row 21 ⟨"RDCHAR", 0x1B000000, 0xFFE03FFF⟩ rfl rfl fun h =>
    selects_pack _ _ _ _ _ _ _ (low_lt false false false (szFits_iff.mp h) (by decide))
      (low_fs sz (szFits_iff.mp h)) rfl

theorem wrbyte8 : Statement .wrbyte8 :=
  of_row 22 ⟨"WRBYTE8", 0x1C000000, 0xFFFFFFFF⟩ rfl rfl fun _ => by decide

theorem rdbyte8 : Statement .rdbyte8 :=
  of_row 23 ⟨"RDBYTE8", 0x1D000000, 0xFFFFFFFF⟩ rfl rfl fun _ => by decide

theorem wrshort16 : Statement .wrshort16 :=
  of_row 24 ⟨"WRSHORT16", 0x1E000000, 0xFFFFFFFF⟩ rfl rfl fun _ => by decide

theorem rdshort16 : Statement .rdshort16 :=
  of_row 25 ⟨"RDSHORT16", 0x1F000000, 0xFFFFFFFF⟩ rfl rfl fun _ => by decide

theorem wrint32 : Statement .wrint32 :=
  of_row 26 ⟨"WRINT32", 0x20000000, 0xFFFFFFFF⟩ rfl rfl fun _ => by decide

theorem rdint32 : Statement .rdint32 :=
  of_row 27 ⟨"RDINT32", 0x21000000, 0xFFFFFFFF⟩ rfl rfl fun _ => by decide

theorem wrlong64 : Statement .wrlong64 :=
  of_row 28 ⟨"WRLONG64", 0x22000000, 0xFFFFFFFF⟩ rfl rfl fun _ => by decide

theorem rdlong64 : Statement .rdlong64 :=
  of_row 29 ⟨"RDLONG64", 0x23000000, 0xFFFFFFFF⟩ rfl rfl fun _ => by decide

theorem wrchar16 : Statement .wrchar16 :=
  of_row 30 ⟨"WRCHAR16", 0x24000000, 0xFFFFFFFF⟩ rfl rfl fun _ => by decide

theorem rdchar16 : Statement .rdchar16 :=
  of_row 31 ⟨"RDCHAR16", 0x25000000, 0xFFFFFFFF⟩ rfl rfl fun _ => by decide

theorem wrfloat (nl : Bool) (sz : Nat) (ex : Nat) : Statement (.wrfloat nl sz ex) :=
  of_row 32 ⟨"WRFLOAT", 0x30000000, 0xFFA003FF⟩ rfl rfl fun h =>
    selects_pack _ _ _ _ _ _ _ (low_lt false nl false (fits h).1 (fits h).2)
      (low_fnse nl sz (fits h).1 ex (fits h).2) rfl

theorem rdfloat (nl : Bool) (sz : Nat) (ex : Nat) : Statement (.rdfloat nl sz ex) :=
  of_row 33 ⟨"RDFLOAT", 0x31000000, 0xFFA003FF⟩ rfl rfl fun h =>
    selects_pack _ _ _ _ _ _ _ (low_lt false nl false (fits h).1 (fits h).2)
      (low_fnse nl sz (fits h).1 ex (fits h).2) rfl

theorem wrdouble (nl : Bool) (sz : Nat) (ex : Nat) : Statement (.wrdouble nl sz ex) :=
  of_row 34 ⟨"WRDOUBLE", 0x32000000, 0xFFA003FF⟩ rfl rfl fun h =>
    selects_pack _ _ _ _ _ _ _ (low_lt false nl false (fits h).1 (fits h).2)
      (low_fnse nl sz (fits h).1 ex (fits h).2) rfl

theorem rddouble (nl : Bool) (sz : Nat) (ex : Nat) : Statement (.rddouble nl sz ex) :=
  of_row 35 ⟨"RDDOUBLE", 0x33000000, 0xFFA003FF⟩ rfl rfl fun h =>
    selects_pack _ _ _ _ _ _ _ (low_lt false nl false (fits h).1 (fits h).2)
      (low_fnse nl sz (fits h).1 ex (fits h).2) rfl

theorem wrzerof (nl : Bool) : Statement (.wrzerof nl) :=
  of_row 36 ⟨"WRZEROF", 0x34000000, 0xFFBFFFFF⟩ rfl rfl fun _ =>
    selects_pack _ _ _ _ _ _ _ (low_lt false nl false (by decide) (by decide))
      (low_fn nl) rfl

theorem rdzerof (nl : Bool) : Statement (.rdzerof nl) :=
  of_row 37 ⟨"RDZEROF", 0x35000000, 0xFFBFFFFF⟩ rfl rfl fun _ =>
    selects_pack _ _ _ _ _ _ _ (low_lt false nl false (by decide) (by decide))
      (low_fn nl) rfl

theorem wrzerod (nl : Bool) : Statement (.wrzerod nl) :=
  of_row 38 ⟨"WRZEROD", 0x36000000, 0xFFBFFFFF⟩ rfl rfl fun _ =>
    selects_pack _ _ _ _ _ _ _ (low_lt false nl false (by decide) (by decide))
      (low_fn nl) rfl

theorem rdzerod (nl : Bool) : Statement (.rdzerod nl) :=
  of_row 39 ⟨"RDZEROD", 0x37000000, 0xFFBFFFFF⟩ rfl rfl fun _ =>
    selects_pack _ _ _ _ _ _ _ (low_lt false nl false (by decide) (by decide))
      (low_fn nl) rfl

theorem wrinff (nl : Bool) : Statement (.wrinff nl) :=
  of_row 40 ⟨"WRINFF", 0x38000000, 0xFFBFFFFF⟩ rfl rfl fun _ =>
    selects_pack _ _ _ _ _ _ _ (low_lt false nl false (by decide) (by decide))
      (low_fn nl) rfl

theorem rdinff (nl : Bool) : Statement (.rdinff nl) :=
  of_row 41 ⟨"RDINFF", 0x39000000, 0xFFBFFFFF⟩ rfl rfl fun _ =>
    selects_pack _ _ _ _ _ _ _ (low_lt false nl false (by decide) (by decide))
      (low_fn nl) rfl

theorem wrinfd (nl : Bool) : Statement (.wrinfd nl) :=
  of_row 42 ⟨"WRINFD", 0x3A000000, 0xFFBFFFFF⟩ rfl rfl fun _ =>
    selects_pack _ _ _ _ _ _ _ (low_lt false nl false (by decide) (by decide))
      (low_fn nl) rfl

theorem rdinfd (nl : Bool) : Statement (.rdinfd nl) :=
  of_row 43 ⟨"RDINFD", 0x3B000000, 0xFFBFFFFF⟩ rfl rfl fun _ =>
    selects_pack _ _ _ _ _ _ _ (low_lt false nl false (by decide) (by decide))
      (low_fn nl) rfl

theorem wrsubf (nl : Bool) (sz : Nat) : Statement (.wrsubf nl sz) :=
  of_row 44 ⟨"WRSUBF", 0x3C000000, 0xFFA03FFF⟩ rfl rfl fun h =>
    selects_pack _ _ _ _ _ _ _ (low_lt false nl false (szFits_iff.mp h) (by decide))
      (low_fns nl sz (szFits_iff.mp h)) rfl

theorem rdsubf (nl : Bool) (sz : Nat) : Statement (.rdsubf nl sz) :=
  of_row 45 ⟨"RDSUBF", 0x3D000000, 0xFFA03FFF⟩ rfl rfl fun h =>
    selects_pack _ _ _ _ _ _ _ (low_lt false nl false (szFits_iff.mp h) (by decide))
      (low_fns nl sz (szFits_iff.mp h)) rfl

theorem wrsubd (nl : Bool) (sz : Nat) : Statement (.wrsubd nl sz) :=
  of_row 46 ⟨"WRSUBD", 0x3E000000, 0xFFA03FFF⟩ rfl rfl fun h =>
    selects_pack _ _ _ _ _ _ _ (low_lt false nl false (szFits_iff.mp h) (by decide))
      (low_fns nl sz (szFits_iff.mp h)) rfl

theorem rdsubd (nl : Bool) (sz : Nat) : Statement (.rdsubd nl sz) :=
  of_row 47 ⟨"RDSUBD", 0x3F000000, 0xFFA03FFF⟩ rfl rfl fun h =>
    selects_pack _ _ _ _ _ _ _ (low_lt false nl false (szFits_iff.mp h) (by decide))
      (low_fns nl sz (szFits_iff.mp h)) rfl

theorem wrnanf (nl : Bool) (so : Bool) (sz : Nat) : Statement (.wrnanf nl so sz) :=
  of_row 48 ⟨"WRNANF", 0x40000000, 0xFF803FFF⟩ rfl rfl fun h =>
    selects_pack _ _ _ _ _ _ _ (low_lt false nl so (szFits_iff.mp h) (by decide))
      (low_fnos nl so sz (szFits_iff.mp h)) rfl

theorem rdnanf (nl : Bool) (so : Bool) (sz : Nat) : Statement (.rdnanf nl so sz) :=
  of_row 49 ⟨"RDNANF", 0x41000000, 0xFF803FFF⟩ rfl rfl fun h =>
    selects_pack _ _ _ _ _ _ _ (low_lt false nl so (szFits_iff.mp h) (by decide))
      (low_fnos nl so sz (szFits_iff.mp h)) rfl

theorem wrnand (nl : Bool) (so : Bool) (sz : Nat) : Statement (.wrnand nl so sz) :=
  of_row 50 ⟨"WRNAND", 0x42000000, 0xFF803FFF⟩ rfl rfl fun h =>
    selects_pack _ _ _ _ _ _ _ (low_lt false nl so (szFits_iff.mp h) (by decide))
      (low_fnos nl so sz (szFits_iff.mp h)) rfl

theorem rdnand (nl : Bool) (so : Bool) (sz : Nat) : Statement (.rdnand nl so sz) :=
  of_row 51 ⟨"RDNAND", 0x43000000, 0xFF803FFF⟩ rfl rfl fun h =>
    selects_pack _ _ _ _ _ _ _ (low_lt false nl so (szFits_iff.mp h) (by decide))
      (low_fnos nl so sz (szFits_iff.mp h)) rfl

theorem iszerof : Statement .iszerof :=
  of_row 52 ⟨"ISZEROF", 0x48000000, 0xFFFFFFFF⟩ rfl rfl fun _ => by decide

theorem iszerod : Statement .iszerod :=
  of_row 53 ⟨"ISZEROD", 0x49000000, 0xFFFFFFFF⟩ rfl rfl fun _ => by decide

theorem isinff : Statement .isinff :=
  of_row 54 ⟨"ISINFF", 0x4A000000, 0xFFFFFFFF⟩ rfl rfl fun _ => by decide

theorem isinfd : Statement .isinfd :=
  of_row 55 ⟨"ISINFD", 0x4B000000, 0xFFFFFFFF⟩ rfl rfl fun _ => by decide

theorem isnanf : Statement .isnanf :=
  of_row 56 ⟨"ISNANF", 0x4C000000, 0xFFFFFFFF⟩ rfl rfl fun _ => by decide

theorem isnand : Statement .isnand :=
  of_row 57 ⟨"ISNAND", 0x4D000000, 0xFFFFFFFF⟩ rfl rfl fun _ => by decide

theorem classf : Statement .classf :=
  of_row 58 ⟨"CLASSF", 0x4E000000, 0xFFFFFFFF⟩ rfl rfl fun _ => by decide

theorem classd : Statement .classd :=
  of_row 59 ⟨"CLASSD", 0x4F000000, 0xFFFFFFFF⟩ rfl rfl fun _ => by decide

theorem wrvlqi : Statement .wrvlqi :=
  of_row 60 ⟨"WRVLQI", 0x50000000, 0xFFFFFFFF⟩ rfl rfl fun _ => by decide

theorem rdvlqi : Statement .rdvlqi :=
  of_row 61 ⟨"RDVLQI", 0x51000000, 0xFFFFFFFF⟩ rfl rfl fun _ => by decide

theorem wrvlql : Statement .wrvlql :=
  of_row 62 ⟨"WRVLQL", 0x52000000, 0xFFFFFFFF⟩ rfl rfl fun _ => by decide

theorem rdvlql : Statement .rdvlql :=
  of_row 63 ⟨"RDVLQL", 0x53000000, 0xFFFFFFFF⟩ rfl rfl fun _ => by decide

end Sys2Proof.Laws.EncodesItsRow
end

