-- ==== Sys2Proof/Tests/Slice0.lean ====
section
/-! SUPPORT. Tests: words written out from the encoding, ill-formed commands, one step of each command on a small state, and for
every obligation with hypotheses a witness that meets them. Expected values come from 95_test_vectors.md or the rule named. -/

namespace Sys2Proof.Tests

open Sys2Proof.Machine

/-! ### Encoding (30_encoding.md R60, R61, R70): OPC, U, NL, SO, SZ, EX, RSV -/

theorem test_decode_cursor :
    decode 0b00000001_0_0_0_0000011_0000_0000000000#32 = .ok (.rdbits 3) ∧
    decode 0b00000010_0_0_0_1000000_0000_0000000000#32 = .ok (.wrbits 64) ∧
    decode 0b00000011_0_0_0_0000000_0000_0000000000#32 = .ok .skipr ∧
    decode 0b00000100_0_0_0_0000000_0000_0000000000#32 = .ok .skipw ∧
    decode 0b00000101_0_0_0_0000000_0000_0000000000#32 = .ok .alignr ∧
    decode 0b00000110_0_0_0_0000000_0000_0000000000#32 = .ok .alignw ∧
    decode 0b00000111_0_0_0_0000000_0000_0000000000#32 = .ok .resetw ∧
    decode 0b00001000_0_0_0_0000000_0000_0000000000#32 = .ok .flushw ∧
    decode 0b00001001_0_0_0_0000000_0000_0000000000#32 = .ok .closer ∧
    decode 0b00001010_0_0_0_0000000_0000_0000000000#32 = .ok .closew := by decide

theorem test_decode_sized_integer :
    decode 0b00010000_1_0_0_0000011_0000_0000000000#32 = .ok (.wrint true 3) ∧
    decode 0b00010001_0_0_0_1000000_0000_0000000000#32 = .ok (.rdint false 64) ∧
    decode 0b00010010_1_0_0_0000001_0000_0000000000#32 = .ok (.wrlong true 1) ∧
    decode 0b00010011_0_0_0_0100101_0000_0000000000#32 = .ok (.rdlong false 37) ∧
    decode 0b00010100_0_0_0_0000000_0000_0000000000#32 = .ok .wrbool ∧
    decode 0b00010101_0_0_0_0000000_0000_0000000000#32 = .ok .rdbool ∧
    decode 0b00010110_1_0_0_0010000_0000_0000000000#32 = .ok (.wrbyte true 16) ∧
    decode 0b00010111_0_0_0_0001000_0000_0000000000#32 = .ok (.rdbyte false 8) ∧
    decode 0b00011000_1_0_0_0110100_0000_0000000000#32 = .ok (.wrshort true 52) ∧
    decode 0b00011001_0_0_0_0010111_0000_0000000000#32 = .ok (.rdshort false 23) ∧
    decode 0b00011010_0_0_0_0000011_0000_0000000000#32 = .ok (.wrchar 3) ∧
    decode 0b00011011_0_0_0_1000000_0000_0000000000#32 = .ok (.rdchar 64) := by decide

theorem test_decode_whole_integer :
    decode 0b00011100_0_0_0_0000000_0000_0000000000#32 = .ok .wrbyte8 ∧
    decode 0b00011101_0_0_0_0000000_0000_0000000000#32 = .ok .rdbyte8 ∧
    decode 0b00011110_0_0_0_0000000_0000_0000000000#32 = .ok .wrshort16 ∧
    decode 0b00011111_0_0_0_0000000_0000_0000000000#32 = .ok .rdshort16 ∧
    decode 0b00100000_0_0_0_0000000_0000_0000000000#32 = .ok .wrint32 ∧
    decode 0b00100001_0_0_0_0000000_0000_0000000000#32 = .ok .rdint32 ∧
    decode 0b00100010_0_0_0_0000000_0000_0000000000#32 = .ok .wrlong64 ∧
    decode 0b00100011_0_0_0_0000000_0000_0000000000#32 = .ok .rdlong64 ∧
    decode 0b00100100_0_0_0_0000000_0000_0000000000#32 = .ok .wrchar16 ∧
    decode 0b00100101_0_0_0_0000000_0000_0000000000#32 = .ok .rdchar16 := by decide

theorem test_decode_general_float :
    decode 0b00110000_0_1_0_0000011_1000_0000000000#32 = .ok (.wrfloat true 3 8) ∧
    decode 0b00110001_0_0_0_1000000_0101_0000000000#32 = .ok (.rdfloat false 64 5) ∧
    decode 0b00110010_0_1_0_0000001_1011_0000000000#32 = .ok (.wrdouble true 1 11) ∧
    decode 0b00110011_0_0_0_0100101_1111_0000000000#32 = .ok (.rddouble false 37 15) := by decide

theorem test_decode_sign_only :
    decode 0b00110100_0_1_0_0000000_0000_0000000000#32 = .ok (.wrzerof true) ∧
    decode 0b00110101_0_0_0_0000000_0000_0000000000#32 = .ok (.rdzerof false) ∧
    decode 0b00110110_0_1_0_0000000_0000_0000000000#32 = .ok (.wrzerod true) ∧
    decode 0b00110111_0_0_0_0000000_0000_0000000000#32 = .ok (.rdzerod false) ∧
    decode 0b00111000_0_1_0_0000000_0000_0000000000#32 = .ok (.wrinff true) ∧
    decode 0b00111001_0_0_0_0000000_0000_0000000000#32 = .ok (.rdinff false) ∧
    decode 0b00111010_0_1_0_0000000_0000_0000000000#32 = .ok (.wrinfd true) ∧
    decode 0b00111011_0_0_0_0000000_0000_0000000000#32 = .ok (.rdinfd false) := by decide

theorem test_decode_significand :
    decode 0b00111100_0_1_0_0000011_0000_0000000000#32 = .ok (.wrsubf true 3) ∧
    decode 0b00111101_0_0_0_1000000_0000_0000000000#32 = .ok (.rdsubf false 64) ∧
    decode 0b00111110_0_1_0_0000001_0000_0000000000#32 = .ok (.wrsubd true 1) ∧
    decode 0b00111111_0_0_0_0100101_0000_0000000000#32 = .ok (.rdsubd false 37) ∧
    decode 0b01000000_0_1_1_1111111_0000_0000000000#32 = .ok (.wrnanf true true 127) ∧
    decode 0b01000001_0_0_1_0100001_0000_0000000000#32 = .ok (.rdnanf false true 33) ∧
    decode 0b01000010_0_1_0_0010000_0000_0000000000#32 = .ok (.wrnand true false 16) ∧
    decode 0b01000011_0_0_1_0001000_0000_0000000000#32 = .ok (.rdnand false true 8) := by decide

theorem test_decode_detector :
    decode 0b01001000_0_0_0_0000000_0000_0000000000#32 = .ok .iszerof ∧
    decode 0b01001001_0_0_0_0000000_0000_0000000000#32 = .ok .iszerod ∧
    decode 0b01001010_0_0_0_0000000_0000_0000000000#32 = .ok .isinff ∧
    decode 0b01001011_0_0_0_0000000_0000_0000000000#32 = .ok .isinfd ∧
    decode 0b01001100_0_0_0_0000000_0000_0000000000#32 = .ok .isnanf ∧
    decode 0b01001101_0_0_0_0000000_0000_0000000000#32 = .ok .isnand ∧
    decode 0b01001110_0_0_0_0000000_0000_0000000000#32 = .ok .classf ∧
    decode 0b01001111_0_0_0_0000000_0000_0000000000#32 = .ok .classd := by decide

theorem test_decode_vlq :
    decode 0b01010000_0_0_0_0000000_0000_0000000000#32 = .ok .wrvlqi ∧
    decode 0b01010001_0_0_0_0000000_0000_0000000000#32 = .ok .rdvlqi ∧
    decode 0b01010010_0_0_0_0000000_0000_0000000000#32 = .ok .wrvlql ∧
    decode 0b01010011_0_0_0_0000000_0000_0000000000#32 = .ok .rdvlql := by decide

-- V34 and 30_encoding.md R71
theorem test_decode_unused_field :
    decode 0x14800000#32 = .error .unusedFieldNotZero ∧ decode 0x02004400#32 = .error .unusedFieldNotZero ∧
      decode 0x10C0C000#32 = .error .unusedFieldNotZero ∧ decode 0x40008400#32 = .error .unusedFieldNotZero := by decide
theorem test_decode_reserved_bit : decode 0x14000001#32 = .error .reservedNotZero := by decide
theorem test_decode_unknown_opcode :
    decode 0x00000000#32 = .error (.unknownOpcode 0) ∧ decode 0x44000000#32 = .error (.unknownOpcode 0x44) ∧
      decode 0xFF000000#32 = .error (.unknownOpcode 0xFF) := by decide
-- P1, P3 of 95_test_vectors.md
theorem test_encode : encode (.wrlong false 37) = 0x12094000#32 ∧ encode (.wrfloat true 10 5) = 0x30429400#32 := by decide

/-! ### Well-formedness -/

theorem test_wellFormed_size_too_wide :
    wellFormed (.rdbits 128) = false ∧ wellFormed (.wrint true 128) = false ∧ wellFormed (.wrchar 128) = false ∧
      wellFormed (.rdfloat false 128 8) = false ∧ wellFormed (.wrsubd true 128) = false ∧
      wellFormed (.rdnand false true 128) = false := by decide
theorem test_wellFormed_exponent_too_wide :
    wellFormed (.wrfloat false 23 16) = false ∧ wellFormed (.rddouble true 52 16) = false := by decide
theorem test_wellFormed_widest :
    wellFormed (.rdbits 127) = true ∧ wellFormed (.wrfloat true 127 15) = true ∧ wellFormed .skipr = true := by decide

/-! ### One step each (expected values from 95_test_vectors.md, or worked from the rule named) -/

/-- The block after reset with these bytes to read. -/
def reading (bs : List Byte) : State := { State.reset with inp := { InChannel.reset with bytes := Memory.ofBytes 0 bs } }

/-- The block after reset with an operand on its port. -/
def holding (din : Data) (present : Bool := true) : State :=
  { State.reset with port := { cmd := 0, din := din, present := present } }

/-- One step of the command word on a state. -/
def issue (s : State) (cmd : Word) (din : Data := 0) (present : Bool := true) : Host.Outcome State Fault Refusal :=
  step { s with queue := [{ cmd := cmd, din := din, present := present }] }

/-- STATUS and DOUT. -/
def answer : Host.Outcome State Fault Refusal → Option (Nat × Nat)
  | .next t => t.result.map fun r => (r.status.toNat, r.dout.toNat)
  | .fault _ => none
  | .refused _ => none

/-- STATUS and ISNULL. -/
def nullness : Host.Outcome State Fault Refusal → Option (Nat × Bool)
  | .next t => t.result.map fun r => (r.status.toNat, r.isnull)
  | .fault _ => none
  | .refused _ => none

/-- The bytes handed over, W.acc and W.n. -/
def sent : Host.Outcome State Fault Refusal → Option (List Nat × Nat × Nat)
  | .next t => some (t.outp.bytes.map fun c => c.2.toNat, t.W.acc, t.W.n)
  | .fault _ => none
  | .refused _ => none

/-- The state after a step, the reset state where there is none. -/
def after : Host.Outcome State Fault Refusal → State
  | .next t => t
  | .fault _ => State.reset
  | .refused _ => State.reset

-- V1, V4
theorem test_rdbits : answer (issue (reading [0xA5]) 0x0100C000) = some (0, 5) := by decide
theorem test_rdbits_past_the_end : answer (issue (reading [0xFF]) 0x01024000) = some (16, 0) := by decide
-- V8
theorem test_wrbits_low_bits : sent (issue State.reset 0x0200C000 0xFF) = some ([], 7, 3) := by decide
theorem test_wrbits_64 :
    sent (issue State.reset 0x02100000 0x0123456789ABCDEF) = some ([0x01, 0x23, 0x45, 0x67, 0x89, 0xAB, 0xCD, 0xEF], 0, 0) := by
  decide
-- V10
theorem test_skipr : (after (issue (reading [0x5A]) 0x03000000 4)).R = ⟨.opened, 0xA, 4, 4, 0, 1⟩ := by decide
theorem test_skipr_zero : answer (issue (reading [0x5A]) 0x03000000 0) = some (2, 0) := by decide
-- V9
theorem test_skipw_low_32_bits : sent (issue State.reset 0x04000000 0x100000008) = some ([0], 0, 0) := by decide
theorem test_skipw_negative : answer (issue State.reset 0x04000000 0xFFFFFFFF) = some (2, 0) := by decide
-- P2; V13
theorem test_alignr_41_bits :
    answer (issue { reading [0x90, 0, 0, 0, 0, 0] with R := ⟨.opened, 0, 7, 41, 0, 6⟩ } 0x05000000 1) = some (0, 7) := by decide
theorem test_alignr_out_of_input :
    (after (issue { reading [0x80] with R := ⟨.opened, 0, 7, 1, 0, 1⟩ } 0x05000000 2)).R = ⟨.failed, 0, 0, 8, 0, 1⟩ := by decide
-- P1; V11
theorem test_alignw_41_bits :
    answer (issue { State.reset with W := ⟨.opened, 0, 1, 41, 0, 5⟩ } 0x06000000 1) = some (0, 7) := by decide
theorem test_alignw_from_the_last_point :
    (after (issue { State.reset with W := ⟨.opened, 0, 0, 16, 8, 2⟩ } 0x06000000 2)).W = ⟨.opened, 0, 0, 24, 24, 3⟩ := by decide
-- V14
theorem test_resetw :
    (after (issue { State.reset with W := ⟨.opened, 0, 0, 8, 8, 1⟩ } 0x07000000)).W = ⟨.opened, 0, 0, 0, 0, 1⟩ := by decide
theorem test_resetw_off_boundary : answer (issue { State.reset with W := ⟨.opened, 1, 3, 3, 0, 0⟩ } 0x07000000) = some (4, 0) := by
  decide
-- V15, V16
theorem test_flushw_keeps_pending_bits :
    sent (issue { State.reset with W := ⟨.opened, 0xF, 4, 4, 0, 0⟩ } 0x08000000) = some ([], 0xF, 4) := by decide
theorem test_flushw_error :
    (after (issue { State.reset with outp := { OutChannel.reset with flushFail := [0] } } 0x08000000)).W.st = .failed := by decide
-- V18
theorem test_closer :
    (after (issue { reading [0xC3] with R := ⟨.opened, 3, 4, 4, 0, 1⟩ } 0x09000000)).R = ⟨.closed, 3, 4, 4, 0, 1⟩ := by decide
theorem test_closer_again :
    answer (issue { State.reset with R := ⟨.closed, 3, 4, 4, 0, 1⟩, inp := { InChannel.reset with closeFail := true } } 0x09000000) =
      some (0, 0) := by decide
-- V20, V17
theorem test_closew_error :
    (after (issue { State.reset with outp := { OutChannel.reset with closeFail := true } } 0x0A000000)).W.st = .closed := by decide
theorem test_closew_pending : sent (issue { State.reset with W := ⟨.opened, 0xF, 4, 4, 0, 0⟩ } 0x0A000000) = some ([], 0xF, 4) := by
  decide
-- V21
theorem test_wrint : sent (issue State.reset 0x1000C000 0xFFFFFFFFFFFFFFFC) = some ([], 4, 3) := by decide
theorem test_wrint_out_of_range : answer (issue State.reset 0x1000C000 4) = some (32, 0) := by decide
-- V24
theorem test_rdint_signed : answer (issue (reading [0xE8]) 0x1100C000) = some (0, 0xFFFFFFFF) := by decide
theorem test_rdint_unsigned : answer (issue (reading [0xE8]) 0x1180C000) = some (0, 7) := by decide
-- V25
theorem test_wrlong :
    sent (issue State.reset 0x12100000 0x8000000000000000) = some ([0x80, 0, 0, 0, 0, 0, 0, 0], 0, 0) := by decide
theorem test_wrlong_unsigned_64 : answer (issue State.reset 0x12900000 0) = some (1, 0) := by decide
-- V26
theorem test_rdlong_signed : answer (issue (reading [0xF0]) 0x13010000) = some (0, 0xFFFFFFFFFFFFFFFF) := by decide
theorem test_rdlong_unsigned : answer (issue (reading [0xF0]) 0x13810000) = some (0, 15) := by decide
-- V27
theorem test_wrbool_low_bit : sent (issue State.reset 0x14000000 3) = some ([], 1, 1) := by decide
theorem test_rdbool : answer (issue (reading [0x80]) 0x15000000) = some (0, 1) := by decide
-- V28, V29
theorem test_wrbyte : sent (issue State.reset 0x16010000 0x1F8) = some ([], 8, 4) := by decide
theorem test_rdbyte : answer (issue (reading [0xF0]) 0x17010000) = some (0, 0xFF) := by decide
theorem test_wrshort : sent (issue State.reset 0x1883C000 0x7FFF) = some ([0xFF], 0x7F, 7) := by decide
theorem test_rdshort : answer (issue (reading [0x80, 0x01]) 0x19040000) = some (0, 0x8001) := by decide
-- V30, V31
theorem test_wrchar : sent (issue State.reset 0x1A040000 0xFFFF) = some ([0xFF, 0xFF], 0, 0) := by decide
theorem test_wrchar_out_of_range : answer (issue State.reset 0x1A010000 0x10) = some (32, 0) := by decide
theorem test_rdchar : answer (issue (reading [0xFF, 0xFF]) 0x1B040000) = some (0, 0xFFFF) := by decide
-- V32, V33
theorem test_wrbyte8 : sent (issue State.reset 0x1C000000 0x1A5) = some ([0xA5], 0, 0) := by decide
theorem test_rdbyte8 : answer (issue (reading [0xA5]) 0x1D000000) = some (0, 0xA5) := by decide
theorem test_wrshort16 : sent (issue State.reset 0x1E000000 0xBEEF) = some ([0xBE, 0xEF], 0, 0) := by decide
theorem test_rdshort16 : answer (issue (reading [0xBE, 0xEF]) 0x1F000000) = some (0, 0xBEEF) := by decide
theorem test_wrint32 : sent (issue State.reset 0x20000000 0xDEADBEEF) = some ([0xDE, 0xAD, 0xBE, 0xEF], 0, 0) := by decide
theorem test_rdint32 : answer (issue (reading [0xDE, 0xAD, 0xBE, 0xEF]) 0x21000000) = some (0, 0xDEADBEEF) := by decide
theorem test_wrlong64 :
    sent (issue State.reset 0x22000000 0x0102030405060708) = some ([1, 2, 3, 4, 5, 6, 7, 8], 0, 0) := by decide
theorem test_rdlong64 : answer (issue (reading [1, 2, 3, 4, 5, 6, 7, 8]) 0x23000000) = some (0, 0x0102030405060708) := by decide
theorem test_wrchar16 : sent (issue State.reset 0x24000000 0x41) = some ([0x00, 0x41], 0, 0) := by decide
theorem test_rdchar16 : answer (issue (reading [0x00, 0x41]) 0x25000000) = some (0, 0x41) := by decide

-- The stored fields: V35, V36, V38, V40, V43.
theorem test_stored_fields :
    fEncFields .F 5 10 0x3F800000 = some ⟨0, 15, 0⟩ ∧ fEncFields .F 5 10 0xC0200000 = some ⟨1, 16, 0x100⟩ ∧
      fEncFields .F 5 10 0x80000000 = some ⟨1, 0, 0⟩ ∧ fEncFields .F 5 10 0x7F800001 = some ⟨0, 31, 1⟩ ∧
      fEncFields .F 5 10 0x47000000 = some ⟨0, 30, 0⟩ ∧ fEncFields .F 5 10 0x38800000 = some ⟨0, 1, 0⟩ ∧
      fEncFields .F 5 10 0x00400001 = some ⟨0, 0, 0x200⟩ ∧ fEncFields .D 8 23 0xC00921FB54442D18 = some ⟨1, 128, 0x490FDA⟩ := by
  decide
-- V38, V39, V42
theorem test_stored_fields_out_of_range :
    fEncFields .F 5 10 0x47800000 = none ∧ fEncFields .F 5 10 0x38000000 = none ∧ fEncFields .F 1 1 0x3F800000 = none := by decide
-- V37, V44
theorem test_rebuilt_patterns :
    fDecFields .F 5 10 ⟨1, 0, 0⟩ = 0x80000000 ∧ fDecFields .F 5 10 ⟨0, 31, 0⟩ = 0x7F800000 ∧
      fDecFields .F 5 10 ⟨0, 31, 1⟩ = 0x7F802000 ∧ fDecFields .F 5 10 ⟨1, 16, 0x100⟩ = 0xC0200000 ∧
      fDecFields .D 8 23 ⟨1, 128, 0x490FDA⟩ = 0xC00921FB40000000 := by decide

/-- The native sizes are legal whatever the minimum sizes are (43_float_codec.md R171). -/
theorem validFSize_native (fmt : Fmt) (s : State) : validFSize fmt fmt.expBits fmt.sigBits s = .ok () s := by
  simp [validFSize, Nat.not_lt.mpr fmt.expMin_le, Nat.not_lt.mpr fmt.sigMin_le]

theorem execWrfloat_native (nl : Bool) (s : State) (h : s.W.st = .opened) : exec (.wrfloat nl 23 8) s =
    complete ((nullableWrite nl (fEncFields .F 8 23 (dinBits 32 s)) (fPut 8 23) s).andThen fun _ s => done 0 s) := by
  show complete ((checkW s).andThen fun _ s => (validFSize .F 8 23 s).andThen _) = _
  rw [checkW_opened h, Res.ok_andThen, show validFSize .F 8 23 s = .ok () s from validFSize_native .F s]; rfl

theorem execWrdouble_native (nl : Bool) (s : State) (h : s.W.st = .opened) : exec (.wrdouble nl 52 11) s =
    complete ((nullableWrite nl (fEncFields .D 11 52 (dinBits 64 s)) (fPut 11 52) s).andThen fun _ s => done 0 s) := by
  show complete ((checkW s).andThen fun _ s => (validFSize .D 11 52 s).andThen _) = _
  rw [checkW_opened h, Res.ok_andThen, show validFSize .D 11 52 s = .ok () s from validFSize_native .D s]; rfl

theorem execRdfloat_native (nl : Bool) (s : State) (h : s.R.st = .opened) :
    exec (.rdfloat nl 23 8) s = complete (nullableRead nl (fDec .F 8 23) s) := by
  show complete ((checkR s).andThen fun _ s => (validFSize .F 8 23 s).andThen _) = _
  rw [checkR_opened h, Res.ok_andThen, show validFSize .F 8 23 s = .ok () s from validFSize_native .F s]; rfl

theorem execRddouble_native (nl : Bool) (s : State) (h : s.R.st = .opened) :
    exec (.rddouble nl 52 11) s = complete (nullableRead nl (fDec .D 11 52) s) := by
  show complete ((checkR s).andThen fun _ s => (validFSize .D 11 52 s).andThen _) = _
  rw [checkR_opened h, Res.ok_andThen, show validFSize .D 11 52 s = .ok () s from validFSize_native .D s]; rfl

-- V41; V45
theorem test_wrfloat : sent (exec (.wrfloat false 23 8) (holding 0x3F800000)) = some ([0x3F, 0x80, 0, 0], 0, 0) := by
  rw [execWrfloat_native _ _ rfl]; decide
theorem test_wrfloat_null : sent (exec (.wrfloat true 23 8) (holding 0x3F800000 false)) = some ([], 0, 1) := by
  rw [execWrfloat_native _ _ rfl]; decide
-- 43_float_codec.md R175; V46
theorem test_rdfloat : answer (exec (.rdfloat false 23 8) (reading [0xC0, 0x49, 0x0F, 0xDB])) = some (0, 0xC0490FDB) := by
  rw [execRdfloat_native _ _ rfl]; decide
theorem test_rdfloat_null : nullness (exec (.rdfloat true 23 8) (reading [0x4F])) = some (0, true) := by
  rw [execRdfloat_native _ _ rfl]; decide
-- V43, V44
theorem test_wrdouble :
    sent (exec (.wrdouble false 52 11) (holding 0x3FF0000000000000)) = some ([0x3F, 0xF0, 0, 0, 0, 0, 0, 0], 0, 0) := by
  rw [execWrdouble_native _ _ rfl]; decide
theorem test_rddouble :
    answer (exec (.rddouble false 52 11) (reading [0x3F, 0xF0, 0, 0, 0, 0, 0, 0])) = some (0, 0x3FF0000000000000) := by
  rw [execRddouble_native _ _ rfl]; decide

-- V49, V51, V59
theorem test_wrzerof : sent (issue State.reset 0x34000000 0x80000000) = some ([], 1, 1) := by decide
theorem test_wrzerof_normal : answer (issue State.reset 0x34000000 0x3F800000) = some (32, 0) := by decide
-- V50, V60
theorem test_rdzerof : answer (issue (reading [0xA0]) 0x35000000) = some (0, 0x80000000) := by decide
theorem test_rdzerof_null : nullness (issue (reading [0x58]) 0x35400000) = some (0, true) := by decide
-- 44_float_compressed.md R193, R194
theorem test_wrzerod : sent (issue State.reset 0x36000000 0x8000000000000000) = some ([], 1, 1) := by decide
theorem test_wrzerod_subnormal : answer (issue State.reset 0x36000000 0x80000000) = some (32, 0) := by decide
theorem test_rdzerod : answer (issue (reading [0x80]) 0x37000000) = some (0, 0x8000000000000000) := by decide
-- V49, V59
theorem test_wrinff : sent (issue State.reset 0x38000000 0xFF800000) = some ([], 1, 1) := by decide
theorem test_wrinff_present : sent (issue State.reset 0x38400000 0x7F800000) = some ([], 2, 2) := by decide
-- V50, V60
theorem test_rdinff : answer (issue (reading [0x80]) 0x39000000) = some (0, 0xFF800000) := by decide
theorem test_rdinff_present : answer (issue (reading [0x80]) 0x39400000) = some (0, 0x7F800000) := by decide
-- 1.5 of 95_test_vectors.md; V50
theorem test_wrinfd : sent (issue State.reset 0x3A000000 0xFFF0000000000000) = some ([], 1, 1) := by decide
theorem test_rdinfd : answer (issue (reading [0x00]) 0x3B000000) = some (0, 0x7FF0000000000000) := by decide
-- V52, V54
theorem test_wrsubf : sent (issue State.reset 0x3C00C000 0x00200000) = some ([], 2, 4) := by decide
theorem test_wrsubf_zero : answer (issue State.reset 0x3C00C000 0) = some (32, 0) := by decide
-- V53
theorem test_rdsubf : answer (issue (reading [0x2F]) 0x3D00C000) = some (0, 0x200000) := by decide
-- V52, V54, V53
theorem test_wrsubd : sent (issue State.reset 0x3E004000 0x0008000000000000) = some ([], 1, 2) := by decide
theorem test_wrsubd_53 : answer (issue State.reset 0x3E0D4000 1) = some (1, 0) := by decide
theorem test_rdsubd : answer (issue (reading [0x40]) 0x3F004000) = some (0, 0x0008000000000000) := by decide
-- V55
theorem test_wrnanf : sent (issue State.reset 0x40008000 0xFFC00000) = some ([], 6, 3) := by decide
theorem test_wrnanf_forced : sent (issue State.reset 0x40204000 0x7F800001) = some ([], 1, 1) := by decide
-- V56, V57
theorem test_rdnanf : answer (issue (reading [0xCE]) 0x41008000) = some (0, 0xFFC00000) := by decide
theorem test_rdnanf_zero_bits : answer (issue (reading [0x00]) 0x41208000) = some (0, 0x7F800000) := by decide
-- V55, V56, V57
theorem test_wrnand : sent (issue State.reset 0x42204000 0xFFF0000000000001) = some ([], 1, 1) := by decide
theorem test_rdnand : answer (issue (reading [0x80]) 0x43204000) = some (0, 0x7FF8000000000000) := by decide
theorem test_rdnand_zero_bits : answer (issue (reading [0x00]) 0x4300C000) = some (0, 0x7FF0000000000000) := by decide

-- The tables of section 6 of 95_test_vectors.md
theorem test_iszerof_ignores_high_bits : answer (issue State.reset 0x48000000 0x123480000000) = some (0, 1) := by decide
theorem test_iszerof_subnormal : answer (issue State.reset 0x48000000 1) = some (0, 0) := by decide
theorem test_iszerod : answer (issue State.reset 0x49000000 0x8000000000000000) = some (0, 1) := by decide
theorem test_iszerod_subnormal : answer (issue State.reset 0x49000000 1) = some (0, 0) := by decide
theorem test_isinff : answer (issue State.reset 0x4A000000 0xFF800000) = some (0, 1) := by decide
theorem test_isinff_nan : answer (issue State.reset 0x4A000000 0x7F800001) = some (0, 0) := by decide
theorem test_isinfd : answer (issue State.reset 0x4B000000 0xFFF0000000000000) = some (0, 1) := by decide
theorem test_isinfd_float_infinity : answer (issue State.reset 0x4B000000 0x7F800000) = some (0, 0) := by decide
theorem test_isnanf : answer (issue State.reset 0x4C000000 0xFFFFFFFF) = some (0, 1) := by decide
theorem test_isnanf_infinity : answer (issue State.reset 0x4C000000 0x7F800000) = some (0, 0) := by decide
theorem test_isnand : answer (issue State.reset 0x4D000000 0x7FF0000000000001) = some (0, 1) := by decide
theorem test_isnand_infinity : answer (issue State.reset 0x4D000000 0xFFF0000000000000) = some (0, 0) := by decide
theorem test_classf_normal : answer (issue State.reset 0x4E000000 0x7F7FFFFF) = some (0, 2) := by decide
theorem test_classf_subnormal : answer (issue State.reset 0x4E000000 0x807FFFFF) = some (0, 1) := by decide
theorem test_classd_subnormal : answer (issue State.reset 0x4F000000 0x7F800000) = some (0, 1) := by decide
theorem test_classd_nan : answer (issue State.reset 0x4F000000 0x7FF8000000000000) = some (0, 4) := by decide

-- 1.6 of 95_test_vectors.md; V62
theorem test_wrvlqi : sent (issue State.reset 0x50000000 128) = some ([0x80, 0x01], 0, 0) := by decide
theorem test_wrvlqi_negative : answer (issue State.reset 0x50000000 0xFFFFFFFF) = some (32, 0) := by decide
-- V65, V66
theorem test_rdvlqi_not_minimal : answer (issue (reading [0x81, 0x00]) 0x51000000) = some (0, 1) := by decide
theorem test_rdvlqi_too_large : answer (issue (reading [0x80, 0x80, 0x80, 0x80, 0x08]) 0x51000000) = some (33, 0) := by decide
-- V63, V64
theorem test_wrvlql :
    sent (issue State.reset 0x52000000 0x7FFFFFFFFFFFFFFF) = some ([0xFF, 0xFF, 0xFF, 0xFF, 0xFF, 0xFF, 0xFF, 0xFF, 0x7F], 0, 0) := by
  decide
theorem test_wrvlql_negative : answer (issue State.reset 0x52000000 0x8000000000000000) = some (32, 0) := by decide
-- V68, V69
theorem test_rdvlql :
    answer (issue (reading [0xFF, 0xFF, 0xFF, 0xFF, 0xFF, 0xFF, 0xFF, 0xFF, 0x7F]) 0x53000000) = some (0, 0x7FFFFFFFFFFFFFFF) := by
  decide
theorem test_rdvlql_ten_units :
    answer (issue (reading [0x80, 0x80, 0x80, 0x80, 0x80, 0x80, 0x80, 0x80, 0x80, 0x01]) 0x53000000) = some (33, 0) := by decide

-- 60_exceptions.md R261, as V72, V74 and V76: the order of the checks
theorem test_closed_before_size : answer (issue { State.reset with W := ⟨.closed, 0, 0, 0, 0, 0⟩ } 0x18000000) = some (4, 0) := by
  decide
theorem test_failed_before_size : answer (issue { State.reset with R := ⟨.failed, 0, 0, 0, 0, 0⟩ } 0x19000000) = some (34, 0) := by
  decide
theorem test_faulted_block : answer (issue { State.reset with S := ⟨true, false, false, 32⟩ } 0x24000000) = some (35, 0) := by decide
-- 41_bit_cursor.md R100, as V19: the byte before a refused one stays in OUT
theorem test_refused_byte :
    sent (issue { State.reset with outp := { OutChannel.reset with fail := [1] } } 0x1E000000 0xABCD) = some ([0xAB], 0xCD, 8) := by
  decide
theorem test_withFetchWord : (after (step (State.reset.withFetchWord 32 0x1C000000))).result = some ⟨0, false, 0⟩ := by decide
theorem test_decodeTableWord : decodeTableWord 32 0x0100C000 = some (.rdbits 3) := by decide

/-! ### Witnesses: for every obligation with hypotheses, states and operands that meet them, at the bounds of each clause -/

/-- A step that answers a next state with a decidable property. -/
theorem next_of {o : Host.Outcome State Fault Refusal} {P : State → Prop} [DecidablePred P]
    (h : (match o with | .next t => decide (P t) | .fault _ => false | .refused _ => false) = true) : ∃ t, o = .next t ∧ P t := by
  cases o with
  | next t => exact ⟨t, rfl, of_decide_eq_true h⟩
  | fault _ => cases h
  | refused _ => cases h

theorem statusIs_of {c : Status} {t : State} (h : t.result.map Result.status = some c.code) : statusIs c t := by
  match e : t.result with
  | none => rw [e] at h; cases h
  | some r => rw [e] at h; exact ⟨r, e, Option.some.inj h⟩

/-- A step that reports a status. -/
theorem reports_of {o : Host.Outcome State Fault Refusal} {c : Status}
    (h : (match o with
      | .next t => decide (t.result.map Result.status = some c.code)
      | .fault _ => false
      | .refused _ => false) = true) : ∃ t, o = .next t ∧ statusIs c t :=
  (next_of (P := fun t => t.result.map Result.status = some c.code) h).imp fun _ h => ⟨h.1, statusIs_of h.2⟩

/-- The state with one command to come. -/
def withCommand (s : State) (cmd : Word) (din : Data := 0) : State :=
  { s with queue := [{ cmd := cmd, din := din, present := true }] }

/-- The output side CLOSED, FAILED. -/
def closedW : State := { State.reset with W := ⟨.closed, 0, 0, 0, 0, 0⟩ }
def failedW : State := { State.reset with W := ⟨.failed, 0, 0, 0, 0, 0⟩ }

/-- The input side CLOSED, FAILED. -/
def closedR : State := { State.reset with R := ⟨.closed, 0, 0, 0, 0, 0⟩ }
def failedR : State := { State.reset with R := ⟨.failed, 0, 0, 0, 0, 0⟩ }

/-- Seven bits pending, and a channel that refuses the byte they belong to. -/
def refusing (din : Data) (present : Bool := true) : State :=
  { holding din present with W := ⟨.opened, 0, 7, 7, 0, 0⟩, outp := { OutChannel.reset with fail := [0] } }

/-- The hypotheses of `GuardedW` and of `GuardedR`. -/
abbrev TurnedAwayW : Prop := closedW.W.st = .closed ∧ failedW.W.st = .failed
abbrev TurnedAwayR : Prop := closedR.R.st = .closed ∧ failedR.R.st = .failed

/-- The hypotheses of `Writes` beside a ready writer: t bits accepted, and refused at the first byte. -/
abbrev WritesBoth (t : Nat) (s f : State) : Prop := (WriterReady s ∧ Accepts s t) ∧ WriterReady f ∧ FirstRefused f t 0

/-- The hypotheses of `Reads` beside a ready reader: t bits supplied, and missing at the first byte. -/
abbrev ReadsBoth (t : Nat) (s f : State) : Prop := (ReaderReady s ∧ Supplies s t) ∧ ReaderReady f ∧ FirstMissing f t 0

/-- Nine bytes to read. -/
def nineBytes : State := reading [0x80, 0, 0, 0, 0, 0, 0, 0, 0]

theorem witness_DecodeOfEncodeIsTheCommand : wellFormed (.wrnanf true false 127) = true ∧ wellFormed (.wrfloat true 0 15) = true := by
  decide
theorem witness_EncodeOfDecodeIsTheWord : decode 0x40610000 = .ok (.wrnanf true true 4) := by decide
theorem witness_StepRunsTheDecodedCommand :
    (withCommand State.reset 0x0100C000).queue = ⟨0x0100C000, 0, true⟩ :: [] ∧ (withCommand State.reset 0x0100C000).S.fault = false ∧
      decode 0x0100C000 = .ok (.rdbits 3) := by decide
theorem witness_EveryStepAnswersANextState : State.reset.queue = [] := by decide
theorem witness_IllegalWordsAreReportedAndChangeNothing :
    (withCommand State.reset 0x44000000).queue = ⟨0x44000000, 0, true⟩ :: [] ∧ (withCommand State.reset 0x44000000).S.fault = false ∧
      IllegalWord 0x44000000 ∧ IllegalWord 0x14800000 ∧ IllegalWord 0x02004400 ∧ IllegalWord 0x14000001 ∧
      ¬ IllegalWord 0x0109C000 := by
  unfold IllegalWord; decide
theorem witness_FaultedBlockIsQuiescent :
    (withCommand { State.reset with S := ⟨true, false, false, 32⟩ } 0x44000000).queue = ⟨0x44000000, 0, true⟩ :: [] ∧
      (withCommand { State.reset with S := ⟨true, false, false, 32⟩ } 0x44000000).S.fault = true := by decide
theorem witness_ResetIsFreshAndAloneClearsTheStickyBits :
    ∃ t, step (withCommand { State.reset with S := ⟨true, true, true, 35⟩ } 0x0A000000) = .next t ∧ t.S.fault = true :=
  next_of (by decide)
theorem witness_PreconditionFailureChangesNothingElse :
    (∃ t, step (withCommand State.reset 0x01000000) = .next t ∧ statusIs .invalidSize t) ∧
      (∃ t, step (withCommand State.reset 0x04000000) = .next t ∧ statusIs .invalidCount t) ∧
      (∃ t, step (withCommand State.reset 0x06000000) = .next t ∧ statusIs .invalidBoundary t) ∧
      (∃ t, step (withCommand closedW 0x06000000) = .next t ∧ statusIs .illegalState t) ∧
      (∃ t, step (withCommand State.reset 0x44000000) = .next t ∧ statusIs .illegalCommand t) :=
  ⟨reports_of (by decide), reports_of (by decide), reports_of (by decide), reports_of (by decide), reports_of (by decide)⟩
theorem witness_ModelFaultChangesNothingButBitsAlreadyRead :
    (∃ t, step (withCommand State.reset 0x34000000 1) = .next t ∧ statusIs .undefinedInput t) ∧
      (∃ t, step (withCommand failedR 0x15000000) = .next t ∧ statusIs .useAfterFailure t) ∧
      (∃ t, step (withCommand (reading [0x80, 0x80, 0x80, 0x80, 0x08]) 0x51000000) = .next t ∧ statusIs .malformedVlq t) :=
  ⟨reports_of (by decide), reports_of (by decide), reports_of (by decide)⟩
theorem witness_IoFailureFailsOneSideAlone :
    (∃ t, step (withCommand State.reset 0x15000000) = .next t ∧ statusIs .endOfInput t) ∧
      (∃ t, step (withCommand { State.reset with inp := { InChannel.reset with fail := [0] } } 0x15000000) = .next t ∧
        statusIs .channelIo t) ∧
      (∃ t, step (withCommand (refusing 0) 0x14000000) = .next t ∧ statusIs .channelIo t) :=
  ⟨reports_of (by decide), reports_of (by decide), reports_of (by decide)⟩
theorem witness_ClosedAndFailedSidesTurnCommandsAway :
    TurnedAwayW ∧ TurnedAwayR ∧ (closesASide .flushw = false ∧ sideOf .flushw = .output) ∧
      closesASide .rdvlqi = false ∧ sideOf .rdvlqi = .input := by decide
theorem witness_NoCommandTouchesBothSides :
    (∃ t, exec .rdbool (reading [0x80]) = .next t ∧ sideOf .rdbool ≠ .output) ∧
      ∃ t, exec .wrbool (holding 1) = .next t ∧ sideOf .wrbool ≠ .input := ⟨next_of (by decide), next_of (by decide)⟩
theorem witness_ChannelsOnlyMoveForward :
    WriterInv { State.reset with W := ⟨.opened, 0, 0, 8, 0, 1⟩, outp := { OutChannel.reset with bytes := [(0, 0xA5)] } } ∧
      Memory.read [(0, 0xA5)] 0 = some 0xA5 ∧
      ∃ t, step (withCommand
        { State.reset with W := ⟨.opened, 0, 0, 8, 0, 1⟩, outp := { OutChannel.reset with bytes := [(0, 0xA5)] } }
        0x1C000000) = .next t ∧ t.W.k = 2 :=
  ⟨by decide, by decide, next_of (by decide)⟩

/-- A side FAILED by the channel's refusal of its second byte. -/
def brokenW : State :=
  { State.reset with
    W := ⟨.failed, 0xCD, 8, 16, 0, 1⟩
    S := ⟨false, false, true, 17⟩
    result := some ⟨0, false, 17⟩
    outp := { OutChannel.reset with bytes := [(0, 0xAB)], fail := [1] } }

theorem witness_StepKeepsTheInvariant :
    (Inv (withCommand (reading [0xA5]) 0x0100C000) ∧
      ∃ t, step (withCommand (reading [0xA5]) 0x0100C000) = .next t ∧ t.R.n = 5) ∧
      Inv (withCommand brokenW 0x0A000000) :=
  ⟨⟨by decide, next_of (by decide)⟩, by decide⟩

/-- Seven bits pending on a channel that accepts every byte. -/
def sevenPending (din : Data) : State := { holding din with W := ⟨.opened, 0, 7, 7, 0, 0⟩ }

theorem witness_FieldsLieOnTheStreamMsbFirst :
    (ReaderInv nineBytes ∧ (∃ t, exec (.rdbits 1) nineBytes = .next t ∧ EndedOk 1 false nineBytes t) ∧
      ∃ t, exec (.rdbits 64) nineBytes = .next t ∧ EndedOk 0x8000000000000000 false nineBytes t) ∧
    (WriterInv (sevenPending 1) ∧
      (∃ t, exec (.wrbits 1) (sevenPending 1) = .next t ∧ EndedOk 0 false (sevenPending 1) t ∧ outLen (sevenPending 1) + 0 < 8 * t.W.k) ∧
      ∃ t, exec (.wrbits 64) (sevenPending 1) = .next t ∧ EndedOk 0 false (sevenPending 1) t ∧
        outLen (sevenPending 1) + 56 < 8 * t.W.k) := by
  unfold EndedOk
  exact ⟨⟨by decide, next_of (by decide), next_of (by decide)⟩, by decide, next_of (by decide), next_of (by decide)⟩

theorem witness_ByteCountsFollowThePositions :
    (WriterInv (sevenPending 1) ∧ (∃ u, exec (.wrbits 1) (sevenPending 1) = .next u ∧ statusIs .ok u) ∧
      ∃ u, exec (.wrbits 64) (sevenPending 1) = .next u ∧ statusIs .ok u) ∧
    (WriterInv brokenW ∧ ∃ u, exec .closew brokenW = .next u ∧ statusIs .ok u) ∧
    (∃ u, exec .resetw State.reset = .next u ∧ statusIs .ok u) ∧
    ReaderInv nineBytes ∧ (∃ u, exec (.rdbits 1) nineBytes = .next u ∧ statusIs .ok u) ∧
      ∃ u, exec (.rdbits 64) nineBytes = .next u ∧ statusIs .ok u :=
  ⟨⟨by decide, reports_of (by decide), reports_of (by decide)⟩, ⟨by decide, reports_of (by decide)⟩, reports_of (by decide),
    by decide, reports_of (by decide), reports_of (by decide)⟩

theorem witness_RdbitsReadsRawBits :
    TurnedAwayR ∧ (ReaderReady State.reset ∧ (0 < 1 ∨ 64 < 0)) ∧ (ReaderReady State.reset ∧ (65 < 1 ∨ 64 < 65)) ∧
      ReadsBoth 1 nineBytes State.reset ∧ ReadsBoth 64 nineBytes State.reset := by
  and_intros <;> decide

theorem witness_WrbitsWritesTheLowBits :
    TurnedAwayW ∧ (State.reset.W.st = .opened ∧ (0 < 1 ∨ 64 < 0)) ∧ (State.reset.W.st = .opened ∧ (65 < 1 ∨ 64 < 65)) ∧
      WritesBoth 1 (sevenPending 1) (refusing 1) ∧ WritesBoth 64 (sevenPending 1) (refusing 1) := by
  and_intros <;> decide

theorem witness_SkiprDiscardsBits :
    TurnedAwayR ∧ (ReaderReady (holding 0) ∧ dinInt 32 (holding 0) ≤ 0) ∧
      (ReaderReady (holding 0x80000000) ∧ dinInt 32 (holding 0x80000000) ≤ 0) ∧
      (dinInt 32 { nineBytes with port := (holding 1).port } = (1 : Nat) ∧
        ReadsBoth 1 { nineBytes with port := (holding 1).port } (holding 1)) ∧
      (dinInt 32 (holding 0x7FFFFFFF) = (2147483647 : Nat) ∧ ReaderReady (holding 0x7FFFFFFF)) := by
  and_intros <;> decide

theorem witness_SkipwWritesZeroBits :
    TurnedAwayW ∧ ((holding 0).W.st = .opened ∧ dinInt 32 (holding 0) ≤ 0) ∧
      ((holding 0x80000000).W.st = .opened ∧ dinInt 32 (holding 0x80000000) ≤ 0) ∧
      (dinInt 32 (sevenPending 1) = (1 : Nat) ∧ dinInt 32 (refusing 1) = (1 : Nat) ∧ WritesBoth 1 (sevenPending 1) (refusing 1)) ∧
      (dinInt 32 (holding 0x7FFFFFFF) = (2147483647 : Nat) ∧ WriterReady (holding 0x7FFFFFFF)) := by
  and_intros <;> decide

/-- One bit read of these bytes. -/
def oneBitRead (din : Data) (bs : List Byte) : State := { reading bs with R := ⟨.opened, 0, 7, 1, 0, 1⟩, port := (holding din).port }

/-- One bit written. -/
def oneBitWritten (din : Data) : State := { holding din with W := ⟨.opened, 0, 1, 1, 0, 0⟩ }

theorem witness_AlignrDiscardsToTheBoundary :
    TurnedAwayR ∧ (ReaderReady (holding 0) ∧ dinInt 32 (holding 0) ≤ 0) ∧
      (dinInt 32 (oneBitRead 1 [0x80]) = (1 : Nat) ∧ ReaderReady (oneBitRead 1 [0x80]) ∧
        7 < 8 * 1 ∧ ((oneBitRead 1 [0x80]).R.pos - (oneBitRead 1 [0x80]).R.base + 7) % (8 * 1) = 0 ∧ Supplies (oneBitRead 1 [0x80]) 7) ∧
      (dinInt 32 (oneBitRead 2 [0x80]) = (2 : Nat) ∧ ReaderReady (oneBitRead 2 [0x80]) ∧
        15 < 8 * 2 ∧ ((oneBitRead 2 [0x80]).R.pos - (oneBitRead 2 [0x80]).R.base + 15) % (8 * 2) = 0 ∧
        FirstMissing (oneBitRead 2 [0x80]) 15 1) ∧
      (dinInt 32 (holding 1) = (1 : Nat) ∧ ReaderReady (holding 1) ∧ 0 < 8 * 1 ∧
        ((holding 1).R.pos - (holding 1).R.base + 0) % (8 * 1) = 0 ∧ Supplies (holding 1) 0) := by
  and_intros <;> decide

theorem witness_AlignwPadsToTheBoundary :
    TurnedAwayW ∧ ((holding 0).W.st = .opened ∧ dinInt 32 (holding 0) ≤ 0) ∧
      (dinInt 32 (oneBitWritten 1) = (1 : Nat) ∧ WriterReady (oneBitWritten 1) ∧
        7 < 8 * 1 ∧ ((oneBitWritten 1).W.pos - (oneBitWritten 1).W.base + 7) % (8 * 1) = 0 ∧ Accepts (oneBitWritten 1) 7) ∧
      (dinInt 32 (refusing 1) = (1 : Nat) ∧ WriterReady (refusing 1) ∧
        1 < 8 * 1 ∧ ((refusing 1).W.pos - (refusing 1).W.base + 1) % (8 * 1) = 0 ∧ FirstRefused (refusing 1) 1 0) ∧
      (dinInt 32 (holding 1) = (1 : Nat) ∧ WriterReady (holding 1) ∧ 0 < 8 * 1 ∧
        ((holding 1).W.pos - (holding 1).W.base + 0) % (8 * 1) = 0 ∧ Accepts (holding 1) 0) := by
  and_intros <;> decide

theorem witness_ResetwClearsThePositions :
    TurnedAwayW ∧ ((oneBitWritten 0).W.st = .opened ∧ (oneBitWritten 0).W.n ≠ 0) ∧ State.reset.W.st = .opened ∧ State.reset.W.n = 0 := by
  decide
theorem witness_FlushwPassesOneFlush :
    TurnedAwayW ∧ (State.reset.W.st = .opened ∧ State.reset.outp.flushes ∉ State.reset.outp.flushFail) ∧
      (let s := { State.reset with outp := { OutChannel.reset with flushFail := [0] } }
       s.W.st = .opened ∧ s.outp.flushes ∈ s.outp.flushFail) := by
  and_intros <;> decide

theorem witness_ClosewClosesOnce :
    closedW.W.st = .closed ∧ (State.reset.W.st ≠ .closed ∧ State.reset.outp.closeFail = false) ∧
      (failedW.W.st ≠ .closed ∧ failedW.outp.closeFail = false) ∧
      (let s := { State.reset with outp := { OutChannel.reset with closeFail := true } }
       s.W.st ≠ .closed ∧ s.outp.closeFail = true) := by
  and_intros <;> decide

theorem witness_CloserClosesOnce :
    closedR.R.st = .closed ∧ (State.reset.R.st ≠ .closed ∧ State.reset.inp.closeFail = false) ∧
      (failedR.R.st ≠ .closed ∧ failedR.inp.closeFail = false) ∧
      (let s := { State.reset with inp := { InChannel.reset with closeFail := true } }
       s.R.st ≠ .closed ∧ s.inp.closeFail = true) := by
  and_intros <;> decide

theorem witness_AlignResultsAgree :
    (oneBitWritten 1).W.pos = (oneBitRead 1 [0x80]).R.pos ∧ (oneBitWritten 1).W.base = (oneBitRead 1 [0x80]).R.base ∧
      (oneBitWritten 1).port.din = (oneBitRead 1 [0x80]).port.din ∧
      (∃ t, exec .alignw (oneBitWritten 1) = .next t ∧ statusIs .ok t) ∧
      ∃ u, exec .alignr (oneBitRead 1 [0x80]) = .next u ∧ statusIs .ok u :=
  ⟨by decide, by decide, by decide, reports_of (by decide), reports_of (by decide)⟩
theorem witness_MatchingCommandsMoveEquallyManyBits :
    (counterpart .skipw = some .skipr ∧ (oneBitWritten 3).port.din = (oneBitRead 3 [0x80]).port.din ∧
      writesNull .skipw (oneBitWritten 3) = false ∧
      (∃ t, exec .skipw (oneBitWritten 3) = .next t ∧ EndedOk 0 false (oneBitWritten 3) t) ∧
      ∃ u, exec .skipr (oneBitRead 3 [0x80]) = .next u ∧ EndedOk 0 false (oneBitRead 3 [0x80]) u) ∧
    (counterpart (.wrzerof true) = some (.rdzerof true) ∧ (holding 0 false).port.din = (reading [0]).port.din ∧
      writesNull (.wrzerof true) (holding 0 false) = true ∧
      (∃ t, exec (.wrzerof true) (holding 0 false) = .next t ∧ EndedOk 0 false (holding 0 false) t) ∧
      ∃ u, exec (.rdzerof true) (reading [0]) = .next u ∧ EndedOk 0 true (reading [0]) u) := by
  unfold EndedOk
  exact ⟨⟨by decide, by decide, by decide, next_of (by decide), next_of (by decide)⟩,
    by decide, by decide, by decide, next_of (by decide), next_of (by decide)⟩

/-- The bounds of a sized integer write: sizes just outside, values just outside, and the two ends of the codomain. -/
abbrev SizedBounds (N : Nat) (tooLow tooHigh low high : Data) : Prop :=
  (¬ LegalIntSize N false 0 ∧ ¬ LegalIntSize N false (N + 1) ∧ ¬ LegalIntSize N true 0 ∧ ¬ LegalIntSize N true N) ∧
    (LegalIntSize N false 3 ∧ ¬ IntCodomain false 3 (dinInt N (holding tooLow)) ∧ ¬ IntCodomain false 3 (dinInt N (holding tooHigh))) ∧
    (LegalIntSize N true 2 ∧ ¬ IntCodomain true 2 (dinInt N (holding low)) ∧ ¬ IntCodomain true 2 (dinInt N (holding tooHigh))) ∧
    (IntCodomain false 3 (dinInt N (holding low)) ∧ IntCodomain false 3 (dinInt N (holding high))) ∧
    (LegalIntSize N false 1 ∧ IntCodomain false 1 (dinInt N (holding 0)) ∧ WritesBoth 1 (sevenPending 0) (refusing 0)) ∧
    (LegalIntSize N false N ∧ IntCodomain false N (dinInt N (holding low)) ∧ WritesBoth N (sevenPending low) (refusing low)) ∧
    (LegalIntSize N true (N - 1) ∧ IntCodomain true (N - 1) (dinInt N (holding high)) ∧
      WritesBoth (N - 1) (sevenPending high) (refusing high))

theorem witness_SizedIntegerWritesFollowTheirRules :
    TurnedAwayW ∧ State.reset.W.st = .opened ∧ SizedBounds 32 0xFFFFFFFB 4 0xFFFFFFFC 3 ∧
      SizedBounds 64 0xFFFFFFFFFFFFFFFB 4 0xFFFFFFFFFFFFFFFC 3 ∧ SizedBounds 8 0xFB 4 0xFC 3 ∧ SizedBounds 16 0xFFFB 4 0xFFFC 3 := by
  and_intros <;> decide

/-- The bounds of a sized integer read. -/
abbrev SizedReadBounds (N : Nat) : Prop :=
  (¬ LegalIntSize N false 0 ∧ ¬ LegalIntSize N false (N + 1) ∧ ¬ LegalIntSize N true 0 ∧ ¬ LegalIntSize N true N) ∧
    (LegalIntSize N false 1 ∧ LegalIntSize N true 1 ∧ ReadsBoth 1 nineBytes State.reset) ∧
    (LegalIntSize N false N ∧ ReadsBoth N nineBytes State.reset) ∧
    (LegalIntSize N true (N - 1) ∧ ReadsBoth (N - 1) nineBytes State.reset)

theorem witness_SizedIntegerReadsFollowTheirRules :
    TurnedAwayR ∧ ReaderReady State.reset ∧ SizedReadBounds 32 ∧ SizedReadBounds 64 ∧ SizedReadBounds 8 ∧ SizedReadBounds 16 := by
  and_intros <;> decide

theorem witness_CharCommandsFollowTheirRules :
    TurnedAwayW ∧ TurnedAwayR ∧ (State.reset.W.st = .opened ∧ (0 < 1 ∨ 16 < 0) ∧ (17 < 1 ∨ 16 < 17)) ∧
      ((holding 2).W.st = .opened ∧ 2 ^ 1 ≤ (holding 2).port.din.toNat % 2 ^ 16) ∧
      ((holding 0x8000).port.din.toNat % 2 ^ 16 < 2 ^ 16 ∧ WritesBoth 16 (sevenPending 0x8000) (refusing 0x8000)) ∧
      ((holding 1).port.din.toNat % 2 ^ 16 < 2 ^ 1 ∧ WritesBoth 1 (sevenPending 1) (refusing 1)) ∧
      ReadsBoth 1 nineBytes State.reset ∧ ReadsBoth 16 nineBytes State.reset := by
  and_intros <;> decide

theorem witness_WholeValueCommandsFollowTheirRules :
    TurnedAwayW ∧ TurnedAwayR ∧
      ∀ N ∈ [1, 8, 16, 32, 64], WritesBoth N (sevenPending 1) (refusing 1) ∧ ReadsBoth N nineBytes State.reset := by
  and_intros <;> decide

/-- The hypotheses of `ReadBackBy` and `ReadBackAs` beside ready sides: the write ends OK, and the reader stands where its t bits are. -/
def Back (w : Instr) (t : Nat) (s q : State) : Prop :=
  WriterReady s ∧ ReaderReady q ∧ Supplies q t ∧ ∃ s', exec w s = .next s' ∧ EndedOk 0 false s s' ∧ ReadsBack t s s' q

theorem back_of {w : Instr} {t : Nat} {s q : State} (h : WriterReady s ∧ ReaderReady q ∧ Supplies q t)
    (e : (match exec w s with
      | .next s' => decide ((s'.result = some { dout := 0, isnull := false, status := 0 } ∧ s'.S = { s.S with last := 0 }) ∧
          ∀ i, i < t → inBit q i = outBit s' (outLen s + i))
      | .fault _ => false
      | .refused _ => false) = true) : Back w t s q :=
  ⟨h.1, h.2.1, h.2.2, next_of (P := fun s' =>
    (s'.result = some { dout := 0, isnull := false, status := 0 } ∧ s'.S = { s.S with last := 0 }) ∧
      ∀ i, i < t → inBit q i = outBit s' (outLen s + i)) e⟩

theorem witness_IntegersReadBack :
    (Back (.wrint false 32) 32 (holding 0x80000001) (reading [0x80, 0, 0, 1]) ∧ Back (.wrint true 1) 1 (holding 1) (reading [0x80])) ∧
    (Back (.wrlong false 64) 64 (holding 0x80000000000000FF) (reading [0x80, 0, 0, 0, 0, 0, 0, 0xFF]) ∧
      Back (.wrlong true 1) 1 (holding 1) (reading [0x80])) ∧
    (Back (.wrbyte false 8) 8 (holding 0x80) (reading [0x80]) ∧ Back (.wrbyte true 1) 1 (holding 1) (reading [0x80])) ∧
    (Back (.wrshort false 16) 16 (holding 0x8001) (reading [0x80, 0x01]) ∧ Back (.wrshort true 1) 1 (holding 1) (reading [0x80])) ∧
    (Back (.wrchar 16) 16 (holding 0x8001) (reading [0x80, 0x01]) ∧ Back (.wrchar 1) 1 (holding 1) (reading [0x80])) ∧
    Back .wrbool 1 (holding 1) (reading [0x80]) ∧ Back .wrbyte8 8 (holding 0xA5) (reading [0xA5]) ∧
    Back .wrshort16 16 (holding 0xBEEF) (reading [0xBE, 0xEF]) ∧ Back .wrchar16 16 (holding 0x41) (reading [0x00, 0x41]) ∧
    Back .wrint32 32 (holding 0xDEADBEEF) (reading [0xDE, 0xAD, 0xBE, 0xEF]) ∧
    Back .wrlong64 64 (holding 0x0102030405060708) (reading [1, 2, 3, 4, 5, 6, 7, 8]) := by
  refine ⟨⟨?_, ?_⟩, ⟨?_, ?_⟩, ⟨?_, ?_⟩, ⟨?_, ?_⟩, ⟨?_, ?_⟩, ?_, ?_, ?_, ?_, ?_, ?_⟩ <;> exact back_of (by decide) (by decide)

theorem witness_StoredFieldsOfEachCategory :
    (1 ≤ 5 ∧ 5 ≤ Fmt.F.expBits ∧ 1 ≤ 10 ∧ 10 ≤ Fmt.F.sigBits ∧ 0 < 2 ∧ 255 < 2 ^ Fmt.F.expBits ∧ 1 < 2 ^ Fmt.F.sigBits) ∧
      (1 ≤ 1 ∧ 11 ≤ Fmt.D.expBits ∧ 52 ≤ Fmt.D.sigBits ∧ 1 < 2 ∧ 2047 < 2 ^ Fmt.D.expBits ∧ 2 ^ 52 - 1 < 2 ^ Fmt.D.sigBits) := by decide
theorem witness_RebuiltPatternOfStoredFields :
    (1 ≤ 5 ∧ 5 ≤ Fmt.F.expBits ∧ 1 ≤ 10 ∧ 10 ≤ Fmt.F.sigBits ∧ 1 < 2 ∧ 0 < 2 ^ 5 ∧ 1023 < 2 ^ 10) ∧
      (31 < 2 ^ 5 ∧ 31 = 2 ^ 5 - 1) ∧ (1 < 2 ^ 5 ∧ 1 ≠ 0 ∧ 1 ≠ 2 ^ 5 - 1) ∧ (30 < 2 ^ 5 ∧ 30 ≠ 0 ∧ 30 ≠ 2 ^ 5 - 1) := by decide
theorem witness_FloatFieldsRebuildTheValue :
    (1 ≤ 1 ∧ 1 ≤ Fmt.F.expBits ∧ 1 ≤ Fmt.F.sigBits ∧ 0x7F800001 < 2 ^ Fmt.F.width ∧ fEncFields .F 1 1 0x7F800001 = some ⟨0, 1, 1⟩) ∧
      (11 ≤ Fmt.D.expBits ∧ 52 ≤ Fmt.D.sigBits ∧ 0xC00921FB54442D18 < 2 ^ Fmt.D.width ∧
        fEncFields .D 11 52 0xC00921FB54442D18 = some ⟨1, 0x400, 0x921FB54442D18⟩) := by decide

/-- The native sizes are legal and the sizes above them are not, whatever the minimum sizes are. -/
theorem legal_native (fmt : Fmt) : LegalFloatSize fmt fmt.expBits fmt.sigBits ∧ ¬ LegalFloatSize fmt (fmt.expBits + 1) fmt.sigBits ∧
    ¬ LegalFloatSize fmt fmt.expBits (fmt.sigBits + 1) ∧ ¬ LegalFloatSize fmt 0 fmt.sigBits :=
  ⟨⟨fmt.expMin_le, le_refl _, fmt.sigMin_le, le_refl _⟩, fun h => absurd h.2.1 (by omega), fun h => absurd h.2.2.2 (by omega),
    fun h => absurd (Nat.le_trans fmt.expMin_pos h.1) (by omega)⟩

/-- The clause of a value that has no stored fields needs an exponent smaller than the native one, so it has a witness where the
build parameters allow such a size (92_eei_decisions.md D17). -/
theorem witness_GeneralFloatWritesFollowTheirRules :
    TurnedAwayW ∧ State.reset.W.st = .opened ∧
      (LegalFloatSize .F 8 23 ∧ ¬ LegalFloatSize .F 9 23 ∧ ¬ LegalFloatSize .F 8 24 ∧ ¬ LegalFloatSize .F 0 23) ∧
      (LegalFloatSize .D 11 52 ∧ ¬ LegalFloatSize .D 12 52 ∧ ¬ LegalFloatSize .D 11 53 ∧ ¬ LegalFloatSize .D 0 52) ∧
      (WritesBoth (1 + 8 + 23) (sevenPending 0x3F800000) (refusing 0x3F800000) ∧
        WritesBoth (1 + 8 + 23 + 1) (sevenPending 0x3F800000) (refusing 0x3F800000) ∧
        (fEncFields .F 8 23 0x3F800000).map (storedNumber 8 23) = some 0x3F800000 ∧ (holding 0x3F800000).port.present = true) ∧
      (WritesBoth (1 + 11 + 52) (sevenPending 1) (refusing 1) ∧ WritesBoth (1 + 11 + 52 + 1) (sevenPending 1) (refusing 1) ∧
        (fEncFields .D 11 52 1).map (storedNumber 11 52) = some 1) ∧
      (WritesBoth 1 { sevenPending 0 with port := (holding 0 false).port } (refusing 0 false) ∧ (holding 0 false).port.present = false) ∧
      (Fmt.F.expMin ≤ 5 → Fmt.F.sigMin ≤ 10 → LegalFloatSize .F 5 10 ∧ fEncFields .F 5 10 0x47800000 = none) ∧
      (Fmt.D.expMin ≤ 5 → Fmt.D.sigMin ≤ 10 → LegalFloatSize .D 5 10 ∧ fEncFields .D 5 10 0x40F0000000000000 = none) :=
  ⟨by decide, by decide, legal_native .F, legal_native .D, by decide, by decide, by decide,
    fun h g => ⟨⟨h, by decide, g, by decide⟩, by decide⟩, fun h g => ⟨⟨h, by decide, g, by decide⟩, by decide⟩⟩

theorem witness_GeneralFloatReadsFollowTheirRules :
    TurnedAwayR ∧ ReaderReady State.reset ∧
      (LegalFloatSize .F 8 23 ∧ ¬ LegalFloatSize .F 9 23 ∧ ¬ LegalFloatSize .F 8 24 ∧ ¬ LegalFloatSize .F 0 23) ∧
      (LegalFloatSize .D 11 52 ∧ ¬ LegalFloatSize .D 12 52 ∧ ¬ LegalFloatSize .D 11 53 ∧ ¬ LegalFloatSize .D 0 52) ∧
      ReadsBoth (0 + (1 + 8 + 23)) nineBytes State.reset ∧ ReadsBoth (0 + (1 + 11 + 52)) nineBytes State.reset ∧
      (inBit nineBytes 0 = true ∧ ReadsBoth (1 + (1 + 8 + 23)) nineBytes (reading []) ∧
        ReadsBoth (1 + (1 + 11 + 52)) nineBytes (reading [])) ∧
      (inBit (reading [0x4F]) 0 = false ∧ Supplies (reading [0x4F]) 1) ∧ inBit State.reset 0 = false ∧ FirstMissing State.reset 1 0 :=
  ⟨by decide, by decide, legal_native .F, legal_native .D, by and_intros <;> decide⟩

theorem back_wrfloat {nl : Bool} {t : Nat} {s q : State} (h : WriterReady s ∧ ReaderReady q ∧ Supplies q t)
    (e : (match complete ((nullableWrite nl (fEncFields .F 8 23 (dinBits 32 s)) (fPut 8 23) s).andThen fun _ s => done 0 s) with
      | .next s' => decide ((s'.result = some { dout := 0, isnull := false, status := 0 } ∧ s'.S = { s.S with last := 0 }) ∧
          ∀ i, i < t → inBit q i = outBit s' (outLen s + i))
      | .fault _ => false
      | .refused _ => false) = true) : Back (.wrfloat nl 23 8) t s q :=
  back_of h (by rw [execWrfloat_native nl s h.1.1]; exact e)

theorem back_wrdouble {nl : Bool} {t : Nat} {s q : State} (h : WriterReady s ∧ ReaderReady q ∧ Supplies q t)
    (e : (match complete ((nullableWrite nl (fEncFields .D 11 52 (dinBits 64 s)) (fPut 11 52) s).andThen fun _ s => done 0 s) with
      | .next s' => decide ((s'.result = some { dout := 0, isnull := false, status := 0 } ∧ s'.S = { s.S with last := 0 }) ∧
          ∀ i, i < t → inBit q i = outBit s' (outLen s + i))
      | .fault _ => false
      | .refused _ => false) = true) : Back (.wrdouble nl 52 11) t s q :=
  back_of h (by rw [execWrdouble_native nl s h.1.1]; exact e)

theorem witness_FullWidthFloatsReadBack :
    Back (.wrfloat false 23 8) (32 + 0) (holding 0xFF800001) (reading [0xFF, 0x80, 0x00, 0x01]) ∧
      Back (.wrdouble false 52 11) (64 + 0) (holding 0x7FF0000000000001) (reading [0x7F, 0xF0, 0, 0, 0, 0, 0, 1]) ∧
      ((holding 0x80000001).port.present = true ∧
        Back (.wrfloat true 23 8) (32 + 1) (holding 0x80000001) (reading [0xC0, 0x00, 0x00, 0x00, 0x80])) ∧
      ((holding 0x8000000000000001).port.present = true ∧
        Back (.wrdouble true 52 11) (64 + 1) (holding 0x8000000000000001) (reading [0xC0, 0, 0, 0, 0, 0, 0, 0, 0x80])) ∧
      ((holding 0 false).port.present = false ∧ Back (.wrfloat true 23 8) 1 (holding 0 false) (reading [0x4F])) ∧
      Back (.wrdouble true 52 11) 1 (holding 0 false) (reading [0x4F]) :=
  ⟨back_wrfloat (by decide) (by decide), back_wrdouble (by decide) (by decide),
    ⟨by decide, back_wrfloat (by decide) (by decide)⟩, ⟨by decide, back_wrdouble (by decide) (by decide)⟩,
    ⟨by decide, back_wrfloat (by decide) (by decide)⟩, back_wrdouble (by decide) (by decide)⟩

theorem witness_CategoryFollowsTheMagnitude :
    (0 < 2 ∧ 2 ^ 31 - 1 < 2 ^ (Fmt.F.width - 1)) ∧ (1 < 2 ∧ 2 ^ 63 - 1 < 2 ^ (Fmt.D.width - 1)) := by decide

/-- The hypotheses of `NullableWrites` for a payload of t bits: plain, present, null, and a value of another category. -/
abbrev NullableWriteBounds (t : Nat) (ok : Data) : Prop :=
  WritesBoth t (sevenPending ok) (refusing ok) ∧ ((holding ok).port.present = true ∧ WritesBoth (t + 1) (sevenPending ok) (refusing ok)) ∧
    (holding ok false).port.present = false ∧
    WritesBoth 1 { sevenPending ok with port := (holding ok false).port } (refusing ok false)

/-- The hypotheses of `NullableReads` for a payload of t bits. -/
abbrev NullableReadBounds (t : Nat) : Prop :=
  ReadsBoth (0 + t) nineBytes State.reset ∧ (inBit nineBytes 0 = true ∧ Supplies nineBytes (1 + t)) ∧
    (inBit (reading [0xFF]) 0 = true ∧ (t < 8 ∨ FirstMissing (reading [0xFF]) (1 + t) 1)) ∧
    (inBit (reading [0]) 0 = false ∧ Supplies (reading [0]) 1) ∧ inBit State.reset 0 = false ∧ FirstMissing State.reset 1 0

theorem witness_ZeroCodecsFollowTheirRules :
    TurnedAwayW ∧ TurnedAwayR ∧ NullableWriteBounds 1 0x80000000 ∧ NullableReadBounds 1 ∧
      (magnitudeOnDin .F (holding 0x80000000) = 0 ∧ magnitudeOnDin .F (holding 1) ≠ 0) ∧
      (magnitudeOnDin .D (holding 0x8000000000000000) = 0 ∧ magnitudeOnDin .D (holding 1) ≠ 0) ∧
      (let s := { reading [0xFF] with R := ⟨.opened, 1, 1, 7, 0, 1⟩ }
       inBit s 0 = true ∧ FirstMissing s (1 + 1) 1) := by
  and_intros <;> decide

theorem witness_InfinityCodecsFollowTheirRules :
    TurnedAwayW ∧ TurnedAwayR ∧ NullableWriteBounds 1 0xFF800000 ∧ NullableReadBounds 1 ∧
      (magnitudeOnDin .F (holding 0xFF800000) = 0x7F800000 ∧ magnitudeOnDin .F (holding 0x7F800001) ≠ 0x7F800000) ∧
      (magnitudeOnDin .D (holding 0xFFF0000000000000) = 0x7FF0000000000000 ∧
        magnitudeOnDin .D (holding 0x7FEFFFFFFFFFFFFF) ≠ 0x7FF0000000000000) ∧
      (let s := { reading [0xFF] with R := ⟨.opened, 1, 1, 7, 0, 1⟩ }
       inBit s 0 = true ∧ FirstMissing s (1 + 1) 1) := by
  and_intros <;> decide

theorem witness_SubnormalCodecsFollowTheirRules :
    TurnedAwayW ∧ TurnedAwayR ∧ (State.reset.W.st = .opened ∧ ReaderReady State.reset ∧ (0 < 1 ∨ Fmt.F.sigBits < 0) ∧
        (24 < 1 ∨ Fmt.F.sigBits < 24) ∧ (53 < 1 ∨ Fmt.D.sigBits < 53)) ∧
      (NullableWriteBounds (1 + 1) 1 ∧ NullableWriteBounds (1 + 23) 1 ∧ NullableWriteBounds (1 + 52) 1) ∧
      (NullableReadBounds (1 + 1) ∧ NullableReadBounds (1 + 23) ∧ NullableReadBounds (1 + 52)) ∧
      ((0 < magnitudeOnDin .F (holding 0x807FFFFF) ∧ magnitudeOnDin .F (holding 0x807FFFFF) < 0x00800000) ∧
        ¬ (0 < magnitudeOnDin .F (holding 0) ∧ magnitudeOnDin .F (holding 0) < 0x00800000)) ∧
      ((0 < magnitudeOnDin .D (holding 1) ∧ magnitudeOnDin .D (holding 1) < 0x0010000000000000) ∧
        ¬ (0 < magnitudeOnDin .D (holding 0x0010000000000000) ∧
          magnitudeOnDin .D (holding 0x0010000000000000) < 0x0010000000000000)) := by
  and_intros <;> decide

theorem witness_NanCodecsFollowTheirRules :
    TurnedAwayW ∧ TurnedAwayR ∧ (State.reset.W.st = .opened ∧ ReaderReady State.reset ∧ (0 < 1 ∨ Fmt.F.sigBits < 0) ∧
        (24 < 1 ∨ Fmt.F.sigBits < 24) ∧ (53 < 1 ∨ Fmt.D.sigBits < 53)) ∧
      (NullableWriteBounds 1 0x7FC00000 ∧ NullableWriteBounds (1 + 23) 0x7FC00000 ∧ NullableWriteBounds 52 0x7FF0000000000001) ∧
      (NullableReadBounds 1 ∧ NullableReadBounds (1 + 23) ∧ NullableReadBounds 52) ∧
      (0x7F800000 < magnitudeOnDin .F (holding 0x7F800001) ∧ ¬ 0x7F800000 < magnitudeOnDin .F (holding 0xFF800000)) ∧
      (0x7FF0000000000000 < magnitudeOnDin .D (holding 0xFFF0000000000001) ∧
        ¬ 0x7FF0000000000000 < magnitudeOnDin .D (holding 0x7FF0000000000000)) := by
  and_intros <;> decide

/-- A null that the command w writes, and a reader before it. -/
def NullBack (w : Instr) : Prop := Back w 1 (holding 0 false) (reading [0x4F])

theorem witness_CompressedValuesReadBack :
    (Back (.wrzerof false) 1 (holding 0x80000000) (reading [0x80]) ∧ Back (.wrzerod false) 1 (holding 0) (reading [0]) ∧
      Back (.wrinff false) 1 (holding 0xFF800000) (reading [0x80]) ∧
      Back (.wrinfd false) 1 (holding 0x7FF0000000000000) (reading [0])) ∧
    (Back (.wrsubf false 3) (1 + 3) (holding 0x00200001) (reading [0x20]) ∧
      Back (.wrsubf false 23) (1 + 23) (holding 0x80000001) (reading [0x80, 0x00, 0x01]) ∧
      Back (.wrsubd false 1) (1 + 1) (holding 0x0008000000000000) (reading [0x40])) ∧
    (Back (.wrnanf false false 1) (1 + 1) (holding 0xFF800001) (reading [0xC0]) ∧
      Back (.wrnanf false false 23) (1 + 23) (holding 0xFF800001) (reading [0x80, 0x00, 0x01]) ∧
      Back (.wrnand false false 1) (1 + 1) (holding 0x7FF0000000000001) (reading [0x40]) ∧
      Back (.wrnand false false 52) (1 + 52) (holding 0x7FF0000000000001) (reading [0, 0, 0, 0, 0, 0, 0x08]) ∧
      Back (.wrnanf false true 2) 2 (holding 0xFFA00000) (reading [0x40]) ∧
      Back (.wrnand false true 1) 1 (holding 0xFFF0000000000001) (reading [0x80])) ∧
    ((holding 0x80000000).port.present = true ∧ Back (.wrzerof true) (1 + 1) (holding 0x80000000) (reading [0xC0]) ∧
      Back (.wrinfd true) (1 + 1) (holding 0x7FF0000000000000) (reading [0x80]) ∧
      Back (.wrsubf true 3) (1 + 3 + 1) (holding 0x00200001) (reading [0x90]) ∧
      Back (.wrnanf true true 2) (2 + 1) (holding 0xFFA00000) (reading [0xA0])) ∧
    ((holding 0 false).port.present = false ∧ NullBack (.wrzerof true) ∧ NullBack (.wrzerod true) ∧ NullBack (.wrinff true) ∧
      NullBack (.wrinfd true) ∧ NullBack (.wrsubf true 1) ∧ NullBack (.wrsubd true 52) ∧ NullBack (.wrnanf true true 23) ∧
      NullBack (.wrnand true false 1)) := by
  refine ⟨⟨?_, ?_, ?_, ?_⟩, ⟨?_, ?_, ?_⟩, ⟨?_, ?_, ?_, ?_, ?_, ?_⟩, ⟨by decide, ?_, ?_, ?_, ?_⟩, by decide, ?_, ?_, ?_, ?_, ?_, ?_, ?_, ?_⟩ <;>
    exact back_of (by decide) (by decide)

theorem witness_VlqWritesFollowTheirRules :
    TurnedAwayW ∧ ((holding 0x80000000).W.st = .opened ∧ dinInt 32 (holding 0x80000000) < 0) ∧
      dinInt 64 (holding 0x8000000000000000) < 0 ∧
      (dinInt 32 (holding 0) = (0 : Nat) ∧ WritesBoth (8 * vlqLen 0) (sevenPending 0) (refusing 0)) ∧
      (dinInt 32 (holding 0x7FFFFFFF) = (0x7FFFFFFF : Nat) ∧
        WritesBoth (8 * vlqLen 0x7FFFFFFF) (sevenPending 0x7FFFFFFF) (refusing 0x7FFFFFFF)) ∧
      (dinInt 64 (holding 0x7FFFFFFFFFFFFFFF) = (0x7FFFFFFFFFFFFFFF : Nat) ∧
        WritesBoth (8 * vlqLen 0x7FFFFFFFFFFFFFFF) (sevenPending 0x7FFFFFFFFFFFFFFF) (refusing 0x7FFFFFFFFFFFFFFF)) := by
  and_intros <;> decide

/-- Eight units that go on, then this one. -/
def eightUnitsThen (b : Byte) : State := reading [0xFF, 0xFF, 0xFF, 0xFF, 0xFF, 0xFF, 0xFF, 0xFF, b]

theorem witness_VlqReadsFollowTheirRules :
    (TurnedAwayR ∧ ReaderReady (reading [5])) ∧
      (UnitsGoOn 31 0 (reading [5]) ∧ unitContinues (reading [5]) 0 = false ∧ unitGroup (reading [5]) 0 * 2 ^ (7 * 0) < 2 ^ 31 ∧
        Supplies (reading [5]) (8 * (0 + 1))) ∧
      (let s := reading [0xFF, 0xFF, 0xFF, 0xFF, 0x07]
       UnitsGoOn 31 4 s ∧ unitContinues s 4 = false ∧ unitGroup s 4 * 2 ^ (7 * 4) < 2 ^ 31 ∧ Supplies s (8 * (4 + 1))) ∧
      (UnitsGoOn 63 8 (eightUnitsThen 0x7F) ∧ unitContinues (eightUnitsThen 0x7F) 8 = false ∧
        unitGroup (eightUnitsThen 0x7F) 8 * 2 ^ (7 * 8) < 2 ^ 63 ∧ Supplies (eightUnitsThen 0x7F) (8 * (8 + 1))) ∧
      (let s := reading [0x80, 0x80, 0x80, 0x80, 0x08]
       UnitsGoOn 31 4 s ∧ 2 ^ 31 ≤ unitGroup s 4 * 2 ^ (7 * 4) ∧ Supplies s (8 * (4 + 1))) ∧
      (let s := reading [0x80, 0x80, 0x80, 0x80, 0x80]
       UnitsGoOn 31 4 s ∧ unitContinues s 4 = true ∧ 4 + 1 = 5 ∧ Supplies s (8 * (4 + 1))) ∧
      (UnitsGoOn 63 8 (eightUnitsThen 0x80) ∧ unitContinues (eightUnitsThen 0x80) 8 = true ∧ 8 + 1 = 9 ∧
        Supplies (eightUnitsThen 0x80) (8 * (8 + 1))) ∧
      (UnitsGoOn 31 0 State.reset ∧ Supplies State.reset (8 * 0) ∧ FirstMissing State.reset (8 * (0 + 1)) 0) ∧
      (let s := reading [0x80, 0x80, 0x80, 0x80]
       UnitsGoOn 31 4 s ∧ Supplies s (8 * 4) ∧ FirstMissing s (8 * (4 + 1)) 4) := by
  unfold UnitsGoOn; and_intros <;> decide

theorem witness_VlqLengthIsTheFewestGroups :
    (WriterReady (holding 0) ∧ dinInt 32 (holding 0) = (0 : Nat) ∧ ∃ t, exec .wrvlqi (holding 0) = .next t ∧ EndedOk 0 false (holding 0) t) ∧
      (dinInt 32 (holding 127) = (127 : Nat) ∧ ∃ t, exec .wrvlqi (holding 127) = .next t ∧ EndedOk 0 false (holding 127) t) ∧
      (dinInt 32 (holding 128) = (128 : Nat) ∧ ∃ t, exec .wrvlqi (holding 128) = .next t ∧ EndedOk 0 false (holding 128) t) ∧
      (WriterReady (sevenPending 0x7FFFFFFF) ∧ dinInt 32 (sevenPending 0x7FFFFFFF) = (0x7FFFFFFF : Nat) ∧
        ∃ t, exec .wrvlqi (sevenPending 0x7FFFFFFF) = .next t ∧ EndedOk 0 false (sevenPending 0x7FFFFFFF) t) ∧
      WriterReady (sevenPending 0x7FFFFFFFFFFFFFFF) ∧ dinInt 64 (sevenPending 0x7FFFFFFFFFFFFFFF) = (0x7FFFFFFFFFFFFFFF : Nat) ∧
        ∃ t, exec .wrvlql (sevenPending 0x7FFFFFFFFFFFFFFF) = .next t ∧ EndedOk 0 false (sevenPending 0x7FFFFFFFFFFFFFFF) t := by
  unfold EndedOk
  exact ⟨⟨by decide, by decide, next_of (by decide)⟩, ⟨by decide, next_of (by decide)⟩, ⟨by decide, next_of (by decide)⟩,
    ⟨by decide, by decide, next_of (by decide)⟩, by decide, by decide, next_of (by decide)⟩

theorem witness_VlqReadsBack :
    (dinInt 32 (holding 0) = (0 : Nat) ∧ Back .wrvlqi (8 * vlqLen 0) (holding 0) (reading [0])) ∧
      (dinInt 32 (holding 0x7FFFFFFF) = (0x7FFFFFFF : Nat) ∧
        Back .wrvlqi (8 * vlqLen 0x7FFFFFFF) (holding 0x7FFFFFFF) (reading [0xFF, 0xFF, 0xFF, 0xFF, 0x07])) ∧
      (dinInt 64 (holding 0x7FFFFFFFFFFFFFFF) = (0x7FFFFFFFFFFFFFFF : Nat) ∧
        Back .wrvlql (8 * vlqLen 0x7FFFFFFFFFFFFFFF) (holding 0x7FFFFFFFFFFFFFFF) (eightUnitsThen 0x7F)) :=
  ⟨⟨by decide, back_of (by decide) (by decide)⟩, ⟨by decide, back_of (by decide) (by decide)⟩,
    by decide, back_of (by decide) (by decide)⟩

end Sys2Proof.Tests
end

/-! PROOFS. The decoder and the printed opcode map (30_encoding.md R60, R61, R70 to R72). A word is its seven fields, so masking
and comparing words is masking and comparing fields; what a word decodes to is then read off the one row that has its opcode. -/

namespace Sys2Proof

/-! ### A word is its fields -/

theorem bitsAt_lt (v hi lo : Nat) : bitsAt v hi lo < 2 ^ (hi - lo + 1) := Nat.mod_lt _ (Nat.two_pow_pos _)

theorem bitsAt_and (v m hi lo : Nat) : bitsAt (v &&& m) hi lo = bitsAt v hi lo &&& bitsAt m hi lo := by
  simp only [bitsAt, Nat.and_div_two_pow, Nat.and_mod_two_pow]

/-- A mask that covers a field keeps it. -/
theorem bitsAt_and_ones (v hi lo : Nat) : bitsAt v hi lo &&& (2 ^ (hi - lo + 1) - 1) = bitsAt v hi lo := by
  rw [Nat.and_two_pow_sub_one_eq_mod, Nat.mod_eq_of_lt (bitsAt_lt v hi lo)]

@[simp] theorem fieldsOf_opc_and_ones (w : Word) : (fieldsOf w).opc &&& 255 = (fieldsOf w).opc := bitsAt_and_ones ..
@[simp] theorem fieldsOf_u_mod_two (w : Word) : (fieldsOf w).u % 2 = (fieldsOf w).u := Nat.mod_eq_of_lt (bitsAt_lt ..)
@[simp] theorem fieldsOf_nl_mod_two (w : Word) : (fieldsOf w).nl % 2 = (fieldsOf w).nl := Nat.mod_eq_of_lt (bitsAt_lt ..)
@[simp] theorem fieldsOf_so_mod_two (w : Word) : (fieldsOf w).so % 2 = (fieldsOf w).so := Nat.mod_eq_of_lt (bitsAt_lt ..)
@[simp] theorem fieldsOf_sz_and_ones (w : Word) : (fieldsOf w).sz &&& 127 = (fieldsOf w).sz := bitsAt_and_ones ..
@[simp] theorem fieldsOf_ex_and_ones (w : Word) : (fieldsOf w).ex &&& 15 = (fieldsOf w).ex := bitsAt_and_ones ..
@[simp] theorem fieldsOf_rsv_and_ones (w : Word) : (fieldsOf w).rsv &&& 1023 = (fieldsOf w).rsv := bitsAt_and_ones ..

/-- Masking one word with another, field by field. -/
def Fields.mask (f m : Fields) : Fields where
  opc := f.opc &&& m.opc
  u := f.u &&& m.u
  nl := f.nl &&& m.nl
  so := f.so &&& m.so
  sz := f.sz &&& m.sz
  ex := f.ex &&& m.ex
  rsv := f.rsv &&& m.rsv

theorem fieldsOf_and (w m : Word) : fieldsOf (w &&& m) = (fieldsOf w).mask (fieldsOf m) := by
  simp only [fieldsOf, Fields.mask, BitVec.toNat_and, bitsAt_and]

/-- The fields of R60 cover the word. -/
theorem fieldsOf_inj {v w : Word} : fieldsOf v = fieldsOf w ↔ v = w := by
  refine ⟨fun h => ?_, congrArg _⟩
  simp only [fieldsOf, bitsAt, Fields.mk.injEq] at h
  have hv := v.isLt
  have hw := w.isLt
  apply BitVec.eq_of_toNat_eq
  omega

/-- The bits between OPC and RSV hold the fields U, NL, SO, SZ and EX. -/
theorem and_middle_eq_zero_iff (w : Word) : w &&& 0x00FFFC00#32 = 0 ↔
    (fieldsOf w).u = 0 ∧ (fieldsOf w).nl = 0 ∧ (fieldsOf w).so = 0 ∧ (fieldsOf w).sz = 0 ∧ (fieldsOf w).ex = 0 := by
  have hones : fieldsOf 0x00FFFC00#32 = ⟨0, 1, 1, 1, 127, 15, 0⟩ := by decide
  have hzero : fieldsOf 0 = ⟨0, 0, 0, 0, 0, 0, 0⟩ := by decide
  rw [← fieldsOf_inj, fieldsOf_and, hones, hzero]
  simp [Fields.mask]

/-- A word is an opcode alone when its other bits are 0. -/
theorem eq_opcode_word_iff {p : Word} {opc : Nat} (hp : fieldsOf p = ⟨opc, 0, 0, 0, 0, 0, 0⟩) (w : Word) :
    w = p ↔ (fieldsOf w).opc = opc ∧ w &&& 0x00FFFC00#32 = 0 ∧ (fieldsOf w).rsv = 0 := by
  rw [← fieldsOf_inj, hp, and_middle_eq_zero_iff]
  cases fieldsOf w
  simp only [Fields.mk.injEq, and_assoc]

/-! ### The printed map -/

/-- The opcode of a row. -/
def OpcodeRow.opc (r : OpcodeRow) : Nat := bitsAt r.pattern.toNat 31 24

theorem nodup_map_opc_opcodeMap : (opcodeMap.map OpcodeRow.opc).Nodup := by decide

/-- "The opcodes differ" (R72). -/
theorem row_eq_of_opc_eq {r q : OpcodeRow} (hr : r ∈ opcodeMap) (hq : q ∈ opcodeMap) (h : r.opc = q.opc) : r = q :=
  List.inj_on_of_nodup_map nodup_map_opc_opcodeMap hr hq h

/-- The match word of every row is its opcode alone, and its mask covers OPC and RSV (R70, R72). -/
theorem row_shape : ∀ r ∈ opcodeMap, fieldsOf r.pattern = ⟨r.opc, 0, 0, 0, 0, 0, 0⟩ ∧
    (fieldsOf r.mask).opc = 255 ∧ (fieldsOf r.mask).rsv = 1023 := by decide

/-- What R70's `(w & mask) = match` says of the fields. -/
theorem selects_iff {r : OpcodeRow} (hr : r ∈ opcodeMap) (w : Word) : r.selects w = true ↔
    (fieldsOf w).opc = r.opc ∧ w &&& r.mask &&& 0x00FFFC00#32 = 0 ∧ (fieldsOf w).rsv = 0 := by
  obtain ⟨hpattern, hopc, hrsv⟩ := row_shape r hr
  have keepsOpc : (fieldsOf (w &&& r.mask)).opc = (fieldsOf w).opc := by
    simp [fieldsOf_and, Fields.mask, hopc]
  have keepsRsv : (fieldsOf (w &&& r.mask)).rsv = (fieldsOf w).rsv := by
    simp [fieldsOf_and, Fields.mask, hrsv]
  rw [OpcodeRow.selects, beq_iff_eq, eq_opcode_word_iff hpattern, keepsOpc, keepsRsv]

theorem opc_eq_of_selects {r : OpcodeRow} {w : Word} (hr : r ∈ opcodeMap) (h : r.selects w = true) : (fieldsOf w).opc = r.opc :=
  ((selects_iff hr w).1 h).1

/-- "At most one row matches" (R72). -/
theorem filter_selects_eq_singleton {r : OpcodeRow} {w : Word} (hr : r ∈ opcodeMap) (h : r.selects w = true) :
    opcodeMap.filter (fun q => q.selects w) = [r] := by
  have honly : ∀ q ∈ opcodeMap, q.selects w = (q == r) := by
    intro q hq
    rw [Bool.eq_iff_iff, beq_iff_eq]
    constructor
    · intro hsel
      exact row_eq_of_opc_eq hq hr ((opc_eq_of_selects hq hsel).symm.trans (opc_eq_of_selects hr h))
    · rintro rfl
      exact h
  have hcount : opcodeMap.count r = 1 := List.count_eq_one_of_mem (.of_map _ nodup_map_opc_opcodeMap) hr
  rw [List.filter_congr honly, List.filter_beq, hcount, List.replicate_one]

/-- A word is illegal (R71) when no row matches (R70). -/
theorem illegalWord_iff (w : Word) : Machine.IllegalWord w ↔ ∀ r ∈ opcodeMap, r.selects w = false := by
  constructor
  · intro hill r hr
    rw [← Bool.not_eq_true, selects_iff hr]
    rintro ⟨hopc, hunused, hrsv⟩
    rcases hill with hno | ⟨q, hq, hqopc, hqunused⟩ | hbad
    · exact hno r hr hopc
    · rw [row_eq_of_opc_eq hr hq (hopc.symm.trans hqopc)] at hunused
      exact hqunused hunused
    · exact hbad hrsv
  · intro hnone
    by_contra hlegal
    simp only [Machine.IllegalWord, not_or, not_forall, not_exists, not_and, not_not] at hlegal
    obtain ⟨⟨r, hr, hopc⟩, hunused, hrsv⟩ := hlegal
    have hsel : r.selects w = true := (selects_iff hr w).2 ⟨hopc, hunused r hr hopc, hrsv⟩
    simp [hnone r hr] at hsel

/-! ### The decoder reads the map -/

/-- The mask of a format: OPC, RSV and the fields the format leaves unused (R61, R70). -/
def Format.mask (fmt : Format) : Word :=
  pack 255 (!fmt.usesU).toNat (!fmt.usesNL).toNat (!fmt.usesSO).toNat
    (if fmt.usesSZ then 0 else 127) (if fmt.usesEX then 0 else 15) ||| 1023

theorem fieldsOf_formatMask (fmt : Format) : fieldsOf fmt.mask =
    ⟨255, (!fmt.usesU).toNat, (!fmt.usesNL).toNat, (!fmt.usesSO).toNat,
      if fmt.usesSZ then 0 else 127, if fmt.usesEX then 0 else 15, 1023⟩ := by
  cases fmt <;> decide

/-- The decoder's check of the unused fields is the mask's (R61, R70). -/
theorem unusedZero_iff (fmt : Format) (w : Word) :
    unusedZero fmt (fieldsOf w) = true ↔ w &&& fmt.mask &&& 0x00FFFC00#32 = 0 := by
  rw [and_middle_eq_zero_iff, fieldsOf_and, fieldsOf_formatMask]
  cases fmt <;>
    simp [unusedZero, Fields.mask, Format.usesU, Format.usesNL, Format.usesSO, Format.usesSZ, Format.usesEX, and_assoc]

theorem legal_eq_ok {fmt : Format} {f : Fields} (hunused : unusedZero fmt f = true) (hrsv : f.rsv = 0) (i : Instr) :
    legal fmt f i = .ok i := by
  simp [legal, hunused, hrsv]

theorem legal_eq_error {fmt : Format} {f : Fields} (h : unusedZero fmt f = true → f.rsv ≠ 0) (i : Instr) :
    ∃ e, legal fmt f i = .error e := by
  unfold legal
  split
  · exact ⟨_, rfl⟩
  · next hunused => exact ⟨_, if_pos (h (by simpa using hunused))⟩

/-- At the opcode of a row, the decoder checks the format that the row's mask belongs to, and answers the row's command. -/
theorem decodeFields_at_row (f : Fields) : ∀ r ∈ opcodeMap, f.opc = r.opc →
    ∃ fmt i, decodeFields f = legal fmt f i ∧ r.mask = fmt.mask ∧ i.mnemonic = r.mnemonic := by
  obtain ⟨opc, u, nl, so, sz, ex, rsv⟩ := f
  simp only [opcodeMap, opcodeMapIntegers, opcodeMapFloats, List.cons_append, List.nil_append, List.forall_mem_cons,
    List.not_mem_nil, IsEmpty.forall_iff, implies_true, and_true]
  and_intros <;>
    · rintro rfl
      exact ⟨_, _, rfl, rfl, rfl⟩

/-- At any other opcode the decoder answers that it is unknown. -/
theorem decodeFields_at_no_row (f : Fields) (h : f.opc ∉ opcodeMap.map OpcodeRow.opc) :
    decodeFields f = .error (.unknownOpcode f.opc) := by
  unfold decodeFields
  split
  case h_65 => rfl
  all_goals
    rename_i hopc
    exact absurd (by rw [hopc]; decide) h

/-- A word that selects a row decodes to the row's command (R70). -/
theorem decode_of_selects {r : OpcodeRow} {w : Word} (hr : r ∈ opcodeMap) (h : r.selects w = true) :
    ∃ i, decode w = .ok i ∧ i.mnemonic = r.mnemonic := by
  obtain ⟨hopc, hunused, hrsv⟩ := (selects_iff hr w).1 h
  obtain ⟨fmt, i, hdec, hmask, hname⟩ := decodeFields_at_row (fieldsOf w) r hr hopc
  rw [hmask, ← unusedZero_iff] at hunused
  exact ⟨i, hdec.trans (legal_eq_ok hunused hrsv i), hname⟩

/-- A word that selects no row does not decode (R71). -/
theorem decode_of_selects_none {w : Word} (h : ∀ r ∈ opcodeMap, r.selects w = false) : ∃ e, decode w = .error e := by
  by_cases hmem : (fieldsOf w).opc ∈ opcodeMap.map OpcodeRow.opc
  · obtain ⟨r, hr, hopc⟩ := List.mem_map.1 hmem
    obtain ⟨fmt, i, hdec, hmask, -⟩ := decodeFields_at_row (fieldsOf w) r hr hopc.symm
    have hbad : unusedZero fmt (fieldsOf w) = true → (fieldsOf w).rsv ≠ 0 := by
      intro hunused hrsv
      rw [unusedZero_iff, ← hmask] at hunused
      have hsel : r.selects w = true := (selects_iff hr w).2 ⟨hopc.symm, hunused, hrsv⟩
      simp [h r hr] at hsel
    obtain ⟨e, he⟩ := legal_eq_error hbad i
    exact ⟨e, hdec.trans he⟩
  · exact ⟨_, decodeFields_at_no_row (fieldsOf w) hmem⟩

/-- Settles O3: the row that a word selects is the only one, since the opcodes differ. -/
theorem decodeSelectsTheOneRowOfTheMap : Obligations.DecodeSelectsTheOneRowOfTheMap := by
  intro w
  by_cases hsome : ∃ r ∈ opcodeMap, r.selects w = true
  · obtain ⟨r, hr, hsel⟩ := hsome
    obtain ⟨i, hdec, hname⟩ := decode_of_selects hr hsel
    rw [hdec]
    exact ⟨r, filter_selects_eq_singleton hr hsel, hname.symm⟩
  · have hnone : ∀ r ∈ opcodeMap, r.selects w = false := by simpa using hsome
    obtain ⟨e, he⟩ := decode_of_selects_none hnone
    rw [he]
    simpa [List.filter_eq_nil_iff] using hnone

/-! ### Illegal words on the block -/

/-- A block that is not faulted answers ILLEGAL_COMMAND to a word that does not decode (R71, R262). -/
theorem step_of_decode_error {s : Machine.State} {c : Machine.Command} {rest : List Machine.Command} {e : DecodeError}
    (hqueue : s.queue = c :: rest) (hfault : s.S.fault = false) (hdec : decode c.cmd = .error e) :
    Machine.step s = .next (Machine.preconditionFailed .illegalCommand { s with port := c, queue := rest }) := by
  have hrun : Machine.step s = .next (Machine.report .illegalCommand 0 false (Machine.accept c rest s)) := by
    simp [Machine.step, hqueue, Machine.runPort, Machine.accept, hfault, hdec]
  rw [hrun, Machine.report_precondition rfl]
  rfl

/-- Settles O7: a word is illegal exactly when it selects no row, and then it does not decode. -/
theorem illegalWordsAreReportedAndChangeNothing : Obligations.IllegalWordsAreReportedAndChangeNothing := by
  intro s c rest hqueue hfault
  constructor
  · intro hill
    obtain ⟨e, he⟩ := decode_of_selects_none ((illegalWord_iff c.cmd).1 hill)
    exact step_of_decode_error hqueue hfault he
  · intro hlegal
    obtain ⟨r, hr, hsel⟩ : ∃ r ∈ opcodeMap, r.selects c.cmd = true := by simpa [illegalWord_iff] using hlegal
    obtain ⟨i, hdec, -⟩ := decode_of_selects hr hsel
    exact ⟨i, hdec⟩

end Sys2Proof

/-! PROOFS. The bit cursor commands (41_bit_cursor.md R102 to R112). A command that is not a close runs the check of its side, then
a check of its own, then its bit procedure: the lemmas peel off one of these at a time, and what is left is a `Puts` or a `Gets`. -/

namespace Sys2Proof.Machine

/-! ### The checks a command starts with -/

/-- The check of a side (R102); a detector runs none (45_float_detectors.md R229). -/
def sideCheck : Side → State → Res Unit
  | .output => checkW
  | .input => checkR
  | .neither => fun s => .ok () s

/-- Every command but the two closes starts with the check of its side. -/
theorem exec_starts_with_sideCheck {i : Instr} (h : closesASide i = false) (s : State) :
    ∃ f, exec i s = complete ((sideCheck (sideOf i) s).andThen f) := by
  by_cases hside : sideOf i = .neither
  · obtain ⟨v, e⟩ := exec_neither_ends hside s
    rw [hside]
    exact ⟨fun _ => done v, e⟩
  cases i
  case closew | closer => simp [closesASide] at h
  case iszerof | iszerod | isinff | isinfd | isnanf | isnand | classf | classd => exact absurd rfl hside
  all_goals exact ⟨_, rfl⟩

theorem exec_of_require {i : Instr} {s : State} {p : Bool} {c : Status} {f : Unit → State → Res Reply}
    (e : exec i s = complete ((require p c s).andThen f)) (hp : p = true) : exec i s = complete (f () s) := by
  rw [e, hp, require_true, Res.ok_andThen]

/-- A check that does not hold ends the command with nothing changed but the report (60_exceptions.md R262). -/
theorem exec_of_require_false {i : Instr} {s : State} {p : Bool} {c : Status} {f : Unit → State → Res Reply}
    (e : exec i s = complete ((require p c s).andThen f)) (hp : p = false) (hc : c.cls = .precondition) :
    exec i s = .next (preconditionFailed c s) := by
  rw [e, hp, require_false, Res.stop_andThen, complete_stop, report_precondition hc]

theorem rawSize_legal {sz : Nat} (h1 : 1 ≤ sz) (h64 : sz ≤ 64) : (decide (1 ≤ sz) && decide (sz ≤ 64)) = true := by
  simp [h1, h64]

theorem rawSize_illegal {sz : Nat} (h : sz < 1 ∨ 64 < sz) : (decide (1 ≤ sz) && decide (sz ≤ 64)) = false := by
  simp only [Bool.and_eq_false_iff, decide_eq_false_iff_not]
  omega

/-- The operand of the skips and the aligns, where it is positive. -/
theorem toNat_dinSigned {s : State} {n : Nat} (hn : dinInt 32 s = n) : (dinSigned 32 s).toNat = n := by
  rw [dinSigned_eq, hn, Int.toNat_natCast]

theorem dinSigned_positive {s : State} {n : Nat} (hn : dinInt 32 s = n) (hpos : 0 < n) :
    decide (0 < dinSigned 32 s) = true := by
  rw [dinSigned_eq, hn, decide_eq_true_eq]
  exact_mod_cast hpos

theorem dinSigned_not_positive {s : State} (h : dinInt 32 s ≤ 0) : decide (0 < dinSigned 32 s) = false := by
  rw [dinSigned_eq, decide_eq_false_iff_not, not_lt]
  exact h

/-! ### Raw bits and skips -/

theorem exec_rdbits_ready {s : State} (h : ReaderReady s) (sz : Nat) : exec (.rdbits sz) s =
    complete ((validRawSize sz s).andThen fun _ s => (getBits sz s).andThen fun v s => done (dout v) s) := by
  rw [exec, execRdbits, checkR_opened h, Res.ok_andThen]

theorem exec_wrbits_opened {s : State} (h : s.W.st = .opened) (sz : Nat) : exec (.wrbits sz) s =
    complete ((validRawSize sz s).andThen fun _ s => (putBits (dinBits 64 s) sz s).andThen fun _ s => done 0 s) := by
  rw [exec, execWrbits, checkW_opened h, Res.ok_andThen]

theorem exec_skipr_ready {s : State} (h : ReaderReady s) : exec .skipr s =
    complete ((require (decide (0 < dinSigned 32 s)) .invalidCount s).andThen fun _ s =>
      (getBits (dinSigned 32 s).toNat s).andThen fun _ s => done 0 s) := by
  rw [exec, execSkipr, checkR_opened h, Res.ok_andThen]

theorem exec_skipw_opened {s : State} (h : s.W.st = .opened) : exec .skipw s =
    complete ((require (decide (0 < dinSigned 32 s)) .invalidCount s).andThen fun _ s =>
      (putBits 0 (dinSigned 32 s).toNat s).andThen fun _ s => done 0 s) := by
  rw [exec, execSkipw, checkW_opened h, Res.ok_andThen]

/-- A command whose meaning is to read t bits and answer f of the number they spell. -/
theorem reads_of_getBits {i : Instr} {t : Nat} {f : Nat → Data} {s : State}
    (e : exec i s = complete ((getBits t s).andThen fun v s => done (f v) s)) : Reads i 0 t f s := by
  refine reads_of_gets e ?_
  rw [Nat.zero_add]
  exact (getBits_gets t s).map fun v => Reply.value (f v)

/-- Settles O21: past its two checks RDBITS is `GetBits(SZ)`. -/
theorem rdbitsReadsRawBits : Obligations.RdbitsReadsRawBits := by
  intro sz s
  refine ⟨guardedR_of rfl, fun hready hsz => ?_, fun hready h1 h64 => ?_⟩
  · exact exec_of_require_false (exec_rdbits_ready hready sz) (rawSize_illegal hsz) rfl
  · exact reads_of_getBits (exec_of_require (exec_rdbits_ready hready sz) (rawSize_legal h1 h64))

/-- Settles O22: past its two checks WRBITS is `PutBits(DIN, SZ)`. -/
theorem wrbitsWritesTheLowBits : Obligations.WrbitsWritesTheLowBits := by
  intro sz s
  refine ⟨guardedW_of rfl, fun hopen hsz => ?_, fun ⟨hopen, hn⟩ h1 h64 => ?_⟩
  · exact exec_of_require_false (exec_wrbits_opened hopen sz) (rawSize_illegal hsz) rfl
  · have hexec := exec_of_require (exec_wrbits_opened hopen sz) (rawSize_legal h1 h64)
    rw [dinBits_64] at hexec
    exact writes_of_puts hexec (putBits_puts _ sz hn)

/-- Settles O23: past its two checks SKIPR is `GetBits` of its count, whose number it drops. -/
theorem skiprDiscardsBits : Obligations.SkiprDiscardsBits := by
  intro s
  refine ⟨guardedR_of rfl, fun hready hcount => ?_, fun hready t ht hpos => ?_⟩
  · exact exec_of_require_false (exec_skipr_ready hready) (dinSigned_not_positive hcount) rfl
  · have hexec := exec_of_require (exec_skipr_ready hready) (dinSigned_positive ht hpos)
    rw [toNat_dinSigned ht] at hexec
    exact reads_of_getBits hexec

/-- Settles O24: past its two checks SKIPW is `PutBits(0, t)`. -/
theorem skipwWritesZeroBits : Obligations.SkipwWritesZeroBits := by
  intro s
  refine ⟨guardedW_of rfl, fun hopen hcount => ?_, fun ⟨hopen, hn⟩ t ht hpos => ?_⟩
  · exact exec_of_require_false (exec_skipw_opened hopen) (dinSigned_not_positive hcount) rfl
  · have hexec := exec_of_require (exec_skipw_opened hopen) (dinSigned_positive ht hpos)
    rw [toNat_dinSigned ht] at hexec
    exact writes_of_puts hexec (putBits_puts 0 t hn)

/-! ### Aligns -/

theorem exec_alignr_ready {s : State} (h : ReaderReady s) : exec .alignr s =
    complete ((require (decide (0 < dinSigned 32 s)) .invalidBoundary s).andThen fun _ s =>
      (getBits (padTo (dinSigned 32 s).toNat s.R.pos s.R.base) s).andThen fun _ u =>
      done (dout (padTo (dinSigned 32 s).toNat s.R.pos s.R.base)) (u.setR { u.R with base := u.R.pos })) := by
  rw [exec, execAlignr, checkR_opened h, Res.ok_andThen]

theorem exec_alignw_opened {s : State} (h : s.W.st = .opened) : exec .alignw s =
    complete ((require (decide (0 < dinSigned 32 s)) .invalidBoundary s).andThen fun _ s =>
      (putBits 0 (padTo (dinSigned 32 s).toNat s.W.pos s.W.base) s).andThen fun _ u =>
      done (dout (padTo (dinSigned 32 s).toNat s.W.pos s.W.base)) (u.setW { u.W with base := u.W.pos })) := by
  rw [exec, execAlignw, checkW_opened h, Res.ok_andThen]

/-- Settles O25: the pad is the only count below 8n that reaches the boundary (`padTo_eq`), and the alignment point moves only after
`GetBits(pad)` has gone through. -/
theorem alignrDiscardsToTheBoundary : Obligations.AlignrDiscardsToTheBoundary := by
  intro s
  refine ⟨guardedR_of rfl, fun hready hbound => ?_, fun hready n pad hn hpos hlt hpad => ?_⟩
  · exact exec_of_require_false (exec_alignr_ready hready) (dinSigned_not_positive hbound) rfl
  have hexec := exec_of_require (exec_alignr_ready hready) (dinSigned_positive hn hpos)
  rw [toNat_dinSigned hn, padTo_eq hlt hpad] at hexec
  refine ⟨fun hsupplies => ?_, fun a hmissing => ?_⟩
  · obtain ⟨u, hget, hconsumed, hquiet⟩ := getBits_consumes pad s hsupplies
    rw [hget] at hexec
    exact ⟨report .ok (dout pad) false u, hexec, hconsumed.report .., report_endedOk _ false hquiet⟩
  · obtain ⟨u, hget, hbroke, hquiet⟩ := getBits_breaks pad a s hmissing
    rw [hget] at hexec
    exact ⟨_, hexec, hbroke.report .., report_endedIo (missingStatus_cls ..) hquiet⟩

/-- Settles O26: as O25, with `PutBits(0, pad)`. -/
theorem alignwPadsToTheBoundary : Obligations.AlignwPadsToTheBoundary := by
  intro s
  refine ⟨guardedW_of rfl, fun hopen hbound => ?_, fun ⟨hopen, hready⟩ n pad hn hpos hlt hpad => ?_⟩
  · exact exec_of_require_false (exec_alignw_opened hopen) (dinSigned_not_positive hbound) rfl
  have hexec := exec_of_require (exec_alignw_opened hopen) (dinSigned_positive hn hpos)
  rw [toNat_dinSigned hn, padTo_eq hlt hpad] at hexec
  refine ⟨fun haccepts => ?_, fun a hrefused => ?_⟩
  · obtain ⟨u, hput, happended, hquiet⟩ := putBits_appends 0 pad s hready haccepts
    rw [hput] at hexec
    exact ⟨report .ok (dout pad) false u, hexec, happended.report .., report_endedOk _ false hquiet⟩
  · obtain ⟨u, hput, hbroke, hquiet⟩ := putBits_breaks 0 pad a s hready hrefused
    rw [hput] at hexec
    exact ⟨_, hexec, hbroke.report .., report_endedIo rfl hquiet⟩

/-! ### Reset and flush of the output side -/

theorem exec_resetw_opened {s : State} (h : s.W.st = .opened) : exec .resetw s =
    complete ((require (decide (s.W.n = 0)) .illegalState s).andThen fun _ s =>
      done 0 (s.setW { s.W with pos := 0, base := 0 })) := by
  rw [exec, execResetw, checkW_opened h, Res.ok_andThen]

/-- Settles O27: past `CheckW()` the one check is that no bits are pending. -/
theorem resetwClearsThePositions : Obligations.ResetwClearsThePositions := by
  intro s
  refine ⟨guardedW_of rfl, fun hopen hpending => ?_, fun hopen hnone => ?_⟩
  · exact exec_of_require_false (exec_resetw_opened hopen) (decide_eq_false hpending) rfl
  · rw [exec_of_require (exec_resetw_opened hopen) (decide_eq_true hnone), done, complete_value, report_ok]
    rfl

theorem chanFlush_ok {c : OutChannel} (h : c.flushes ∉ c.flushFail) : chanFlush c = .ok := if_neg h

theorem chanFlush_ioerr {c : OutChannel} (h : c.flushes ∈ c.flushFail) : chanFlush c = .ioerr := if_pos h

/-- Settles O28: the draw of this flush decides between the two ends. -/
theorem flushwPassesOneFlush : Obligations.FlushwPassesOneFlush := by
  intro s
  refine ⟨guardedW_of rfl, fun hopen hdraw => ?_, fun hopen hdraw => ?_⟩
  · rw [exec, execFlushw, checkW_opened hopen, Res.ok_andThen, chanFlush_ok hdraw]
    exact congrArg _ (report_ok ..)
  · rw [exec, execFlushw, checkW_opened hopen, Res.ok_andThen, chanFlush_ioerr hdraw]
    exact congrArg _ (report_io rfl _)

/-! ### Closes -/

/-- The output side once its close has been issued. -/
def closeIssuedW (s : State) : State := (s.setOutp s.outp.closedOnce).setW { s.W with st := .closed }

/-- The input side once its close has been issued. -/
def closeIssuedR (s : State) : State := (s.setInp s.inp.closedOnce).setR { s.R with st := .closed }

theorem exec_closew_closed {s : State} (h : s.W.st = .closed) : exec .closew s = .next (completedWith 0 false s) := by
  rw [← report_ok]
  simp [exec, execClosew, h, done]

theorem exec_closew_issues {s : State} (h : s.W.st ≠ .closed) : exec .closew s =
    .next (if s.outp.closeFail then ioFailed .channelIo (closeIssuedW s) else completedWith 0 false (closeIssuedW s)) := by
  rw [← report_ok, ← report_io rfl]
  cases hst : s.W.st
  case closed => exact absurd hst h
  all_goals cases hdraw : s.outp.closeFail <;> simp [exec, execClosew, hst, chanClose, hdraw, done, closeIssuedW]

theorem exec_closer_closed {s : State} (h : s.R.st = .closed) : exec .closer s = .next (completedWith 0 false s) := by
  rw [← report_ok]
  simp [exec, execCloser, h, done]

theorem exec_closer_issues {s : State} (h : s.R.st ≠ .closed) : exec .closer s =
    .next (if s.inp.closeFail then ioFailed .channelIo (closeIssuedR s) else completedWith 0 false (closeIssuedR s)) := by
  rw [← report_ok, ← report_io rfl]
  cases hst : s.R.st
  case closed => exact absurd hst h
  all_goals cases hdraw : s.inp.closeFail <;> simp [exec, execCloser, hst, chanCloseIn, hdraw, done, closeIssuedR]

/-- Settles O29: only a side that is not CLOSED issues its close, and the draw of that close decides the status. -/
theorem closewClosesOnce : Obligations.ClosewClosesOnce := by
  intro s
  refine ⟨exec_closew_closed, fun hst hdraw => ?_, fun hst hdraw => ?_⟩ <;>
    · rw [exec_closew_issues hst, hdraw]
      rfl

/-- Settles O30: as O29, on the input side. -/
theorem closerClosesOnce : Obligations.CloserClosesOnce := by
  intro s
  refine ⟨exec_closer_closed, fun hst hdraw => ?_, fun hst hdraw => ?_⟩ <;>
    · rw [exec_closer_issues hst, hdraw]
      rfl

/-- However its channel answers, CLOSEW leaves the side CLOSED and reports no model fault. -/
theorem closew_leaves_closed (s : State) :
    ∃ t, exec .closew s = .next t ∧ t.W.st = .closed ∧ t.S.fault = s.S.fault := by
  by_cases hst : s.W.st = .closed
  · exact ⟨_, exec_closew_closed hst, hst, rfl⟩
  · refine ⟨_, exec_closew_issues hst, ?_⟩
    cases s.outp.closeFail <;> exact ⟨rfl, rfl⟩

/-- However its channel answers, CLOSER leaves the side CLOSED and reports no model fault. -/
theorem closer_leaves_closed (s : State) :
    ∃ t, exec .closer s = .next t ∧ t.R.st = .closed ∧ t.S.fault = s.S.fault := by
  by_cases hst : s.R.st = .closed
  · exact ⟨_, exec_closer_closed hst, hst, rfl⟩
  · refine ⟨_, exec_closer_issues hst, ?_⟩
    cases s.inp.closeFail <;> exact ⟨rfl, rfl⟩

/-- Settles O14: what a side that is not open does is decided by the check the command starts with. -/
theorem closedAndFailedSidesTurnCommandsAway : Obligations.ClosedAndFailedSidesTurnCommandsAway := by
  intro i s
  refine ⟨fun hclose => ?_, closew_leaves_closed s, closer_leaves_closed s⟩
  obtain ⟨f, hexec⟩ := exec_starts_with_sideCheck hclose s
  refine ⟨fun hside => ?_, fun hside => ?_⟩
  · rw [hside] at hexec
    exact guardedW_of hexec
  · rw [hside] at hexec
    exact guardedR_of hexec

end Sys2Proof.Machine

/-! PROOFS. The integer codec (42_integer_codec.md R130 to R154). The sized commands share one write and one read, and so do the
commands that move a whole pattern: each is settled once, for whatever command has it as its meaning. The chars have a check of
their own. -/

namespace Sys2Proof.Machine

/-! ### The checks of the integer commands -/

theorem exec_of_checkW {i : Instr} {s : State} {f : Unit → State → Res Reply}
    (e : exec i s = complete ((checkW s).andThen f)) (h : s.W.st = .opened) : exec i s = complete (f () s) := by
  rw [e, checkW_opened h, Res.ok_andThen]

theorem exec_of_checkR {i : Instr} {s : State} {f : Unit → State → Res Reply}
    (e : exec i s = complete ((checkR s).andThen f)) (h : ReaderReady s) : exec i s = complete (f () s) := by
  rw [e, checkR_opened h, Res.ok_andThen]

/-- A check that finds the command outside the spec ends it with nothing changed but the report (60_exceptions.md R264). -/
theorem exec_of_require_fault {i : Instr} {s : State} {p : Bool} {c : Status} {f : Unit → State → Res Reply}
    (e : exec i s = complete ((require p c s).andThen f)) (hp : p = false) (hc : c.cls = .fault) :
    exec i s = .next (modelFault c s) := by
  rw [e, hp, require_false, Res.stop_andThen, complete_stop, report_fault hc]

theorem intSize_illegal {N sz : Nat} {u : Bool} (h : ¬ LegalIntSize N u sz) :
    (decide (1 ≤ sz) && decide (sz ≤ maxIntSize N u)) = false :=
  Bool.eq_false_iff.2 (mt (legalIntSize_iff N u sz).1 h)

theorem LegalIntSize.le_native {N sz : Nat} {u : Bool} (h : LegalIntSize N u sz) : sz ≤ N := by
  obtain ⟨-, hmax⟩ := h
  split at hmax <;> omega

theorem charSize_legal {sz : Nat} (h1 : 1 ≤ sz) (h16 : sz ≤ 16) : (decide (1 ≤ sz) && decide (sz ≤ 16)) = true := by
  simp [h1, h16]

theorem charSize_illegal {sz : Nat} (h : sz < 1 ∨ 16 < sz) : (decide (1 ≤ sz) && decide (sz ≤ 16)) = false := by
  simp only [Bool.and_eq_false_iff, decide_eq_false_iff_not]
  omega

/-- An unsigned operand is in the codomain of a size where it fits that many bits (42_integer_codec.md R131). -/
theorem inCodomain_natCast (sz n : Nat) : inCodomain true sz n = decide (n < 2 ^ sz) := by
  have hbound : (n : Int) ≤ 2 ^ sz - 1 ↔ n < 2 ^ sz := by
    rw [Int.le_sub_one_iff]
    exact_mod_cast Iff.rfl
  simp [inCodomain, hbound]

/-! ### Sized integers -/

/-- Only what a read answers for the number on the stream matters. -/
theorem Reads.congr {i : Instr} {skip t : Nat} {f g : Nat → Data} {s : State} (h : Reads i skip t f s)
    (e : f (inNumber s skip t) = g (inNumber s skip t)) : Reads i skip t g s := by
  unfold Reads at h ⊢
  rwa [← e]

/-- Past its three checks a sized write is `IntPut` of the operand, whose SZ-bit pattern is what goes on the stream. -/
theorem sizedIntegerWrite_of_writeInt {N sz : Nat} {u : Bool} {i : Instr} {s : State}
    (e : exec i s = complete (writeInt N u sz s)) : SizedIntegerWrite N u sz i s := by
  refine ⟨guardedW_of e, fun hopen hsz => ?_, fun hopen hsz hval => ?_, fun ⟨hopen, hn⟩ hsz hval => ?_⟩ <;>
    have hsize := exec_of_checkW e hopen
  · exact exec_of_require_false hsize (intSize_illegal hsz) rfl
  · have hcodomain := exec_of_require hsize ((legalIntSize_iff N u sz).2 hsz)
    rw [← dinSigned_eq, ← inCodomain_iff, Bool.not_eq_true] at hval
    exact exec_of_require_fault hcodomain hval rfl
  · have hcodomain := exec_of_require hsize ((legalIntSize_iff N u sz).2 hsz)
    rw [← dinSigned_eq] at hval ⊢
    have hput := exec_of_require hcodomain ((inCodomain_iff u sz _).2 hval)
    exact writes_of_puts hput (putBits_puts (truncS sz (dinSigned N s)) sz hn)

/-- Past its two checks a sized read is `GetBits(SZ)`, and the value it answers is the extended pattern. -/
theorem sizedIntegerRead_of_readInt {N sz : Nat} {u : Bool} {i : Instr} {s : State}
    (e : exec i s = complete (readInt N u sz s)) : SizedIntegerRead N u sz i s := by
  refine ⟨guardedR_of e, fun hready hsz => ?_, fun hready hsz => ?_⟩ <;> have hsize := exec_of_checkR e hready
  · exact exec_of_require_false hsize (intSize_illegal hsz) rfl
  · have hget := exec_of_require hsize ((legalIntSize_iff N u sz).2 hsz)
    simp only [intGet, Res.andThen_assoc, Res.ok_andThen] at hget
    have hreads := reads_of_getBits (f := fun p => doutSigned N (intOfPattern u sz p)) hget
    exact hreads.congr (doutSigned_intOfPattern u (inNumber_lt s 0 sz) hsz.le_native)

/-- Settles O33: the four commands are `writeInt` at the four native widths. -/
theorem sizedIntegerWritesFollowTheirRules : Obligations.SizedIntegerWritesFollowTheirRules := fun _ _ _ =>
  ⟨sizedIntegerWrite_of_writeInt rfl, sizedIntegerWrite_of_writeInt rfl, sizedIntegerWrite_of_writeInt rfl,
    sizedIntegerWrite_of_writeInt rfl⟩

/-- Settles O34: the four commands are `readInt` at the four native widths. -/
theorem sizedIntegerReadsFollowTheirRules : Obligations.SizedIntegerReadsFollowTheirRules := fun _ _ _ =>
  ⟨sizedIntegerRead_of_readInt rfl, sizedIntegerRead_of_readInt rfl, sizedIntegerRead_of_readInt rfl,
    sizedIntegerRead_of_readInt rfl⟩

/-! ### Chars -/

theorem exec_wrchar_opened {s : State} (h : s.W.st = .opened) (sz : Nat) : exec (.wrchar sz) s =
    complete ((validCharSize sz s).andThen fun _ s => (checkCodomain true sz (dinBits 16 s) s).andThen fun _ s =>
      (putBits (dinBits 16 s) sz s).andThen fun _ s => done 0 s) := by
  rw [exec, execWrchar, checkW_opened h, Res.ok_andThen]

theorem exec_rdchar_ready {s : State} (h : ReaderReady s) (sz : Nat) : exec (.rdchar sz) s =
    complete ((validCharSize sz s).andThen fun _ s => (getBits sz s).andThen fun p s => done (dout p) s) := by
  rw [exec, execRdchar, checkR_opened h, Res.ok_andThen]

/-- Settles O35: a char is unsigned, so its codomain is a bound on `DIN[15:0]` and nothing is extended by a sign. -/
theorem charCommandsFollowTheirRules : Obligations.CharCommandsFollowTheirRules := by
  intro sz s
  refine ⟨⟨guardedW_of rfl, fun hopen hsz => ?_, fun hopen h1 h16 hlarge => ?_, fun ⟨hopen, hn⟩ h1 h16 hfits => ?_⟩,
    guardedR_of rfl, fun hready hsz => ?_, fun hready h1 h16 => ?_⟩
  · exact exec_of_require_false (exec_wrchar_opened hopen sz) (charSize_illegal hsz) rfl
  · have hcodomain := exec_of_require (exec_wrchar_opened hopen sz) (charSize_legal h1 h16)
    exact exec_of_require_fault hcodomain ((inCodomain_natCast ..).trans (decide_eq_false hlarge.not_gt)) rfl
  · have hcodomain := exec_of_require (exec_wrchar_opened hopen sz) (charSize_legal h1 h16)
    have hput := exec_of_require hcodomain ((inCodomain_natCast ..).trans (decide_eq_true hfits))
    exact writes_of_puts hput (putBits_puts (dinBits 16 s) sz hn)
  · exact exec_of_require_false (exec_rdchar_ready hready sz) (charSize_illegal hsz) rfl
  · exact reads_of_getBits (exec_of_require (exec_rdchar_ready hready sz) (charSize_legal h1 h16))

/-! ### Whole patterns -/

/-- The bits of DIN above the native width are not among those written (30_encoding.md R68). -/
theorem wholeWrite_of_writePattern {N : Nat} {i : Instr} {s : State} (e : exec i s = complete (writePattern N s)) :
    WholeWrite N i s := by
  refine ⟨guardedW_of e, fun ⟨hopen, hn⟩ => ?_⟩
  have hlow : dinBits N s % 2 ^ N = s.port.din.toNat % 2 ^ N := Nat.mod_mod ..
  exact writes_of_puts (exec_of_checkW e hopen) ((putBits_puts (dinBits N s) N hn).congr_mod hlow)

theorem wholeRead_of_readPattern {N : Nat} {i : Instr} {s : State} (e : exec i s = complete (readPattern N s)) :
    WholeRead N i s :=
  ⟨guardedR_of e, fun hready => reads_of_getBits (exec_of_checkR e hready)⟩

/-- Settles O36: the twelve commands are `writePattern` and `readPattern` at their native widths. -/
theorem wholeValueCommandsFollowTheirRules : Obligations.WholeValueCommandsFollowTheirRules := fun _ =>
  ⟨wholeWrite_of_writePattern rfl, wholeRead_of_readPattern rfl, wholeWrite_of_writePattern rfl, wholeRead_of_readPattern rfl,
    wholeWrite_of_writePattern rfl, wholeRead_of_readPattern rfl, wholeWrite_of_writePattern rfl, wholeRead_of_readPattern rfl,
    wholeWrite_of_writePattern rfl, wholeRead_of_readPattern rfl, wholeWrite_of_writePattern rfl, wholeRead_of_readPattern rfl⟩

end Sys2Proof.Machine

/-! PROOFS. The general float codec (43_float_codec.md R170 to R180). What `FEncFields` answers is said once for each category of a
value with given fields; WRFLOAT and WRDOUBLE are one write and RDFLOAT and RDDOUBLE one read, settled for whatever command has it
as its meaning. -/

namespace Sys2Proof.Machine

/-! ### Stored fields by category -/

section Categories

variable {fmt : Fmt} {x : Nat} (e sz : Nat)

theorem fEncFields_of_nan (hexp : expOf fmt x = ones fmt.expBits) (hsig : sigOf fmt x ≠ 0) :
    fEncFields fmt e sz x = some ⟨signOf fmt x, ones e, forceNonZero (highSig fmt sz x)⟩ :=
  if_pos ⟨hexp, hsig⟩

/-- An infinity has no significand bits to keep. -/
theorem fEncFields_of_infinity (hexp : expOf fmt x = ones fmt.expBits) (hsig : sigOf fmt x = 0) :
    fEncFields fmt e sz x = some ⟨signOf fmt x, ones e, 0⟩ := by
  have hhigh : highSig fmt sz x = 0 := by rw [highSig, hsig, Nat.zero_div]
  simp [fEncFields, hexp, hsig, hhigh]

/-- Exponent field 0 is not the all ones of a NaN or an infinity, so a zero and a subnormal keep it. -/
theorem fEncFields_of_zero_exponent (hexp : expOf fmt x = 0) :
    fEncFields fmt e sz x = some ⟨signOf fmt x, 0, highSig fmt sz x⟩ := by
  have hones : 0 ≠ ones fmt.expBits := by cases fmt <;> decide
  simp [fEncFields, hexp, hones]

/-- A normal is stored where its unbiased exponent is between `1 - be` and `be`: here both bounds are in naturals. -/
theorem fEncFields_of_normal (hones : expOf fmt x ≠ ones fmt.expBits) (hzero : expOf fmt x ≠ 0) :
    fEncFields fmt e sz x =
      if fmt.bias + 1 ≤ expOf fmt x + biasOf e ∧ expOf fmt x ≤ fmt.bias + biasOf e then
        some ⟨signOf fmt x, expOf fmt x + biasOf e - fmt.bias, highSig fmt sz x⟩
      else none := by
  have hrebias : ((expOf fmt x : Int) - fmt.bias + biasOf e).toNat = expOf fmt x + biasOf e - fmt.bias := by omega
  have hrange : ((expOf fmt x : Int) - fmt.bias < 1 - biasOf e ∨ (expOf fmt x : Int) - fmt.bias > biasOf e) ↔
      ¬ (fmt.bias + 1 ≤ expOf fmt x + biasOf e ∧ expOf fmt x ≤ fmt.bias + biasOf e) := by omega
  simp only [fEncFields, hones, hzero, false_and, if_false, hrebias, hrange, ite_not]

end Categories

/-- Settles O38: the pattern is the assembly of its fields, and those decide the category. -/
theorem storedFieldsOfEachCategory : Obligations.StoredFieldsOfEachCategory := by
  intro fmt e sz sg ef mf _ _ _ _ hsg hef hmf
  rw [← fmt.width_eq, ← assemble]
  have hsign := signOf_assemble fmt hsg hef hmf
  have hexp := expOf_assemble fmt (sg := sg) hef hmf
  have hsig := sigOf_assemble fmt (sg := sg) (ef := ef) hmf
  have hhigh : highSig fmt sz (assemble fmt sg ef mf) = mf / 2 ^ (fmt.sigBits - sz) := by rw [highSig, hsig]
  dsimp only
  split
  next hones =>
    split
    next hzero => rw [fEncFields_of_infinity e sz (hexp.trans hones) (hsig.trans hzero), hsign, ones]
    next hnan => rw [fEncFields_of_nan e sz (hexp.trans hones) (hsig.trans_ne hnan), hsign, hhigh, ones, forceNonZero]
  next hones =>
    split
    next hzero => rw [fEncFields_of_zero_exponent e sz (hexp.trans hzero), hsign, hhigh]
    next hzero => rw [fEncFields_of_normal e sz (hexp.trans_ne hones) (hexp.trans_ne hzero), hsign, hexp, hhigh, biasOf]

/-! ### General float commands -/

theorem exec_of_floatSize_legal {fmt : Fmt} {ex sz : Nat} {i : Instr} {s : State} {f : Unit → State → Res Reply}
    (e : exec i s = complete ((validFSize fmt ex sz s).andThen f)) (h : LegalFloatSize fmt ex sz) :
    exec i s = complete (f () s) :=
  exec_of_require e ((legalFloatSize_iff fmt ex sz).2 h)

theorem exec_of_floatSize_illegal {fmt : Fmt} {ex sz : Nat} {i : Instr} {s : State} {f : Unit → State → Res Reply}
    (e : exec i s = complete ((validFSize fmt ex sz s).andThen f)) (h : ¬ LegalFloatSize fmt ex sz) :
    exec i s = .next (preconditionFailed .invalidSize s) :=
  exec_of_require_false e (Bool.eq_false_iff.2 (mt (legalFloatSize_iff fmt ex sz).1 h)) rfl

/-- Past its two checks a float write is `NullableWrite` of the stored fields, whose widths (`fEncFields_bounds`) make what `FPut`
writes the number they spell. -/
theorem generalFloatWrite_of_writeFloat {fmt : Fmt} {nl : Bool} {sz ex : Nat} {i : Instr} {s : State}
    (e : exec i s = complete (writeFloat fmt nl sz ex s)) : GeneralFloatWrite fmt nl sz ex i s := by
  refine ⟨guardedW_of e, fun hopen hsz => exec_of_floatSize_illegal (exec_of_checkW e hopen) hsz, fun ⟨hopen, hn⟩ hsz => ?_⟩
  have hwrite := exec_of_floatSize_legal (exec_of_checkW e hopen) hsz
  obtain ⟨hexMin, -, hszMin, hszMax⟩ := hsz
  refine nullableWrites_of (storedNumber ex sz) hwrite hn fun f hf s₁ hn₁ => ?_
  obtain ⟨-, hfe, ht⟩ := fEncFields_bounds (fmt.expMin_pos.trans hexMin) (fmt.sigMin_pos.trans hszMin) hszMax hf
  exact fPut_puts ex sz hn₁ hfe ht

/-- Past its two checks a float read is `NullableRead` of `FDec`. -/
theorem generalFloatRead_of_readFloat {fmt : Fmt} {nl : Bool} {sz ex : Nat} {i : Instr} {s : State}
    (e : exec i s = complete (readFloat fmt nl sz ex s)) : GeneralFloatRead fmt nl sz ex i s := by
  refine ⟨guardedR_of e, fun hready hsz => exec_of_floatSize_illegal (exec_of_checkR e hready) hsz, fun hready hsz => ?_⟩
  have hread := exec_of_floatSize_legal (exec_of_checkR e hready) hsz
  exact nullableReads_of (fun p => fDecFields fmt ex sz (storedFields ex sz p)) hread (fDec_gets fmt ex sz)

/-- Settles O41: WRFLOAT and WRDOUBLE are `writeFloat` at the two native formats. -/
theorem generalFloatWritesFollowTheirRules : Obligations.GeneralFloatWritesFollowTheirRules := fun _ _ _ _ =>
  ⟨generalFloatWrite_of_writeFloat rfl, generalFloatWrite_of_writeFloat rfl⟩

/-- Settles O42: RDFLOAT and RDDOUBLE are `readFloat` at the two native formats. -/
theorem generalFloatReadsFollowTheirRules : Obligations.GeneralFloatReadsFollowTheirRules := fun _ _ _ _ =>
  ⟨generalFloatRead_of_readFloat rfl, generalFloatRead_of_readFloat rfl⟩

end Sys2Proof.Machine

/-! PROOFS. The category-compressed codecs (44_float_compressed.md R190 to R206). Zero and Infinity share one write and one read,
and so do Subnormal and NaN: each is settled once, for whatever command has it as its meaning. The codecs test the fields of a
pattern and their rules its magnitude; `categoryOf_eq` is the bridge. -/

namespace Sys2Proof.Machine

/-! ### The category of a magnitude -/

/-- The magnitude of a pattern is its exponent field over its significand field. -/
theorem magnitude_eq_fields (fmt : Fmt) (x : Nat) :
    x % 2 ^ (fmt.width - 1) = expOf fmt x * 2 ^ fmt.sigBits + sigOf fmt x := by
  rw [fmt.width_eq, Nat.add_comm, Nat.pow_add, Nat.mod_mul, expOf, sigOf, Nat.add_comm, Nat.mul_comm]

/-- The thresholds between the categories (45_float_detectors.md R220), as fields: exponent field 1, and all ones. -/
theorem smallestNormalOf_eq (fmt : Fmt) : smallestNormalOf fmt = 2 ^ fmt.sigBits := by cases fmt <;> rfl

theorem infinityOf_eq (fmt : Fmt) : infinityOf fmt = ones fmt.expBits * 2 ^ fmt.sigBits := by cases fmt <;> rfl

theorem smallestNormalOf_lt_infinityOf (fmt : Fmt) : smallestNormalOf fmt < infinityOf fmt := by cases fmt <;> decide

/-- The category of every pattern, by its magnitude alone (45_float_detectors.md R220). -/
theorem categoryOf_eq (fmt : Fmt) (x : Nat) :
    categoryOf fmt x =
      if x % 2 ^ (fmt.width - 1) = 0 then .zero
      else if x % 2 ^ (fmt.width - 1) < smallestNormalOf fmt then .subnormal
      else if x % 2 ^ (fmt.width - 1) < infinityOf fmt then .normal
      else if x % 2 ^ (fmt.width - 1) = infinityOf fmt then .infinity
      else .nan := by
  have hexp := expOf_lt fmt x
  have hsig := sigOf_lt fmt x
  rw [magnitude_eq_fields, smallestNormalOf_eq, infinityOf_eq, categoryOf]
  generalize expOf fmt x = ef at *
  generalize sigOf fmt x = mf at *
  have hones : ones fmt.expBits + 1 = 2 ^ fmt.expBits := by cases fmt <;> rfl
  have hpos := Nat.two_pow_pos fmt.sigBits
  rcases Nat.eq_zero_or_pos ef with rfl | hef
  · simp [hsig]
  · have hnormal : 2 ^ fmt.sigBits ≤ ef * 2 ^ fmt.sigBits := Nat.le_mul_of_pos_left _ hef
    have hnonzero : ef * 2 ^ fmt.sigBits + mf ≠ 0 := by omega
    have hnotSub : ¬ ef * 2 ^ fmt.sigBits + mf < 2 ^ fmt.sigBits := by omega
    rw [if_neg hef.ne', if_neg hnonzero, if_neg hnotSub]
    rcases Nat.lt_or_eq_of_le (show ef ≤ ones fmt.expBits by omega) with hlt | rfl
    · have hbelow : (ef + 1) * 2 ^ fmt.sigBits ≤ ones fmt.expBits * 2 ^ fmt.sigBits := Nat.mul_le_mul_right _ hlt
      rw [Nat.succ_mul] at hbelow
      rw [if_neg hlt.ne, if_pos (by omega)]
    · simp

/-! ### The fields of the pattern on DIN -/

theorem dinBits_mod {k n : Nat} (h : k ≤ n) (s : State) : dinBits n s % 2 ^ k = s.port.din.toNat % 2 ^ k :=
  Nat.mod_mod_of_dvd _ (Nat.pow_dvd_pow 2 h)

section Din

variable (fmt : Fmt) (s : State)

theorem magnitude_dinBits : dinBits fmt.width s % 2 ^ (fmt.width - 1) = magnitudeOnDin fmt s :=
  dinBits_mod (Nat.sub_le ..) s

theorem signOf_dinBits : signOf fmt (dinBits fmt.width s) = signOnDin fmt s := by
  cases fmt <;> simp only [signOf, dinBits, signOnDin, Fmt.width] <;> omega

theorem highSig_dinBits (w : Nat) :
    highSig fmt w (dinBits fmt.width s) = s.port.din.toNat % 2 ^ fmt.sigBits / 2 ^ (fmt.sigBits - w) := by
  rw [highSig, sigOf, dinBits_mod (by cases fmt <;> decide)]

theorem categoryOf_din_eq_zero_iff : categoryOf fmt (dinBits fmt.width s) = .zero ↔ magnitudeOnDin fmt s = 0 := by
  rw [categoryOf_eq, magnitude_dinBits]
  split_ifs <;> simp_all

theorem categoryOf_din_eq_subnormal_iff : categoryOf fmt (dinBits fmt.width s) = .subnormal ↔
    0 < magnitudeOnDin fmt s ∧ magnitudeOnDin fmt s < smallestNormalOf fmt := by
  rw [categoryOf_eq, magnitude_dinBits]
  split_ifs <;> simp <;> omega

theorem categoryOf_din_eq_infinity_iff :
    categoryOf fmt (dinBits fmt.width s) = .infinity ↔ magnitudeOnDin fmt s = infinityOf fmt := by
  have hthresholds := smallestNormalOf_lt_infinityOf fmt
  rw [categoryOf_eq, magnitude_dinBits]
  split_ifs <;> simp <;> omega

theorem categoryOf_din_eq_nan_iff : categoryOf fmt (dinBits fmt.width s) = .nan ↔ infinityOf fmt < magnitudeOnDin fmt s := by
  have hthresholds := smallestNormalOf_lt_infinityOf fmt
  rw [categoryOf_eq, magnitude_dinBits]
  split_ifs <;> simp <;> omega

end Din

/-- `RequireCat` lets the values of the category through (44_float_compressed.md R190). -/
theorem map_ofCategory {α : Type} {fmt : Fmt} {x : Nat} {c : Category} {P : Prop} [Decidable P]
    (hcat : categoryOf fmt x = c ↔ P) (f : α) (num : α → Nat) :
    (ofCategory fmt x c f).map num = if P then some (num f) else none := by
  by_cases h : P
  · rw [ofCategory, if_pos (hcat.2 h), if_pos h, Option.map_some]
  · rw [ofCategory, if_neg (mt hcat.1 h), if_neg h, Option.map_none]

/-! ### The sign alone -/

/-- Past its check such a write is `NullableWrite` of one bit, the sign. -/
theorem signWrite_of_writeSignOnly {fmt : Fmt} {c : Category} {m : Nat} {nl : Bool} {i : Instr} {s : State}
    (hcat : categoryOf fmt (dinBits fmt.width s) = c ↔ magnitudeOnDin fmt s = m)
    (e : exec i s = complete (writeSignOnly fmt c nl s)) : SignWrite fmt m nl i s := by
  refine ⟨guardedW_of e, fun ⟨hopen, hn⟩ => ?_⟩
  have hwrite := nullableWrites_of id (exec_of_checkW e hopen) hn fun sg _ s₁ hn₁ => putBits_puts sg 1 hn₁
  rwa [map_ofCategory hcat, id, signOf_dinBits] at hwrite

/-- Past its check such a read is `NullableRead` of one bit, put above the implied exponent field. -/
theorem signRead_of_readSignOnly {fmt : Fmt} {ef m : Nat} {nl : Bool} {i : Instr} {s : State}
    (hm : ef * 2 ^ fmt.sigBits = m) (e : exec i s = complete (readSignOnly fmt ef nl s)) : SignRead fmt m nl i s := by
  subst hm
  refine ⟨guardedR_of e, fun hready => ?_⟩
  exact nullableReads_of (fun sg => assemble fmt sg ef 0) (exec_of_checkR e hready) fun s₁ =>
    (getBits_gets 1 s₁).map fun sg => assemble fmt sg ef 0

/-- Settles O46: the four commands are the sign-only write and read at exponent field 0. -/
theorem zeroCodecsFollowTheirRules : Obligations.ZeroCodecsFollowTheirRules := fun _ s =>
  ⟨signWrite_of_writeSignOnly (categoryOf_din_eq_zero_iff .F s) rfl, signRead_of_readSignOnly (Nat.zero_mul _) rfl,
    signWrite_of_writeSignOnly (categoryOf_din_eq_zero_iff .D s) rfl, signRead_of_readSignOnly (Nat.zero_mul _) rfl⟩

/-- Settles O47: the four commands are the sign-only write and read at the exponent field of all ones. -/
theorem infinityCodecsFollowTheirRules : Obligations.InfinityCodecsFollowTheirRules := fun _ s =>
  ⟨signWrite_of_writeSignOnly (categoryOf_din_eq_infinity_iff .F s) rfl, signRead_of_readSignOnly (infinityOf_eq .F).symm rfl,
    signWrite_of_writeSignOnly (categoryOf_din_eq_infinity_iff .D s) rfl, signRead_of_readSignOnly (infinityOf_eq .D).symm rfl⟩

/-! ### The sign and the high significand bits -/

theorem exec_of_width_legal {fmt : Fmt} {w : Nat} {i : Instr} {s : State} {f : Unit → State → Res Reply}
    (e : exec i s = complete ((validWidth fmt w s).andThen f)) (hmin : 1 ≤ w) (hmax : w ≤ fmt.sigBits) :
    exec i s = complete (f () s) :=
  exec_of_require e (by simp [hmin, hmax])

theorem exec_of_width_illegal {fmt : Fmt} {w : Nat} {i : Instr} {s : State} {f : Unit → State → Res Reply}
    (e : exec i s = complete ((validWidth fmt w s).andThen f)) (h : w < 1 ∨ fmt.sigBits < w) :
    exec i s = .next (preconditionFailed .invalidSize s) := by
  refine exec_of_require_false e ?_ rfl
  simp only [Bool.and_eq_false_iff, decide_eq_false_iff_not]
  omega

/-- The significand bits a codec stores of the t it kept: a NaN's are forced non-zero (44_float_compressed.md R203). -/
def storedSig (force : Bool) (t : Nat) : Nat := if force = true ∧ t = 0 then 1 else t

@[simp] theorem storedSig_false (t : Nat) : storedSig false t = t := by simp [storedSig]

@[simp] theorem storedSig_true (t : Nat) : storedSig true t = forceNonZero t := by simp [storedSig, forceNonZero]

theorem storedSig_lt {w t : Nat} (force : Bool) (hw : 1 ≤ w) (ht : t < 2 ^ w) : storedSig force t < 2 ^ w := by
  cases force with
  | true => rw [storedSig_true]; exact forceNonZero_lt hw ht
  | false => rwa [storedSig_false]

/-- The one write of which `writeSubnormal` and `writeNan` are cases. -/
def writeSignSig (fmt : Fmt) (c : Category) (force nl so : Bool) (w : Nat) (s : State) : Res Reply :=
  (checkW s).andThen fun _ s =>
  (validWidth fmt w s).andThen fun _ s =>
  let x := dinBits fmt.width s
  (nullableWrite nl (ofCategory fmt x c (signOf fmt x, storedSig force (highSig fmt w x))) (putSignSig so w) s).andThen
    fun _ s => done 0 s

theorem writeSubnormal_eq (fmt : Fmt) (nl : Bool) (w : Nat) (s : State) :
    writeSubnormal fmt nl w s = writeSignSig fmt .subnormal false nl false w s := by
  simp only [writeSubnormal, writeSignSig, storedSig_false]

theorem writeNan_eq (fmt : Fmt) (nl so : Bool) (w : Nat) (s : State) :
    writeNan fmt nl so w s = writeSignSig fmt .nan true nl so w s := by
  simp only [writeNan, writeSignSig, storedSig_true]

/-- The number that a sign, unless it is left out, and w significand bits spell. -/
def signSigNumber (so : Bool) (w : Nat) (f : Nat × Nat) : Nat := if so then f.2 else f.1 * 2 ^ w + f.2

theorem putSignSig_puts (so : Bool) {w : Nat} {f : Nat × Nat} {s : State} (hn : s.W.n < 8) (hf : f.2 < 2 ^ w) :
    Puts (signSigNumber so w f) (if so then w else 1 + w) s (putSignSig so w f s) := by
  cases so with
  | true => exact putBits_puts f.2 w hn
  | false =>
    have hputs := (putBits_puts f.1 1 hn).andThen (f := fun _ s => putBits f.2 w s) fun _ happ _ =>
      putBits_puts f.2 w happ.ready
    rwa [Nat.mod_eq_of_lt hf] at hputs

/-- Past its two checks such a write is `NullableWrite` of the stored fields, and the significand bits fit their width. -/
theorem significandWrite_of_writeSignSig {fmt : Fmt} {c : Category} {inCategory : Prop} [Decidable inCategory]
    {force so nl : Bool} {w : Nat} {i : Instr} {s : State} (hcat : categoryOf fmt (dinBits fmt.width s) = c ↔ inCategory)
    (e : exec i s = complete (writeSignSig fmt c force nl so w s)) :
    SignificandWrite fmt inCategory force so nl w i s := by
  refine ⟨guardedW_of e, fun hopen hw => exec_of_width_illegal (exec_of_checkW e hopen) hw, fun ⟨hopen, hn⟩ hmin hmax => ?_⟩
  have hwrite := nullableWrites_of (signSigNumber so w) (t := if so then w else 1 + w)
    (exec_of_width_legal (exec_of_checkW e hopen) hmin hmax) hn fun f hf s₁ hn₁ => by
      obtain ⟨-, hfields⟩ := Option.ite_none_right_eq_some.1 hf
      cases hfields
      exact putSignSig_puts so hn₁ (storedSig_lt force hmin (highSig_lt fmt hmax _))
  rwa [map_ofCategory hcat, signOf_dinBits, highSig_dinBits] at hwrite

/-- The pattern that the bits of a significand codec, as one number, stand for under an implied exponent field. -/
def signSigPattern (fmt : Fmt) (ef : Nat) (so : Bool) (w p : Nat) : Nat :=
  assemble fmt (if so then 0 else p / 2 ^ w) ef (p % 2 ^ w * 2 ^ (fmt.sigBits - w))

theorem signSig_gets (fmt : Fmt) (ef : Nat) (so : Bool) (w : Nat) (s : State) :
    Gets (signSigPattern fmt ef so w (inNumber s 0 (if so then w else 1 + w))) (if so then w else 1 + w) s
      ((getSign so s).andThen fun sg s => (getBits w s).andThen fun t s =>
        .ok (assemble fmt sg ef (t * 2 ^ (fmt.sigBits - w))) s) := by
  cases so with
  | true =>
    have hgets := (getBits_gets w s).map fun t => assemble fmt 0 ef (t * 2 ^ (fmt.sigBits - w))
    simp only [signSigPattern, if_true, Nat.mod_eq_of_lt (inNumber_lt s 0 w)]
    exact hgets
  | false =>
    have hsign : inNumber s 0 (1 + w) / 2 ^ w = inNumber s 0 1 := by
      rw [inNumber_add, Nat.mul_comm, Nat.mul_add_div (Nat.two_pow_pos _), Nat.div_eq_of_lt (inNumber_lt ..), Nat.add_zero]
    have hsig : inNumber s 0 (1 + w) % 2 ^ w = inNumber s 1 w := by
      rw [inNumber_add, Nat.mul_comm, Nat.mul_add_mod, Nat.mod_eq_of_lt (inNumber_lt ..), Nat.zero_add]
    simp only [signSigPattern, Bool.false_eq_true, if_false, hsign, hsig]
    refine (getBits_gets 1 s).andThen fun s₁ hsgn _ => ?_
    have hgets := (getBits_gets w s₁).map fun t => assemble fmt (inNumber s 0 1) ef (t * 2 ^ (fmt.sigBits - w))
    rwa [inNumber_shift hsgn] at hgets

/-- Past its two checks such a read is `NullableRead` of the sign and the significand bits. -/
theorem significandRead_of_readSignSig {fmt : Fmt} {ef implied : Nat} {so nl : Bool} {w : Nat} {i : Instr} {s : State}
    (himplied : ef * 2 ^ fmt.sigBits = implied) (e : exec i s = complete (readSignSig fmt ef nl so w s)) :
    SignificandRead fmt implied so nl w i s := by
  subst himplied
  refine ⟨guardedR_of e, fun hready hw => exec_of_width_illegal (exec_of_checkR e hready) hw, fun hready hmin hmax => ?_⟩
  have hread := exec_of_width_legal (exec_of_checkR e hready) hmin hmax
  exact nullableReads_of (signSigPattern fmt ef so w) hread (signSig_gets fmt ef so w)

theorem significandWrite_of_writeSubnormal {fmt : Fmt} {nl : Bool} {w : Nat} {i : Instr} {s : State}
    (e : exec i s = complete (writeSubnormal fmt nl w s)) :
    SignificandWrite fmt (0 < magnitudeOnDin fmt s ∧ magnitudeOnDin fmt s < smallestNormalOf fmt) false false nl w i s :=
  significandWrite_of_writeSignSig (categoryOf_din_eq_subnormal_iff fmt s) (e.trans (by rw [writeSubnormal_eq]))

theorem significandWrite_of_writeNan {fmt : Fmt} {nl so : Bool} {w : Nat} {i : Instr} {s : State}
    (e : exec i s = complete (writeNan fmt nl so w s)) :
    SignificandWrite fmt (infinityOf fmt < magnitudeOnDin fmt s) true so nl w i s :=
  significandWrite_of_writeSignSig (categoryOf_din_eq_nan_iff fmt s) (e.trans (by rw [writeNan_eq]))

/-- Settles O48: the exponent field 0 is implied, and the sign is always stored. -/
theorem subnormalCodecsFollowTheirRules : Obligations.SubnormalCodecsFollowTheirRules := fun _ _ _ =>
  ⟨significandWrite_of_writeSubnormal rfl, significandRead_of_readSignSig (Nat.zero_mul _) rfl,
    significandWrite_of_writeSubnormal rfl, significandRead_of_readSignSig (Nat.zero_mul _) rfl⟩

/-- Settles O49: the exponent field of all ones is implied, and a write alone forces the significand bits. -/
theorem nanCodecsFollowTheirRules : Obligations.NanCodecsFollowTheirRules := fun _ _ _ _ =>
  ⟨significandWrite_of_writeNan rfl, significandRead_of_readSignSig (infinityOf_eq .F).symm rfl,
    significandWrite_of_writeNan rfl, significandRead_of_readSignSig (infinityOf_eq .D).symm rfl⟩

end Sys2Proof.Machine

/-! PROOFS. The float category and its detectors (45_float_detectors.md R220 to R228). The detectors test the fields of the pattern
on DIN and their rules its magnitude, so the bridge is again `categoryOf_eq`; a test and a classification are each settled once, for
whatever command has it as its meaning. -/

namespace Sys2Proof.Machine

/-- Settles O44: the magnitude of the pattern is m, because the sign stands above it. -/
theorem categoryFollowsTheMagnitude : Obligations.CategoryFollowsTheMagnitude := fun fmt sg m _ hm => by
  have hmagnitude : (sg * 2 ^ (fmt.width - 1) + m) % 2 ^ (fmt.width - 1) = m := by
    rw [Nat.mul_add_mod_self_right, Nat.mod_eq_of_lt hm]
  rw [categoryOf_eq, hmagnitude]

/-- A command that is a test of a category answers whether the condition that describes the category holds. -/
theorem exec_of_testCategory {fmt : Fmt} {c : Category} {P : Prop} [Decidable P] {i : Instr} {s : State}
    (hcat : categoryOf fmt (dinBits fmt.width s) = c ↔ P) (e : exec i s = complete (testCategory fmt c s)) :
    exec i s = .next (completedWith (if P then 1 else 0) false s) := by
  have hanswer : dout (if categoryOf fmt (dinBits fmt.width s) = c then 1 else 0) = if P then 1 else 0 := by
    simp only [hcat, apply_ite dout]
    rfl
  rw [e, testCategory, hanswer, done, complete_value, report_ok]

/-- The class code of the pattern on DIN, by its magnitude (45_float_detectors.md R220). -/
theorem dout_code_categoryOf_din (fmt : Fmt) (s : State) :
    dout (categoryOf fmt (dinBits fmt.width s)).code =
      if magnitudeOnDin fmt s = 0 then 0
      else if magnitudeOnDin fmt s < smallestNormalOf fmt then 1
      else if magnitudeOnDin fmt s < infinityOf fmt then 2
      else if magnitudeOnDin fmt s = infinityOf fmt then 3
      else 4 := by
  rw [categoryOf_eq, magnitude_dinBits]
  simp only [apply_ite Category.code, apply_ite dout]
  rfl

theorem exec_of_classify {fmt : Fmt} {i : Instr} {s : State} (e : exec i s = complete (classify fmt s)) :
    exec i s = .next (completedWith
      (if magnitudeOnDin fmt s = 0 then 0
       else if magnitudeOnDin fmt s < smallestNormalOf fmt then 1
       else if magnitudeOnDin fmt s < infinityOf fmt then 2
       else if magnitudeOnDin fmt s = infinityOf fmt then 3
       else 4) false s) := by
  rw [e, classify, dout_code_categoryOf_din, done, complete_value, report_ok]

/-- Settles O45: the commands are the tests of Zero, Infinity and NaN, and the classification, at the two native formats. -/
theorem detectorsAnswerFromDinAlone : Obligations.DetectorsAnswerFromDinAlone := fun s =>
  ⟨exec_of_testCategory (categoryOf_din_eq_zero_iff .F s) rfl, exec_of_testCategory (categoryOf_din_eq_zero_iff .D s) rfl,
    exec_of_testCategory (categoryOf_din_eq_infinity_iff .F s) rfl, exec_of_testCategory (categoryOf_din_eq_infinity_iff .D s) rfl,
    exec_of_testCategory (categoryOf_din_eq_nan_iff .F s) rfl, exec_of_testCategory (categoryOf_din_eq_nan_iff .D s) rfl,
    exec_of_classify rfl, exec_of_classify rfl⟩

end Sys2Proof.Machine

/-! PROOFS. The variable-length quantities (46_vlq.md R240 to R246). WRVLQI and WRVLQL are one write and RDVLQI and RDVLQL one read,
settled for whatever command has it as its meaning. A read is decided by the first unit that does not go on: what `VlqGet` does with
that unit is said once, and its three ends are read off it. -/

namespace Sys2Proof.Machine

/-! ### Writes -/

/-- Past its two checks a VLQ write is `VlqPut` of the operand, which is not negative. -/
theorem vlqWrite_of_writeVlq {N : Nat} {i : Instr} {s : State} (e : exec i s = complete (writeVlq N s)) : VlqWrite N i s := by
  refine ⟨guardedW_of e, fun hopen hneg => ?_, fun ⟨hopen, hn⟩ v hv => ?_⟩ <;> have hsign := exec_of_checkW e hopen
  · rw [← dinSigned_eq] at hneg
    exact exec_of_require_fault hsign (decide_eq_false hneg.not_ge) rfl
  · rw [← dinSigned_eq] at hv
    have hnonneg : 0 ≤ dinSigned N s := hv ▸ Int.natCast_nonneg v
    have hput := exec_of_require hsign (decide_eq_true hnonneg)
    rw [hv, Int.toNat_natCast] at hput
    exact writes_of_puts hput (vlqPut_puts v hn)

/-- Settles O51: WRVLQI and WRVLQL are `writeVlq` at the two native widths. -/
theorem vlqWritesFollowTheirRules : Obligations.VlqWritesFollowTheirRules := fun _ =>
  ⟨vlqWrite_of_writeVlq rfl, vlqWrite_of_writeVlq rfl⟩

/-! ### The unit that ends a read -/

section DecidingUnit

variable {L G m : Nat} {s : State}

/-- Where the channel supplies unit m too, `VlqGet` has consumed it before it looks at its fields (46_vlq.md R242). -/
theorem vlqGet_supplied (hm : m < G) (hu : UnitsGoOn L m s) (hs : Supplies s (8 * (m + 1))) :
    ∃ s', Consumed (8 * (m + 1)) s s' ∧ Quiet s s' ∧
      vlqGet L G s = (require (decide (unitGroup s m * 2 ^ (7 * m) < 2 ^ L)) .malformedVlq s').andThen fun _ s' =>
        if unitContinues s m then vlqGetFrom L (G - 1 - m) (m + 1) (unitsValue s (m + 1)) s'
        else .ok (unitsValue s (m + 1)) s' := by
  rw [Nat.mul_succ] at hs ⊢
  obtain ⟨s₁, hbefore, hquiet, hunit, e⟩ := vlqGet_next hm hu hs.first
  obtain ⟨s', hget, hconsumed, hquiet'⟩ := hunit.1 (hs.rest hbefore)
  refine ⟨s', hbefore.trans hconsumed, hquiet.trans hquiet', ?_⟩
  rw [e, hget, Res.ok_andThen, unitsValue]
  cases unitContinues s m <;> rfl

/-- The last unit: its continuation bit is 0 and its group fits. -/
theorem vlqGet_returns (hm : m < G) (hu : UnitsGoOn L m s) (hlast : unitContinues s m = false)
    (hfits : unitGroup s m * 2 ^ (7 * m) < 2 ^ L) (hs : Supplies s (8 * (m + 1))) :
    ∃ s', vlqGet L G s = .ok (unitsValue s (m + 1)) s' ∧ Consumed (8 * (m + 1)) s s' ∧ Quiet s s' := by
  obtain ⟨s', hconsumed, hquiet, e⟩ := vlqGet_supplied hm hu hs
  refine ⟨s', ?_, hconsumed, hquiet⟩
  simp [e, hlast, hfits]

/-- The offending unit: its group does not fit, or it is the last one allowed and announces another. -/
theorem vlqGet_malformed (hm : m < G) (hu : UnitsGoOn L m s)
    (hbad : 2 ^ L ≤ unitGroup s m * 2 ^ (7 * m) ∨ (unitContinues s m = true ∧ m + 1 = G)) (hs : Supplies s (8 * (m + 1))) :
    ∃ s', vlqGet L G s = .stop .malformedVlq s' ∧ Consumed (8 * (m + 1)) s s' ∧ Quiet s s' := by
  obtain ⟨s', hconsumed, hquiet, e⟩ := vlqGet_supplied hm hu hs
  refine ⟨s', ?_, hconsumed, hquiet⟩
  by_cases hfits : unitGroup s m * 2 ^ (7 * m) < 2 ^ L
  · obtain ⟨hcontinues, hlast⟩ := hbad.resolve_left hfits.not_ge
    have hleft : G - 1 - m = 0 := by omega
    simp [e, hfits, hcontinues, hleft, vlqGetFrom]
  · simp [e, hfits]

/-- The unit the channel does not give whole: the missing byte is not among those of the units before it. -/
theorem vlqGet_breaks {a : Nat} (hm : m < G) (hu : UnitsGoOn L m s) (hs : Supplies s (8 * m))
    (hmissing : FirstMissing s (8 * (m + 1)) a) :
    ∃ s', vlqGet L G s = .stop (missingStatus s.inp a) s' ∧ BrokeReading a s s' ∧ Quiet s s' := by
  obtain ⟨s₁, hbefore, hquiet, hunit, e⟩ := vlqGet_next hm hu hs
  rw [Nat.mul_succ] at hmissing
  have hk : s₁.R.k ≤ a := by
    obtain ⟨-, -, -, hbytes, -⟩ := hbefore
    rcases hmissing.split with ⟨hfrom, hbelow, habsent, -⟩ | ⟨-, hpast⟩
    · simp [hs a hbelow hfrom] at habsent
    · rwa [hbytes]
  obtain ⟨s', hget, hbroke, hquiet'⟩ := hunit.2 a (hmissing.rest hbefore hk)
  refine ⟨s', ?_, hbroke.after hbefore, hquiet.trans hquiet'⟩
  rw [e, hget, Res.stop_andThen, hbefore.inp]

end DecidingUnit

/-! ### Reads -/

/-- Past its check a VLQ read is `VlqGet`, and its end is reported. -/
theorem readsVlq_of_readVlq {L G : Nat} {i : Instr} {s : State} (e : exec i s = complete (readVlq L G s)) (h : ReaderReady s) :
    ReadsVlq i L G s := by
  have hread := exec_of_checkR e h
  refine ⟨fun m hm hu hlast hfits hs => ?_, fun m hm hu hbad hs => ?_, fun m a hm hu hs hmissing => ?_⟩
  · obtain ⟨s', hget, hconsumed, hquiet⟩ := vlqGet_returns hm hu hlast hfits hs
    rw [hget] at hread
    exact ⟨_, hread, hconsumed.report .., report_endedOk _ false hquiet⟩
  · obtain ⟨s', hget, hconsumed, hquiet⟩ := vlqGet_malformed hm hu hbad hs
    rw [hget] at hread
    exact ⟨_, hread, hconsumed.report .., report_endedFault rfl hquiet⟩
  · obtain ⟨s', hget, hbroke, hquiet⟩ := vlqGet_breaks hm hu hs hmissing
    rw [hget] at hread
    exact ⟨_, hread, hbroke.report .., report_endedIo (missingStatus_cls ..) hquiet⟩

/-- Settles O52: RDVLQI is `readVlq` with 31 value bits and 5 units, RDVLQL with 63 and 9. -/
theorem vlqReadsFollowTheirRules : Obligations.VlqReadsFollowTheirRules := fun _ =>
  ⟨guardedR_of rfl, guardedR_of rfl, fun hready => ⟨readsVlq_of_readVlq rfl hready, readsVlq_of_readVlq rfl hready⟩⟩

end Sys2Proof.Machine

/-! PROOFS. The failure protocol of 60_exceptions.md (R261, R262, R265). A step on a command ends in one of three ways, which
`step_cases` tells apart; a precondition failure leaves the accepting state as it was in each of them. -/

namespace Sys2Proof.Machine

/-! ### The three ends of a step on a command -/

section StepOnACommand

variable {s : State} {c : Command} {rest : List Command}

/-- A faulted block looks at no word (R265). -/
theorem step_of_fault (hqueue : s.queue = c :: rest) (hfault : s.S.fault = true) :
    step s = .next (report .faulted 0 false (accept c rest s)) := by
  simp [step, hqueue, runPort, accept, hfault]

theorem step_of_decode_ok {i : Instr} (hqueue : s.queue = c :: rest) (hfault : s.S.fault = false) (hdec : decode c.cmd = .ok i) :
    step s = exec i (accept c rest s) := by
  simp [step, hqueue, runPort, accept, hfault, hdec]

/-- The block-level checks, in the order of R261. -/
theorem step_cases (hqueue : s.queue = c :: rest) :
    (s.S.fault = true ∧ step s = .next (report .faulted 0 false (accept c rest s))) ∨
      (s.S.fault = false ∧ (∃ err, decode c.cmd = .error err) ∧
        step s = .next (preconditionFailed .illegalCommand (accept c rest s))) ∨
      ∃ i, s.S.fault = false ∧ decode c.cmd = .ok i ∧ step s = exec i (accept c rest s) := by
  cases hfault : s.S.fault with
  | true => exact .inl ⟨rfl, step_of_fault hqueue hfault⟩
  | false =>
    cases hdec : decode c.cmd with
    | error err => exact .inr (.inl ⟨rfl, ⟨err, rfl⟩, step_of_decode_error hqueue hfault hdec⟩)
    | ok i => exact .inr (.inr ⟨i, rfl, rfl, step_of_decode_ok hqueue hfault hdec⟩)

end StepOnACommand

/-! ### A faulted block -/

/-- FAULTED is reported while S.fault is 1 already, so S.last alone changes (R265). -/
theorem record_faulted {b : BlockStatus} (h : b.fault = true) : b.record .faulted = { b with last := 35 } := by
  rw [record_fault b rfl, ← h]
  rfl

/-- Settles O8: the report of FAULTED sets no sticky bit that is not set already. -/
theorem faultedBlockIsQuiescent : Obligations.FaultedBlockIsQuiescent := by
  intro s c rest hqueue hfault
  have hS : (accept c rest s).S.record .faulted = { s.S with last := 35 } := record_faulted hfault
  rw [step_of_fault hqueue hfault, report, hS]
  rfl

/-! ### A precondition failure -/

/-- Every precondition status but ILLEGAL_COMMAND is one that a command's own checks raise (R260, R261). -/
theorem isCheck_of_precondition {e : Status} (hcls : e.cls = .precondition) (hne : e ≠ .illegalCommand) : IsCheck e := by
  cases e
  case illegalCommand => exact absurd rfl hne
  case invalidSize | invalidCount | invalidBoundary | illegalState => simp [IsCheck]
  all_goals simp [Status.cls] at hcls

theorem eq_of_statusIs_report {e d : Status} {v : Data} {z : Bool} {u : State} (h : statusIs e (report d v z u)) : d = e := by
  obtain ⟨r, hr, hcode⟩ := h
  obtain rfl := Option.some.inj hr
  exact Status.code_injective hcode

/-- A command that reports a precondition failure was turned away by one of its checks, before it moved anything (R262). -/
theorem exec_of_statusIs_precondition {i : Instr} {s t : State} {e : Status} (hexec : exec i s = .next t) (hstatus : statusIs e t)
    (hcls : e.cls = .precondition) : t = preconditionFailed e s := by
  obtain ⟨d, v, z, u, hreport, hzero, hran⟩ := exec_ran i s
  obtain rfl : report d v z u = t := Host.Outcome.next.inj (hreport.symm.trans hexec)
  obtain rfl := eq_of_statusIs_report hstatus
  have hfailed : d ≠ .ok := by
    rintro rfl
    simp [Status.cls] at hcls
  obtain ⟨rfl, rfl⟩ := hzero hfailed
  obtain rfl := hran.check (isCheck_of_precondition hcls hran.notIllegal)
  exact report_precondition hcls u

/-- A step that reports a precondition failure has changed nothing else once the command was accepted (R262). -/
theorem step_of_statusIs_precondition {s t : State} {c : Command} {rest : List Command} {e : Status} (hqueue : s.queue = c :: rest)
    (hstep : step s = .next t) (hstatus : statusIs e t) (hcls : e.cls = .precondition) :
    t = preconditionFailed e (accept c rest s) := by
  rcases step_cases hqueue with ⟨-, hend⟩ | ⟨-, -, hend⟩ | ⟨i, -, -, hend⟩
  · obtain rfl := Host.Outcome.next.inj (hend.symm.trans hstep)
    obtain rfl := eq_of_statusIs_report hstatus
    simp [Status.cls] at hcls
  · rw [← report_precondition rfl] at hend
    obtain rfl := Host.Outcome.next.inj (hend.symm.trans hstep)
    obtain rfl := eq_of_statusIs_report hstatus
    exact report_precondition hcls _
  · exact exec_of_statusIs_precondition (hend.symm.trans hstep) hstatus hcls

/-- Settles O11: the five statuses are the precondition class of R260. -/
theorem preconditionFailureChangesNothingElse : Obligations.PreconditionFailureChangesNothingElse := by
  intro s t c rest e hqueue hstep hstatus he
  have hcls : e.cls = .precondition := by rcases he with rfl | rfl | rfl | rfl | rfl <;> rfl
  exact step_of_statusIs_precondition hqueue hstep hstatus hcls

end Sys2Proof.Machine

/-! PROOFS. The round trip of words and commands (30_encoding.md sections 1 and 3). A word is its fields both ways: `pack` puts at
their places the fields that `fieldsOf` finds there, so each direction comes down to one row of the decoder at a time. -/

namespace Sys2Proof

open Laws.EncodesItsRow (szFits_iff exFits_iff)

/-! ### Packing fields -/

/-- The fields of a packed word, where each fits its place (R60). -/
theorem fieldsOf_pack {opc u nl so sz ex : Nat} (hopc : opc < 2 ^ 8) (hu : u < 2) (hnl : nl < 2) (hso : so < 2) (hsz : sz < 2 ^ 7)
    (hex : ex < 2 ^ 4) : fieldsOf (pack opc u nl so sz ex) = ⟨opc, u, nl, so, sz, ex, 0⟩ := by
  simp only [fieldsOf, pack, bitsAt, BitVec.toNat_ofNat, Fields.mk.injEq]
  omega

/-- A word whose RSV is 0 is packed from its fields. -/
theorem pack_fieldsOf {w : Word} (hrsv : (fieldsOf w).rsv = 0) :
    pack (fieldsOf w).opc (fieldsOf w).u (fieldsOf w).nl (fieldsOf w).so (fieldsOf w).sz (fieldsOf w).ex = w := by
  have hw := w.isLt
  simp only [fieldsOf, bitsAt] at hrsv
  apply BitVec.eq_of_toNat_eq
  simp only [fieldsOf, pack, bitsAt, BitVec.toNat_ofNat]
  omega

theorem toNat_flag {n : Nat} (h : n < 2) : (flag n).toNat = n := by
  obtain rfl | rfl : n = 0 ∨ n = 1 := by omega
  all_goals rfl

/-! ### From a command to its word and back -/

/-- The decoder reads the fields a word was packed from. -/
theorem decode_pack (u nl so : Bool) {opc sz ex : Nat} (hopc : opc < 2 ^ 8) (hsz : szFits sz = true) (hex : exFits ex = true) :
    decode (pack opc u.toNat nl.toNat so.toNat sz ex) = decodeFields ⟨opc, u.toNat, nl.toNat, so.toNat, sz, ex, 0⟩ := by
  rw [decode, fieldsOf_pack hopc u.toNat_lt nl.toNat_lt so.toNat_lt (szFits_iff.1 hsz) (exFits_iff.1 hex)]

/-- Settles O1: in each of the seven formats (R61) the row of the opcode finds its unused fields 0 and puts the others back into the
command. -/
theorem decodeOfEncodeIsTheCommand : Obligations.DecodeOfEncodeIsTheCommand := by
  intro i hw
  cases i
  case rdbits | wrbits | wrchar | rdchar => exact decode_pack false false false (by decide) hw rfl
  case wrint u _ | rdint u _ | wrlong u _ | rdlong u _ | wrbyte u _ | rdbyte u _ | wrshort u _ | rdshort u _ =>
    refine (decode_pack u false false (by decide) hw rfl).trans ?_
    cases u <;> rfl
  case wrfloat nl _ _ | rdfloat nl _ _ | wrdouble nl _ _ | rddouble nl _ _ =>
    obtain ⟨hsz, hex⟩ := Bool.and_eq_true_iff.1 hw
    refine (decode_pack false nl false (by decide) hsz hex).trans ?_
    cases nl <;> rfl
  case wrzerof nl | rdzerof nl | wrzerod nl | rdzerod nl | wrinff nl | rdinff nl | wrinfd nl | rdinfd nl =>
    refine (decode_pack false nl false (by decide) rfl rfl).trans ?_
    cases nl <;> rfl
  case wrsubf nl _ | rdsubf nl _ | wrsubd nl _ | rdsubd nl _ =>
    refine (decode_pack false nl false (by decide) hw rfl).trans ?_
    cases nl <;> rfl
  case wrnanf nl so _ | rdnanf nl so _ | wrnand nl so _ | rdnand nl so _ =>
    refine (decode_pack false nl so (by decide) hw rfl).trans ?_
    cases nl <;> cases so <;> rfl
  all_goals exact decode_pack false false false (by decide) rfl rfl

/-! ### From a word to its command and back -/

theorem legal_eq_ok_iff {fmt : Format} {f : Fields} {i j : Instr} :
    legal fmt f i = .ok j ↔ unusedZero fmt f = true ∧ f.rsv = 0 ∧ i = j := by
  unfold legal
  split_ifs <;> simp_all

/-- Fields that decode are those the command's word is packed from: a row fills the command with the fields its format uses, and has
seen the others to be 0 (R61, R71). -/
theorem encode_of_decodeFields {f : Fields} {i : Instr} (hu : f.u < 2) (hnl : f.nl < 2) (hso : f.so < 2) (hsz : f.sz < 2 ^ 7)
    (hex : f.ex < 2 ^ 4) (h : decodeFields f = .ok i) :
    f.rsv = 0 ∧ wellFormed i = true ∧ encode i = pack f.opc f.u f.nl f.so f.sz f.ex := by
  have hszFits := szFits_iff.2 hsz
  have hexFits := exFits_iff.2 hex
  unfold decodeFields at h
  split at h
  case h_65 => simp at h
  all_goals
    rename_i hopc
    obtain ⟨hunused, hrsv, rfl⟩ := legal_eq_ok_iff.1 h
    simp only [unusedZero, Format.usesU, Format.usesNL, Format.usesSO, Format.usesSZ, Format.usesEX, Bool.and_eq_true,
      Bool.or_eq_true, beq_iff_eq, Bool.false_eq_true, false_or, true_or, true_and, and_true] at hunused
    simp [wellFormed, encode, toNat_flag, *]

/-- Settles O2: the fields of a word are within their widths and make up the word. -/
theorem encodeOfDecodeIsTheWord : Obligations.EncodeOfDecodeIsTheWord := by
  intro w i hdec
  obtain ⟨hrsv, hwf, hencode⟩ := encode_of_decodeFields (f := fieldsOf w) (bitsAt_lt ..) (bitsAt_lt ..) (bitsAt_lt ..)
    (bitsAt_lt ..) (bitsAt_lt ..) hdec
  exact ⟨hwf, hencode.trans (pack_fieldsOf hrsv)⟩

/-- Settles O4: the words are closed, and the decoder evaluates on each. -/
theorem wordsOfEachFormatDecode : Obligations.WordsOfEachFormatDecode := by
  unfold Obligations.WordsOfEachFormatDecode
  and_intros <;> rfl

end Sys2Proof

/-! PROOFS. What every command and every step leaves (10_state.md sections 3 and 4; 20_memory.md sections 1, 3 and 5;
60_exceptions.md). `exec_ran` says once what a command has done by the time it reports, and `step_reports` says it of a step; each
statement reads off the part it is about. -/

namespace Sys2Proof.Machine

/-! ### The report, by its status -/

/-- The sticky bits by the code ranges of R260. -/
theorem record_by_code (b : BlockStatus) (c : Status) :
    (b.record c).fault = (b.fault || decide (32 ≤ c.code.toNat)) ∧
      (b.record c).pf = (b.pf || decide (1 ≤ c.code.toNat ∧ c.code.toNat ≤ 5)) ∧
      (b.record c).iof = (b.iof || decide (c.code.toNat = 16 ∨ c.code.toNat = 17)) := by
  cases c <;> exact ⟨rfl, rfl, rfl⟩

/-- Recording a status clears no sticky bit (10_state.md R28). -/
theorem record_keeps_sticky (b : BlockStatus) (c : Status) :
    (b.fault = true → (b.record c).fault = true) ∧ (b.pf = true → (b.record c).pf = true) ∧
      (b.iof = true → (b.record c).iof = true) := by
  refine ⟨fun h => ?_, fun h => ?_, fun h => ?_⟩ <;> simp [BlockStatus.record, h]

/-- Settles O10: the status is the one the command reports, and `record` sets the bit of its class alone. -/
theorem everyCommandReportsOneStatus : Obligations.EveryCommandReportsOneStatus := by
  intro i s
  obtain ⟨c, v, z, u, hexec, hzero, hran⟩ := exec_ran i s
  obtain ⟨hfault, hpf, hiof⟩ := record_by_code s.S c
  rw [← hran.quiet.1] at hfault hpf hiof
  exact ⟨report c v z u, c, v, z, hexec, rfl, rfl, hran.quiet.1 ▸ hfault, hran.quiet.1 ▸ hpf, hran.quiet.1 ▸ hiof, hzero⟩

/-- Settles O15: what a command has done to the side it does not work on is part of `Ran`. -/
theorem noCommandTouchesBothSides : Obligations.NoCommandTouchesBothSides := by
  intro i s t hexec
  obtain ⟨c, v, z, u, hreport, -, hran⟩ := exec_ran i s
  obtain rfl : report c v z u = t := Host.Outcome.next.inj (hreport.symm.trans hexec)
  exact ⟨hran.otherW, hran.otherR, hran.port, hran.queue⟩

/-! ### A step -/

theorem step_of_no_command {s : State} (h : s.queue = []) : step s = .next s := by rw [step, h]

/-- A step on a command ends in one report: of a block-level check, with nothing done, or of a command that ran. -/
theorem step_reports {s : State} {c : Command} {rest : List Command} (hqueue : s.queue = c :: rest) :
    ∃ d v z u, step s = .next (report d v z u) ∧ (d ≠ .ok → v = 0 ∧ z = false) ∧
      (((d = .faulted ∨ d = .illegalCommand) ∧ u = accept c rest s) ∨ ∃ i, Ran i (accept c rest s) u d) := by
  rcases step_cases hqueue with ⟨-, hend⟩ | ⟨-, -, hend⟩ | ⟨i, -, -, hend⟩
  · exact ⟨.faulted, 0, false, accept c rest s, hend, fun _ => ⟨rfl, rfl⟩, .inl ⟨.inl rfl, rfl⟩⟩
  · rw [← report_precondition rfl] at hend
    exact ⟨.illegalCommand, 0, false, accept c rest s, hend, fun _ => ⟨rfl, rfl⟩, .inl ⟨.inr rfl, rfl⟩⟩
  · obtain ⟨d, v, z, u, hreport, hzero, hran⟩ := exec_ran i (accept c rest s)
    exact ⟨d, v, z, u, hend.trans hreport, hzero, .inr ⟨i, hran⟩⟩

/-- Settles O6: a step without a command keeps the state, and one on a command ends in a report. -/
theorem everyStepAnswersANextState : Obligations.EveryStepAnswersANextState := by
  refine ⟨fun s => ?_, fun s => step_of_no_command⟩
  cases hqueue : s.queue with
  | nil => exact ⟨s, step_of_no_command hqueue⟩
  | cons c rest =>
    obtain ⟨d, v, z, u, hstep, -⟩ := step_reports hqueue
    exact ⟨_, hstep⟩

/-- Settles O5: a word that decodes is the word of a well-formed command (O2). -/
theorem stepRunsTheDecodedCommand : Obligations.StepRunsTheDecodedCommand := by
  intro s c rest i hqueue hfault hdec
  exact ⟨(encodeOfDecodeIsTheWord c.cmd i hdec).1, step_of_decode_ok hqueue hfault hdec⟩

/-- What a step changes of the block status is one `record`. -/
theorem step_records {s t : State} (hstep : step s = .next t) : t = s ∨ ∃ d, t.S = s.S.record d := by
  cases hqueue : s.queue with
  | nil => exact .inl (Host.Outcome.next.inj ((step_of_no_command hqueue).symm.trans hstep)).symm
  | cons c rest =>
    obtain ⟨d, v, z, u, hreport, -, hend⟩ := step_reports hqueue
    obtain rfl : report d v z u = t := Host.Outcome.next.inj (hreport.symm.trans hstep)
    have hS : u.S = s.S := by
      rcases hend with ⟨-, rfl⟩ | ⟨i, hran⟩
      · rfl
      · exact hran.quiet.1
    exact .inr ⟨d, congrArg (·.record d) hS⟩

/-- Settles O9: `record` clears no sticky bit. -/
theorem resetIsFreshAndAloneClearsTheStickyBits : Obligations.ResetIsFreshAndAloneClearsTheStickyBits := by
  refine ⟨rfl, rfl, rfl, rfl, rfl, fun s t hstep => ?_⟩
  rcases step_records hstep with rfl | ⟨d, hS⟩
  · exact ⟨id, id, id⟩
  · rw [hS]
    exact record_keeps_sticky s.S d

/-! ### Failures -/

/-- A step that reports a status no block-level check reports has run a command. -/
theorem step_ran_of_statusIs {s t : State} {c : Command} {rest : List Command} {e : Status} (hqueue : s.queue = c :: rest)
    (hstep : step s = .next t) (hstatus : statusIs e t)
    (he : e ≠ .ok ∧ e ≠ .faulted ∧ e ≠ .illegalCommand) : ∃ i u, t = report e 0 false u ∧ Ran i (accept c rest s) u e := by
  obtain ⟨hok, hfaulted, hillegal⟩ := he
  obtain ⟨d, v, z, u, hreport, hzero, hend⟩ := step_reports hqueue
  obtain rfl : report d v z u = t := Host.Outcome.next.inj (hreport.symm.trans hstep)
  obtain rfl := eq_of_statusIs_report hstatus
  obtain ⟨rfl, rfl⟩ := hzero hok
  rcases hend with ⟨hblock, -⟩ | ⟨i, hran⟩
  · exact absurd hblock (not_or.2 ⟨hfaulted, hillegal⟩)
  · exact ⟨i, u, rfl, hran⟩

/-- Settles O12: the two statuses are those of checks, which come before any bit moves; MALFORMED_VLQ comes after whole units. -/
theorem modelFaultChangesNothingButBitsAlreadyRead : Obligations.ModelFaultChangesNothingButBitsAlreadyRead := by
  intro s t c rest hqueue hstep
  refine ⟨fun e he hstatus => ?_, fun hstatus => ?_⟩
  · obtain ⟨i, u, rfl, hran⟩ := step_ran_of_statusIs hqueue hstep hstatus (by rcases he with rfl | rfl <;> decide)
    obtain rfl := hran.check (by rcases he with rfl | rfl <;> decide)
    exact report_fault (by rcases he with rfl | rfl <;> rfl) _
  · obtain ⟨i, u, rfl, hran⟩ := step_ran_of_statusIs hqueue hstep hstatus (by decide)
    obtain ⟨m, hmin, hmax, hconsumed⟩ := hran.malformed rfl
    exact ⟨m, hmin, hmax, hconsumed.report .., report_endedFault (s := accept c rest s) rfl hran.quiet⟩

/-- Settles O13: the status is of the I/O class, whose commands have left their own side no longer open. -/
theorem ioFailureFailsOneSideAlone : Obligations.IoFailureFailsOneSideAlone := by
  intro s t c rest e hqueue hstep hstatus he
  have hcls : e.cls = .io := by rcases he with rfl | rfl <;> rfl
  obtain ⟨i, u, rfl, hran⟩ := step_ran_of_statusIs hqueue hstep hstatus (by rcases he with rfl | rfl <;> decide)
  exact ⟨report_endedIo (s := accept c rest s) hcls hran.quiet, hran.kept, hran.io hcls⟩

/-! ### The channels -/

theorem mem_map_fst_of_read {m : Memory} {a : Nat} {b : Byte} (h : Memory.read m a = some b) : a ∈ m.map Prod.fst := by
  induction m with
  | nil => simp [Memory.read] at h
  | cons e m ih =>
    rw [Memory.read] at h
    split at h
    next heq => simp [heq]
    next => exact List.mem_cons_of_mem _ (ih h)

/-- OUT holds the indices below W.k alone (10_state.md R26). -/
theorem WriterInv.lt_of_read {s : State} (hinv : WriterInv s) {a : Nat} {b : Byte} (h : Memory.read s.outp.bytes a = some b) :
    a < s.W.k := by
  obtain ⟨-, -, -, -, -, -, -, hindices, -⟩ := hinv
  have hmem := mem_map_fst_of_read h
  rw [hindices] at hmem
  exact List.mem_range.1 hmem

/-- A command that has run keeps the bytes of OUT and moves neither channel index back. -/
theorem channels_forward_of_ran {i : Instr} {s u : State} {d : Status} (hran : Ran i s u d) (hinv : WriterInv s) :
    (∀ a b, Memory.read s.outp.bytes a = some b → Memory.read u.outp.bytes a = some b) ∧
      s.W.k ≤ u.W.k ∧ s.R.k ≤ u.R.k ∧ u.inp.bytes = s.inp.bytes ∧ u.inp.fail = s.inp.fail :=
  ⟨fun a _ hread => (hran.kept a (hinv.lt_of_read hread)).trans hread, hran.windex, hran.rindex, hran.bytes, hran.fail⟩

/-- Settles O16: every byte of OUT has an index below W.k, and those bytes are kept. -/
theorem channelsOnlyMoveForward : Obligations.ChannelsOnlyMoveForward := by
  intro s t hinv hstep
  cases hqueue : s.queue with
  | nil =>
    obtain rfl := Host.Outcome.next.inj ((step_of_no_command hqueue).symm.trans hstep)
    exact ⟨fun _ _ h => h, le_refl _, le_refl _, rfl, rfl⟩
  | cons c rest =>
    obtain ⟨d, v, z, u, hreport, -, ⟨-, rfl⟩ | ⟨i, hran⟩⟩ := step_reports hqueue
    all_goals obtain rfl := Host.Outcome.next.inj (hreport.symm.trans hstep)
    · exact ⟨fun _ _ h => h, le_refl _, le_refl _, rfl, rfl⟩
    · have hforward := channels_forward_of_ran hran hinv
      exact hforward

/-! ### The invariant -/

/-- The report of a status makes the block status and the result port agree, where a side that is FAILED has been reported before or
is by this status. -/
theorem statusInv_report {d : Status} {v : Data} {z : Bool} {u : State} (hzero : d ≠ .ok → v = 0 ∧ z = false)
    (hfailed : u.W.st = .failed ∨ u.R.st = .failed → d.cls = .io ∨ u.S.iof = true) : StatusInv (report d v z u) := by
  refine ⟨rfl, fun hside => ?_, fun hcode => ?_, fun hlast => ?_⟩
  · rcases hfailed hside with hio | hiof
    · simp [BlockStatus.record, hio]
    · exact (record_keeps_sticky u.S d).2.2 hiof
  · have hfault := (record_by_code u.S d).1
    have hcode' : decide (32 ≤ d.code.toNat) = true := decide_eq_true hcode
    rwa [hcode', Bool.or_true] at hfault
  · obtain ⟨rfl, rfl⟩ := hzero (by rintro rfl; exact hlast rfl)
    exact ⟨rfl, rfl⟩

/-- A command that has run keeps the invariant once it has reported. -/
theorem inv_report_of_ran {i : Instr} {s u : State} {d : Status} {v : Data} {z : Bool} (hran : Ran i s u d)
    (hzero : d ≠ .ok → v = 0 ∧ z = false) (hinv : Inv s) : Inv (report d v z u) := by
  obtain ⟨hwriter, hreader, -, hiof, -⟩ := hinv
  refine ⟨hran.winv hwriter, hran.rinv hreader, statusInv_report hzero fun hside => ?_⟩
  refine (hran.failed hside).imp_right fun hbefore => ?_
  rw [hran.quiet.1]
  exact hiof hbefore

/-- Settles O17: a block-level check moves no cursor, and what a command does to each side keeps that side's invariant. -/
theorem stepKeepsTheInvariant : Obligations.StepKeepsTheInvariant := by
  intro s t hinv hstep
  cases hqueue : s.queue with
  | nil =>
    obtain rfl := Host.Outcome.next.inj ((step_of_no_command hqueue).symm.trans hstep)
    exact hinv
  | cons c rest =>
    obtain ⟨d, v, z, u, hreport, hzero, ⟨-, rfl⟩ | ⟨i, hran⟩⟩ := step_reports hqueue
    all_goals obtain rfl := Host.Outcome.next.inj (hreport.symm.trans hstep)
    · obtain ⟨hwriter, hreader, -, hiof, -⟩ := hinv
      exact ⟨hwriter, hreader, statusInv_report hzero fun hside => .inr (hiof hside)⟩
    · exact inv_report_of_ran hran hzero hinv

/-- Settles O18: both cursors stand at 0, and neither channel holds or has closed anything. -/
theorem resetMeetsTheInvariant : Obligations.ResetMeetsTheInvariant := by
  unfold Obligations.ResetMeetsTheInvariant
  decide

/-! ### Byte counts -/

/-- RESETW writes the position and the alignment point, and nothing else of the cursor. -/
theorem resetw_keeps_index {s t : State} (hexec : exec .resetw s = .next t) : t.W.k = s.W.k := by
  obtain ⟨⟨hclosed, hfailed⟩, hpending, hnone⟩ := resetwClearsThePositions s
  have hcases : ∃ u, exec .resetw s = .next u ∧ u.W.k = s.W.k := by
    cases hst : s.W.st with
    | closed => exact ⟨_, hclosed hst, rfl⟩
    | failed => exact ⟨_, hfailed hst, rfl⟩
    | opened =>
      by_cases hn : s.W.n = 0
      · exact ⟨_, hnone hst hn, rfl⟩
      · exact ⟨_, hpending hst hn, rfl⟩
  obtain ⟨u, hu, hk⟩ := hcases
  obtain rfl := Host.Outcome.next.inj (hu.symm.trans hexec)
  exact hk

/-- The stream and the position of an open side differ by whole bytes, so the bytes handed over are counted by either. -/
theorem bytes_of_countsAgree {s u : State} (hcount : CountsAgree s u) (hs : WriterInv s) (hu : WriterInv u) :
    ∃ t, u.W.pos = s.W.pos + t ∧ u.W.k = s.W.k + ((s.W.pos + t) / 8 - s.W.pos / 8) := by
  rcases hcount with ⟨hopen, hopen', t, hpos, hlen⟩ | ⟨hpos, hk⟩
  · obtain ⟨-, -, hn, hle, hbytes, -⟩ := hs
    obtain ⟨-, -, hn', -⟩ := hu
    have hn := hn hopen
    have hn' := hn' hopen'
    refine ⟨t, hpos, ?_⟩
    simp only [outLen] at *
    omega
  · exact ⟨0, hpos, by rw [hk]; omega⟩

/-- Settles O20: the cursors agree with their positions before and after the command. -/
theorem byteCountsFollowThePositions : Obligations.ByteCountsFollowThePositions := by
  intro i s t hexec hok
  obtain ⟨d, v, z, u, hreport, -, hran⟩ := exec_ran i s
  obtain rfl : report d v z u = t := Host.Outcome.next.inj (hreport.symm.trans hexec)
  obtain rfl := eq_of_statusIs_report hok
  refine ⟨fun hinv hne => ?_, fun hreset => ?_, fun hinv => ?_⟩
  · exact bytes_of_countsAgree (hran.wcount rfl hne) hinv (hran.winv hinv)
  · subst hreset
    exact resetw_keeps_index hexec
  · obtain ⟨-, -, hk', -⟩ := hran.rinv hinv
    obtain ⟨-, -, hk, -⟩ := hinv
    have hforward := hran.rforward
    refine ⟨u.R.pos - s.R.pos, ?_, ?_⟩ <;> simp only [report_R] <;> omega

end Sys2Proof.Machine

/-! PROOFS. The two streams and the positions on them (00_scope.md section 4; 41_bit_cursor.md section 4). A command that ends with
status OK has passed its checks and its channel has not failed; the first lemmas draw these conclusions from the status. -/

namespace Sys2Proof.Machine

/-! ### What status OK excludes -/

section EndedOk

variable {i : Instr} {s t : State}

theorem EndedOk.statusIs_ok {v : Data} {z : Bool} (h : EndedOk v z s t) : statusIs .ok t := ⟨_, h.1, rfl⟩

/-- The answer of a command that ended OK is the one on the result port. -/
theorem EndedOk.answer_unique {v w : Data} {y z : Bool} {r : State} (h : EndedOk v z s t) (g : EndedOk w y r t) : v = w ∧ z = y := by
  have hresult := h.1.symm.trans g.1
  simp only [Option.some.injEq, Result.mk.injEq, and_true] at hresult
  exact hresult

theorem not_ok_of_status {c : Status} {v : Data} {z : Bool} (hresult : t.result = some ⟨v, z, c.code⟩) (hc : c ≠ .ok) :
    ¬ statusIs .ok t := by
  rintro ⟨r, hr, hcode⟩
  obtain rfl := Option.some.inj (hresult.symm.trans hr)
  exact hc (Status.code_injective hcode)

theorem EndedIo.not_ok {c : Status} (h : EndedIo c s t) (hc : c.cls = .io) : ¬ statusIs .ok t :=
  not_ok_of_status h.1 (by rintro rfl; simp [Status.cls] at hc)

theorem exec_not_preconditionFailed (hexec : exec i s = .next t) (hok : statusIs .ok t) {c : Status} (hc : c ≠ .ok) :
    exec i s ≠ .next (preconditionFailed c s) := fun h => by
  obtain rfl := Host.Outcome.next.inj (hexec.symm.trans h)
  exact not_ok_of_status rfl hc hok

theorem exec_not_modelFault (hexec : exec i s = .next t) (hok : statusIs .ok t) {c : Status} (hc : c ≠ .ok) :
    exec i s ≠ .next (modelFault c s) := fun h => by
  obtain rfl := Host.Outcome.next.inj (hexec.symm.trans h)
  exact not_ok_of_status rfl hc hok

/-- A guarded command ends OK on an open side alone (41_bit_cursor.md R102). -/
theorem GuardedW.opened_of_ok (h : GuardedW i s) (hexec : exec i s = .next t) (hok : statusIs .ok t) : s.W.st = .opened := by
  obtain ⟨hclosed, hfailed⟩ := h
  cases hst : s.W.st with
  | opened => rfl
  | closed => exact absurd (hclosed hst) (exec_not_preconditionFailed hexec hok (by decide))
  | failed => exact absurd (hfailed hst) (exec_not_modelFault hexec hok (by decide))

theorem GuardedR.opened_of_ok (h : GuardedR i s) (hexec : exec i s = .next t) (hok : statusIs .ok t) : ReaderReady s := by
  obtain ⟨hclosed, hfailed⟩ := h
  cases hst : s.R.st with
  | opened => exact hst
  | closed => exact absurd (hclosed hst) (exec_not_preconditionFailed hexec hok (by decide))
  | failed => exact absurd (hfailed hst) (exec_not_modelFault hexec hok (by decide))

/-- A write that ends OK has appended all of its bits. -/
theorem Writes.appended_of_ok {v n : Nat} (h : Writes i v n s) (hexec : exec i s = .next t) (hok : statusIs .ok t) :
    Appended v n s t := by
  rcases accepts_or_refuses s n with haccepts | ⟨a, hrefused⟩
  · obtain ⟨u, hu, happended, -⟩ := h.1 haccepts
    obtain rfl := Host.Outcome.next.inj (hu.symm.trans hexec)
    exact happended
  · obtain ⟨u, hu, -, hio⟩ := h.2 a hrefused
    obtain rfl := Host.Outcome.next.inj (hu.symm.trans hexec)
    exact absurd hok (hio.not_ok rfl)

/-- A read that ends OK has answered f of the number its bits spell. -/
theorem Reads.answer_of_ok {skip n : Nat} {f : Nat → Data} {v : Data} (h : Reads i skip n f s) (hexec : exec i s = .next t)
    (hok : EndedOk v false s t) : v = f (inNumber s skip n) := by
  rcases supplies_or_misses s (skip + n) with hsupplies | ⟨a, hmissing⟩
  · obtain ⟨u, hu, -, hended⟩ := h.1 hsupplies
    obtain rfl := Host.Outcome.next.inj (hu.symm.trans hexec)
    exact (hok.answer_unique hended).1
  · obtain ⟨u, hu, -, hio⟩ := h.2 a hmissing
    obtain rfl := Host.Outcome.next.inj (hu.symm.trans hexec)
    exact absurd hok.statusIs_ok (hio.not_ok (missingStatus_cls ..))

end EndedOk

/-! ### Stream bits and channel bytes -/

/-- The unread bits are the channel's, from the position on: the held ones are the low bits of the last byte taken. -/
theorem ReaderInv.inBit_eq {s : State} (hinv : ReaderInv s) (i : Nat) : inBit s i = channelBit s.inp (s.R.pos + i) := by
  obtain ⟨-, hn, hk, -, -, hheld, -⟩ := hinv
  rcases Nat.lt_or_ge i s.R.n with hlt | hge
  · obtain ⟨b, hbyte, hhold⟩ := (heldAgrees_iff.1 hheld).resolve_left (by omega)
    have hindex : (s.R.pos + i) / 8 = s.R.k - 1 := by omega
    have hplace : 7 - (s.R.pos + i) % 8 = s.R.n - 1 - i := by omega
    rw [inBit_held hlt, channelBit_byte (hindex ▸ hbyte), byteBit, hplace, hhold, Nat.testBit_mod_two_pow]
    simp
    omega
  · rw [inBit_channel hge]
    congr 1
    omega

theorem exists_read_of_mem {m : Memory} {a : Nat} (h : a ∈ m.map Prod.fst) : ∃ b, Memory.read m a = some b := by
  induction m with
  | nil => simp at h
  | cons e m ih =>
    rw [Memory.read]
    split
    next => exact ⟨_, rfl⟩
    next hne =>
      rw [List.map_cons, List.mem_cons] at h
      exact ih (h.resolve_left hne)

/-- Every index below W.k is in OUT (10_state.md R26). -/
theorem WriterInv.exists_read {s : State} (hinv : WriterInv s) {a : Nat} (h : a < s.W.k) :
    ∃ b, Memory.read s.outp.bytes a = some b := by
  obtain ⟨-, -, -, -, -, -, -, hindices, -⟩ := hinv
  exact exists_read_of_mem (by rw [hindices]; exact List.mem_range.2 h)

theorem WriterInv.ready_of_opened {s : State} (hinv : WriterInv s) (hopen : s.W.st = .opened) : WriterReady s := by
  obtain ⟨-, -, hn, -⟩ := hinv
  exact ⟨hopen, hn hopen⟩

/-- A command keeps the invariant of the output side. -/
theorem WriterInv.of_exec {i : Instr} {s t : State} (hinv : WriterInv s) (hexec : exec i s = .next t) : WriterInv t := by
  obtain ⟨c, v, z, u, hreport, -, hran⟩ := exec_ran i s
  obtain rfl : report c v z u = t := Host.Outcome.next.inj (hreport.symm.trans hexec)
  exact hran.winv hinv

/-- RDBITS answers the channel bits from the position on. -/
theorem rdbits_answers_channelBits {sz i : Nat} {s t : State} {v : Data} (h1 : 1 ≤ sz) (h64 : sz ≤ 64) (hinv : ReaderInv s)
    (hexec : exec (.rdbits sz) s = .next t) (hok : EndedOk v false s t) (hi : i < sz) :
    v.getLsbD (sz - 1 - i) = channelBit s.inp (s.R.pos + i) := by
  obtain ⟨hguard, -, hreads⟩ := rdbitsReadsRawBits sz s
  have hready := hguard.opened_of_ok hexec hok.statusIs_ok
  have hbit := inNumber_testBit s 0 sz i hi
  rw [(hreads hready h1 h64).answer_of_ok hexec hok, ← hinv.inBit_eq, ← Nat.zero_add i, ← hbit, BitVec.getLsbD_ofNat]
  simp
  omega

/-- WRBITS puts its bits into the bytes that are handed over. -/
theorem wrbits_puts_channelBits {sz i : Nat} {s t : State} (h1 : 1 ≤ sz) (h64 : sz ≤ 64) (hinv : WriterInv s)
    (hexec : exec (.wrbits sz) s = .next t) (hok : statusIs .ok t) (hi : i < sz) (hdone : outLen s + i < 8 * t.W.k) :
    ∃ b, Memory.read t.outp.bytes ((outLen s + i) / 8) = some b ∧
      b.getLsbD (7 - (outLen s + i) % 8) = s.port.din.getLsbD (sz - 1 - i) := by
  obtain ⟨hguard, -, hwrites⟩ := wrbitsWritesTheLowBits sz s
  have hopen := hguard.opened_of_ok hexec hok
  have hready := hinv.ready_of_opened hopen
  obtain ⟨-, -, -, -, -, hbits, -⟩ := (hwrites hready h1 h64).appended_of_ok hexec hok
  obtain ⟨b, hb⟩ := (hinv.of_exec hexec).exists_read (a := (outLen s + i) / 8) (by omega)
  have hbit := hbits i hi
  rw [outBit_byte hdone, hb, Option.getD_some] at hbit
  exact ⟨b, hb, hbit⟩

/-- Settles O19: what RDBITS reads are the unread bits, which are the channel's; what WRBITS puts on the stream are the bits of the
bytes in OUT, as far as those are complete. -/
theorem fieldsLieOnTheStreamMsbFirst : Obligations.FieldsLieOnTheStreamMsbFirst := by
  intro sz s t h1 h64
  refine ⟨fun hinv hexec v hok i hi => rdbits_answers_channelBits h1 h64 hinv hexec hok hi, ?_⟩
  rintro hinv hexec hok i hi j rfl hdone
  exact wrbits_puts_channelBits h1 h64 hinv hexec hok.statusIs_ok hi hdone

/-! ### Aligns at the same place -/

/-- A check that a command which ends OK has passed. -/
theorem exec_of_require_ok {i : Instr} {s t : State} {p : Bool} {c : Status} {f : Unit → State → Res Reply}
    (e : exec i s = complete ((require p c s).andThen f)) (hexec : exec i s = .next t) (hok : statusIs .ok t) (hc : c ≠ .ok) :
    exec i s = complete (f () s) := by
  rcases require_cases p c s with ⟨hp, -⟩ | ⟨-, hstop⟩
  · exact exec_of_require e hp
  · rw [hstop, Res.stop_andThen, complete_stop, hexec] at e
    obtain rfl := Host.Outcome.next.inj e
    exact absurd hok (not_ok_of_status rfl hc)

/-- An ALIGNW that ends OK answers its pad, and stands at the alignment point it has moved. -/
theorem alignw_of_ok {s t : State} {pad : Nat} (hpad : padTo (dinSigned 32 s).toNat s.W.pos s.W.base = pad)
    (hexec : exec .alignw s = .next t) (hok : statusIs .ok t) :
    t.result = some ⟨dout pad, false, 0⟩ ∧ t.W.pos = s.W.pos + pad ∧ t.W.base = s.W.pos + pad := by
  have hopen := GuardedW.opened_of_ok (guardedW_of rfl) hexec hok
  have hput := exec_of_require_ok (exec_alignw_opened hopen) hexec hok (by decide)
  rw [hpad, hexec] at hput
  have hmoves := putBits_moves 0 pad s
  cases hres : putBits 0 pad s with
  | ok _ u =>
    rw [hres] at hput hmoves
    obtain ⟨-, -, hpos, -⟩ := hmoves
    obtain rfl := Host.Outcome.next.inj hput
    exact ⟨rfl, hpos, hpos⟩
  | stop c u =>
    rw [hres] at hput hmoves
    obtain ⟨rfl, -⟩ := hmoves
    obtain rfl := Host.Outcome.next.inj hput
    exact absurd hok (not_ok_of_status rfl (by decide))

/-- An ALIGNR that ends OK answers its pad, and stands at the alignment point it has moved. -/
theorem alignr_of_ok {s t : State} {pad : Nat} (hpad : padTo (dinSigned 32 s).toNat s.R.pos s.R.base = pad)
    (hexec : exec .alignr s = .next t) (hok : statusIs .ok t) :
    t.result = some ⟨dout pad, false, 0⟩ ∧ t.R.pos = s.R.pos + pad ∧ t.R.base = s.R.pos + pad := by
  have hopen := GuardedR.opened_of_ok (guardedR_of rfl) hexec hok
  have hget := exec_of_require_ok (exec_alignr_ready hopen) hexec hok (by decide)
  rw [hpad, hexec] at hget
  have hmoves := getBits_moves pad s
  cases hres : getBits pad s with
  | ok _ u =>
    rw [hres] at hget hmoves
    obtain ⟨-, -, hpos, -⟩ := hmoves
    obtain rfl := Host.Outcome.next.inj hget
    exact ⟨rfl, hpos, hpos⟩
  | stop c u =>
    rw [hres] at hget hmoves
    obtain ⟨hc, -⟩ := hmoves
    obtain rfl := Host.Outcome.next.inj hget
    exact absurd hok (not_ok_of_status rfl (by rcases hc with rfl | rfl <;> decide))

/-- Settles O31: the pad depends on DIN, the position and the alignment point alone. -/
theorem alignResultsAgree : Obligations.AlignResultsAgree := by
  intro s t r u hpos hbase hdin hw hr htok huok
  have hpad : padTo (dinSigned 32 r).toNat r.R.pos r.R.base = padTo (dinSigned 32 s).toNat s.W.pos s.W.base := by
    rw [hpos, hbase, dinSigned_eq, dinSigned_eq, dinInt, dinInt, hdin]
  obtain ⟨htresult, htpos, htbase⟩ := alignw_of_ok rfl hw htok
  obtain ⟨huresult, hupos, hubase⟩ := alignr_of_ok hpad hr huok
  rw [← hpos] at hupos hubase
  exact ⟨htresult.trans huresult.symm, htpos.trans hupos.symm, htbase.trans hubase.symm⟩

/-! ### Matching commands -/

/-- The outcome r of an output command started in s has moved the position by t bits and no alignment point, where it ended OK. -/
def OkMovesW (t : Nat) (s : State) (r : Res Reply) : Prop :=
  match r with
  | .ok _ u => u.W.pos = s.W.pos + t ∧ u.W.base = s.W.base
  | .stop c _ => c ≠ .ok

/-- The same of an input command, whose payload is of t bits with a presence bit; a null is one bit. -/
def OkMovesR (t : Nat) (s : State) (r : Res Reply) : Prop :=
  match r with
  | .ok (.value _) u => u.R.pos = s.R.pos + t ∧ u.R.base = s.R.base
  | .ok .null u => u.R.pos = s.R.pos + 1 ∧ u.R.base = s.R.base
  | .stop c _ => c ≠ .ok

section Moves

variable {t : Nat} {s : State} {v : Data}

theorem OkMovesW.ofCheckW {f : Unit → State → Res Reply} (h : OkMovesW t s (f () s)) : OkMovesW t s ((checkW s).andThen f) := by
  cases hst : s.W.st with
  | opened => rwa [checkW_opened hst]
  | closed => rw [checkW_closed hst]; exact Status.noConfusion
  | failed => rw [checkW_failed hst]; exact Status.noConfusion

theorem OkMovesR.ofCheckR {f : Unit → State → Res Reply} (h : OkMovesR t s (f () s)) : OkMovesR t s ((checkR s).andThen f) := by
  cases hst : s.R.st with
  | opened => rwa [checkR_opened hst]
  | closed => rw [checkR_closed hst]; exact Status.noConfusion
  | failed => rw [checkR_failed hst]; exact Status.noConfusion

theorem OkMovesW.ofRequire {p : Bool} {c : Status} {f : Unit → State → Res Reply} (hc : c ≠ .ok) (h : OkMovesW t s (f () s)) :
    OkMovesW t s ((require p c s).andThen f) := by
  cases p with
  | true => exact h
  | false => exact hc

theorem OkMovesR.ofRequire {p : Bool} {c : Status} {f : Unit → State → Res Reply} (hc : c ≠ .ok) (h : OkMovesR t s (f () s)) :
    OkMovesR t s ((require p c s).andThen f) := by
  cases p with
  | true => exact h
  | false => exact hc

theorem OkMovesW.ofWRes {r : Res Unit} (h : WRes t s r) : OkMovesW t s (r.andThen fun _ s => done v s) := by
  cases r with
  | ok _ u =>
    obtain ⟨-, -, hpos, hbase, -⟩ := h
    exact ⟨hpos, hbase⟩
  | stop c u =>
    obtain ⟨rfl, -⟩ := h
    exact Status.noConfusion

theorem OkMovesR.ofRRes {α : Type} {r : Res α} (h : RRes t s r) (g : α → Data) :
    OkMovesR t s (r.andThen fun a s => done (g a) s) := by
  cases r with
  | ok _ u =>
    obtain ⟨-, -, hpos, hbase⟩ := h
    exact ⟨hpos, hbase⟩
  | stop c u =>
    obtain ⟨rfl | rfl, -⟩ := h <;> exact Status.noConfusion

/-- A Nullable write is one bit for a null, and else the payload, after a presence bit where the command is nullable. -/
theorem OkMovesW.ofNullableWrite {α : Type} {nl : Bool} {check : Option α} {put : α → State → Res Unit}
    (h : ∀ f s₁, WRes t s₁ (put f s₁)) :
    OkMovesW (bif nl && !s.port.present then 1 else nl.toNat + t) s ((nullableWrite nl check put s).andThen fun _ s => done v s) := by
  cases hnull : nl && !s.port.present with
  | true =>
    obtain ⟨rfl, hp⟩ : nl = true ∧ s.port.present = false := by simpa using hnull
    rw [nullableWrite_null check put hp]
    exact .ofWRes (putBits_moves 0 1 s)
  | false =>
    have hp : nl = false ∨ s.port.present = true := by cases nl <;> simp_all
    cases check with
    | none => rw [nullableWrite_none put hp]; exact Status.noConfusion
    | some f =>
      cases nl with
      | false => rw [nullableWrite_plain, Bool.toNat_false, Nat.zero_add]; exact .ofWRes (h f s)
      | true =>
        rw [nullableWrite_present f put (by simpa using hp)]
        exact .ofWRes ((putBits_moves 1 1 s).andThen (h f))

theorem OkMovesR.ofNullableRead {nl : Bool} {get : State → Res Nat} (h : ∀ s₁, RRes t s₁ (get s₁)) :
    OkMovesR (nl.toNat + t) s (nullableRead nl get s) := by
  cases nl with
  | false => rw [Bool.toNat_false, Nat.zero_add]; exact .ofRRes (h s) dout
  | true =>
    have hbit := getBits_moves 1 s
    show OkMovesR (1 + t) s ((getBits 1 s).andThen _)
    cases hres : getBits 1 s with
    | stop c u =>
      rw [hres] at hbit
      obtain ⟨rfl | rfl, -⟩ := hbit <;> exact Status.noConfusion
    | ok p u =>
      rw [hres] at hbit
      rw [Res.ok_andThen]
      split
      · obtain ⟨-, -, hpos, hbase⟩ := hbit
        exact ⟨hpos, hbase⟩
      · have hboth := RRes.andThen (r := .ok p u) (f := fun _ s => get s) hbit fun _ s₁ => h s₁
        exact .ofRRes hboth dout

end Moves

/-- An output command that ended OK has moved the position by the bits of its outcome. -/
theorem OkMovesW.of_ended {n : Nat} {s t : State} {wr : Res Reply} (h : OkMovesW n s wr) (e : complete wr = .next t)
    (hok : statusIs .ok t) : t.W.pos = s.W.pos + n ∧ t.W.base = s.W.base := by
  rcases complete_cases wr with ⟨v, u, rfl, e'⟩ | ⟨u, rfl, e'⟩ | ⟨c, u, rfl, e'⟩ <;>
    obtain rfl := Host.Outcome.next.inj (e'.symm.trans e)
  · exact h
  · exact h
  · exact absurd (eq_of_statusIs_report hok) h

/-- The same of an input command: ISNULL says whether a null was read. -/
theorem OkMovesR.of_ended {n : Nat} {r u : State} {rr : Res Reply} {v : Data} {z : Bool} (h : OkMovesR n r rr)
    (e : complete rr = .next u) (hok : EndedOk v z r u) :
    u.R.pos = r.R.pos + (bif z then 1 else n) ∧ u.R.base = r.R.base := by
  rcases complete_cases rr with ⟨v', u', rfl, e'⟩ | ⟨u', rfl, e'⟩ | ⟨c, u', rfl, e'⟩ <;>
    obtain rfl := Host.Outcome.next.inj (e'.symm.trans e)
  · obtain ⟨-, rfl⟩ := hok.answer_unique (report_endedOk v' false (Quiet.refl u'))
    exact h
  · obtain ⟨-, rfl⟩ := hok.answer_unique (report_endedOk 0 true (Quiet.refl u'))
    exact h
  · exact absurd (eq_of_statusIs_report hok.statusIs_ok) h

/-- The sign, unless it is left out, and the significand bits are as many in a read as in a write (`putSignSig_moves`). -/
theorem getSignSig_moves (fmt : Fmt) (ef : Nat) (so : Bool) (w : Nat) (s : State) :
    RRes (if so then w else 1 + w) s ((getSign so s).andThen fun sg s => (getBits w s).andThen fun t s =>
      .ok (assemble fmt sg ef (t * 2 ^ (fmt.sigBits - w))) s) := by
  have hmoves := (getSign_moves so s).andThen fun sg s₁ =>
    (getBits_moves w s₁).map fun t => assemble fmt sg ef (t * 2 ^ (fmt.sigBits - w))
  cases so with
  | true => rwa [if_pos rfl, Nat.zero_add] at hmoves
  | false => exact hmoves

/-- The write i from s and the read j from r move by one number n of bits where they end OK, but for a null. -/
def MoveAlike (i j : Instr) (s r : State) : Prop :=
  ∃ n wr rr, exec i s = complete wr ∧ OkMovesW (bif writesNull i s then 1 else n) s wr ∧ exec j r = complete rr ∧ OkMovesR n r rr

/-- A write and its counterpart are made of the same parts. -/
theorem moveAlike_of_counterpart {i j : Instr} {s r : State} (h : counterpart i = some j) (hdin : s.port.din = r.port.din) :
    MoveAlike i j s r := by
  cases i
  case skipw =>
    obtain rfl := Option.some.inj h
    have hcount : dinSigned 32 r = dinSigned 32 s := by rw [dinSigned_eq, dinSigned_eq, dinInt, dinInt, hdin]
    refine ⟨(dinSigned 32 s).toNat, _, _, rfl, .ofCheckW (.ofRequire (by decide) (.ofWRes (putBits_moves ..))), rfl,
      .ofCheckR (.ofRequire (by decide) ?_)⟩
    rw [← hcount]
    exact .ofRRes (getBits_moves ..) fun _ => 0
  case wrbits sz =>
    obtain rfl := Option.some.inj h
    exact ⟨sz, _, _, rfl, .ofCheckW (.ofRequire (by decide) (.ofWRes (putBits_moves ..))), rfl,
      .ofCheckR (.ofRequire (by decide) (.ofRRes (getBits_moves ..) dout))⟩
  case wrint u sz | wrlong u sz | wrbyte u sz | wrshort u sz =>
    obtain rfl := Option.some.inj h
    exact ⟨sz, _, _, rfl, .ofCheckW (.ofRequire (by decide) (.ofRequire (by decide) (.ofWRes (putBits_moves ..)))), rfl,
      .ofCheckR (.ofRequire (by decide) (.ofRRes ((getBits_moves ..).map _) (doutSigned _)))⟩
  case wrchar sz =>
    obtain rfl := Option.some.inj h
    exact ⟨sz, _, _, rfl, .ofCheckW (.ofRequire (by decide) (.ofRequire (by decide) (.ofWRes (putBits_moves ..)))), rfl,
      .ofCheckR (.ofRequire (by decide) (.ofRRes (getBits_moves ..) dout))⟩
  case wrbool | wrbyte8 | wrshort16 | wrint32 | wrlong64 | wrchar16 =>
    obtain rfl := Option.some.inj h
    exact ⟨_, _, _, rfl, .ofCheckW (.ofWRes (putBits_moves ..)), rfl, .ofCheckR (.ofRRes (getBits_moves ..) dout)⟩
  case wrfloat nl sz ex | wrdouble nl sz ex =>
    obtain rfl := Option.some.inj h
    exact ⟨_, _, _, rfl, .ofCheckW (.ofRequire (by decide) (.ofNullableWrite (fPut_moves ex sz))), rfl,
      .ofCheckR (.ofRequire (by decide) (.ofNullableRead (fDec_moves _ ex sz)))⟩
  case wrzerof nl | wrzerod nl | wrinff nl | wrinfd nl =>
    obtain rfl := Option.some.inj h
    exact ⟨_, _, _, rfl, .ofCheckW (.ofNullableWrite fun sg => putBits_moves sg 1), rfl,
      .ofCheckR (.ofNullableRead fun s₁ => (getBits_moves 1 s₁).map _)⟩
  case wrsubf nl w | wrsubd nl w =>
    obtain rfl := Option.some.inj h
    exact ⟨_, _, _, rfl, .ofCheckW (.ofRequire (by decide) (.ofNullableWrite (putSignSig_moves false w))), rfl,
      .ofCheckR (.ofRequire (by decide) (.ofNullableRead (getSignSig_moves _ _ false w)))⟩
  case wrnanf nl so w | wrnand nl so w =>
    obtain rfl := Option.some.inj h
    exact ⟨_, _, _, rfl, .ofCheckW (.ofRequire (by decide) (.ofNullableWrite (putSignSig_moves so w))), rfl,
      .ofCheckR (.ofRequire (by decide) (.ofNullableRead (getSignSig_moves _ _ so w)))⟩
  all_goals simp [counterpart] at h

/-- Settles O32: the two commands are made of procedures that move by the same number of bits. -/
theorem matchingCommandsMoveEquallyManyBits : Obligations.MatchingCommandsMoveEquallyManyBits := by
  intro i j s t r u v z hcounterpart hdin hw hwok hr hrok hz
  obtain ⟨n, wr, rr, ew, hmovesW, er, hmovesR⟩ := moveAlike_of_counterpart (r := r) hcounterpart hdin
  obtain ⟨hpos, hbase⟩ := hmovesW.of_ended (ew.symm.trans hw) hwok.statusIs_ok
  obtain ⟨hpos', hbase'⟩ := hmovesR.of_ended (er.symm.trans hr) hrok
  refine ⟨?_, hbase, hbase'⟩
  rw [hz] at hpos'
  omega

end Sys2Proof.Machine

/-! PROOFS. Stored float fields and the patterns they rebuild (43_float_codec.md sections 1 and 4). Both are assembled from a sign, an
exponent field and a significand field, so the one thing to settle is the exponent field: re-biasing keeps it between the two
reserved values, in both directions. -/

namespace Sys2Proof.Machine

/-- The native exponent field that a stored one stands for (43_float_codec.md R173). -/
def rebuiltExp (fmt : Fmt) (e fe : Nat) : Nat :=
  if fe = 0 then 0 else if fe = ones e then ones fmt.expBits else fe + fmt.bias - biasOf e

theorem fDecFields_eq (fmt : Fmt) (e sz : Nat) (f : Stored) :
    fDecFields fmt e sz f = assemble fmt f.sg (rebuiltExp fmt e f.fe) (f.t * 2 ^ (fmt.sigBits - sz)) := rfl

@[simp] theorem rebuiltExp_zero (fmt : Fmt) (e : Nat) : rebuiltExp fmt e 0 = 0 := if_pos rfl

theorem ones_ne_zero {e : Nat} (he : 1 ≤ e) : ones e ≠ 0 := by
  have hpow := Nat.one_lt_two_pow (n := e) (by omega)
  rw [ones]
  omega

theorem rebuiltExp_ones (fmt : Fmt) {e : Nat} (he : 1 ≤ e) : rebuiltExp fmt e (ones e) = ones fmt.expBits := by
  rw [rebuiltExp, if_neg (ones_ne_zero he), if_pos rfl]

theorem rebuiltExp_between (fmt : Fmt) {e fe : Nat} (hzero : fe ≠ 0) (hones : fe ≠ ones e) :
    rebuiltExp fmt e fe = fe + fmt.bias - biasOf e := by
  rw [rebuiltExp, if_neg hzero, if_neg hones]

/-- All ones is twice the bias and one more. -/
theorem ones_eq_bias {e : Nat} (he : 1 ≤ e) : ones e = 2 * biasOf e + 1 := by
  have hpos := Nat.two_pow_pos (e - 1)
  rw [ones, biasOf, ← Nat.sub_add_cancel he, Nat.pow_succ, Nat.add_sub_cancel]
  omega

theorem Fmt.bias_eq (fmt : Fmt) : fmt.bias = biasOf fmt.expBits := by cases fmt <;> rfl

theorem Fmt.expBits_pos (fmt : Fmt) : 1 ≤ fmt.expBits := by cases fmt <;> decide

theorem biasOf_le_bias {fmt : Fmt} {e : Nat} (he : e ≤ fmt.expBits) : biasOf e ≤ fmt.bias := by
  rw [fmt.bias_eq]
  exact Nat.sub_le_sub_right (Nat.pow_le_pow_right (by omega) (by omega)) 1

/-- Re-biasing keeps a stored exponent field that is not reserved from the reserved ones of the format. -/
theorem rebuiltExp_not_reserved {fmt : Fmt} {e fe : Nat} (he : 1 ≤ e) (he' : e ≤ fmt.expBits) (hfe : fe < 2 ^ e) (hzero : fe ≠ 0)
    (hones : fe ≠ ones e) : rebuiltExp fmt e fe + biasOf e = fe + fmt.bias ∧ 1 ≤ rebuiltExp fmt e fe ∧
      rebuiltExp fmt e fe < ones fmt.expBits := by
  have hbias := biasOf_le_bias he'
  have hstored := ones_eq_bias he
  have hnative := ones_eq_bias fmt.expBits_pos
  rw [← fmt.bias_eq] at hnative
  have hmax : fe ≤ ones e := Nat.le_sub_one_of_lt hfe
  rw [rebuiltExp_between fmt hzero hones]
  omega

theorem rebuiltExp_lt {fmt : Fmt} {e fe : Nat} (he : 1 ≤ e) (he' : e ≤ fmt.expBits) (hfe : fe < 2 ^ e) :
    rebuiltExp fmt e fe < 2 ^ fmt.expBits := by
  have hlt : ones fmt.expBits < 2 ^ fmt.expBits := Nat.sub_one_lt (Nat.two_pow_pos _).ne'
  by_cases hzero : fe = 0
  · rw [hzero, rebuiltExp_zero]
    exact Nat.two_pow_pos _
  · by_cases hones : fe = ones e
    · rwa [hones, rebuiltExp_ones fmt he]
    · exact (rebuiltExp_not_reserved he he' hfe hzero hones).2.2.trans hlt

/-- The fields of a rebuilt pattern. -/
theorem fields_fDecFields {fmt : Fmt} {e sz : Nat} {f : Stored} (he : 1 ≤ e) (he' : e ≤ fmt.expBits) (hsz : sz ≤ fmt.sigBits)
    (hsg : f.sg < 2) (hfe : f.fe < 2 ^ e) (ht : f.t < 2 ^ sz) :
    signOf fmt (fDecFields fmt e sz f) = f.sg ∧ expOf fmt (fDecFields fmt e sz f) = rebuiltExp fmt e f.fe ∧
      sigOf fmt (fDecFields fmt e sz f) = f.t * 2 ^ (fmt.sigBits - sz) := by
  have hexp := rebuiltExp_lt he he' hfe
  have hsig := shifted_lt fmt hsz ht
  rw [fDecFields_eq]
  exact ⟨signOf_assemble fmt hsg hexp hsig, expOf_assemble fmt hexp hsig, sigOf_assemble fmt hsig⟩

/-- Settles O39: the exponent field is the rebuilt one, whose three cases are those of the statement. -/
theorem rebuiltPatternOfStoredFields : Obligations.RebuiltPatternOfStoredFields := by
  intro fmt e sz sg fe t he he' _ hsz hsg hfe ht
  obtain ⟨hsign, hexp, hsig⟩ := fields_fDecFields (f := ⟨sg, fe, t⟩) he he' hsz hsg hfe ht
  rw [hexp]
  refine ⟨hsign, hsig, fun hzero => ?_, fun hones => ?_, fun hzero hones => ?_⟩
  · rw [hzero, rebuiltExp_zero]
  · rw [show fe = ones e from hones]
    exact rebuiltExp_ones fmt he
  · obtain ⟨hbias, hmin, hmax⟩ := rebuiltExp_not_reserved he he' hfe hzero hones
    exact ⟨hbias, hmin, Nat.le_sub_one_of_lt hmax⟩

/-! ### Storing and rebuilding -/

/-- Rebuilding gives back the exponent field of the pattern that was stored: a reserved one from the reserved one of the same kind,
and any other because the stored one, which R172 keeps in range, is not reserved. -/
theorem rebuiltExp_of_fEncFields {fmt : Fmt} {e sz x : Nat} {f : Stored} (he : 1 ≤ e) (h : fEncFields fmt e sz x = some f) :
    rebuiltExp fmt e f.fe = expOf fmt x := by
  by_cases hones : expOf fmt x = ones fmt.expBits
  · have hfe : f.fe = ones e := by
      by_cases hsig : sigOf fmt x = 0
      · rw [fEncFields_of_infinity e sz hones hsig] at h
        exact (congrArg Stored.fe (Option.some.inj h)).symm
      · rw [fEncFields_of_nan e sz hones hsig] at h
        exact (congrArg Stored.fe (Option.some.inj h)).symm
    rw [hfe, rebuiltExp_ones fmt he, hones]
  · by_cases hzero : expOf fmt x = 0
    · rw [fEncFields_of_zero_exponent e sz hzero] at h
      obtain rfl := Option.some.inj h
      rw [rebuiltExp_zero, hzero]
    · rw [fEncFields_of_normal e sz hones hzero] at h
      obtain ⟨⟨hmin, hmax⟩, hf⟩ := Option.ite_none_right_eq_some.1 h
      obtain rfl := Option.some.inj hf
      have hlast := ones_eq_bias he
      rw [rebuiltExp_between fmt (by dsimp only; omega) (by dsimp only; omega)]
      dsimp only
      omega

/-- A NaN by its fields (45_float_detectors.md R220). -/
theorem categoryOf_eq_nan_iff {fmt : Fmt} {x : Nat} :
    categoryOf fmt x = .nan ↔ expOf fmt x = ones fmt.expBits ∧ sigOf fmt x ≠ 0 := by
  have hones : 0 ≠ ones fmt.expBits := (ones_ne_zero fmt.expBits_pos).symm
  unfold categoryOf
  split_ifs <;> simp_all

/-- The stored sign is the pattern's, and the stored significand its high bits, forced non-zero in a NaN (R172). -/
theorem sign_sig_of_fEncFields {fmt : Fmt} {e sz x : Nat} {f : Stored} (h : fEncFields fmt e sz x = some f) :
    f.sg = signOf fmt x ∧ f.t = if categoryOf fmt x = .nan ∧ highSig fmt sz x = 0 then 1 else highSig fmt sz x := by
  by_cases hcat : categoryOf fmt x = .nan
  · obtain ⟨hexp, hsig⟩ := categoryOf_eq_nan_iff.1 hcat
    rw [fEncFields_of_nan e sz hexp hsig] at h
    obtain rfl := Option.some.inj h
    exact ⟨rfl, by simp only [hcat, true_and, forceNonZero]⟩
  · rw [if_neg (fun hboth => hcat hboth.1)]
    rw [categoryOf_eq_nan_iff] at hcat
    unfold fEncFields at h
    dsimp only at h
    rw [if_neg hcat] at h
    split_ifs at h <;> obtain rfl := Option.some.inj h <;> exact ⟨rfl, rfl⟩

/-- At full width every significand bit is high. -/
theorem highSig_full (fmt : Fmt) (x : Nat) : highSig fmt fmt.sigBits x = sigOf fmt x := by
  rw [highSig, Nat.sub_self, Nat.pow_zero, Nat.div_one]

/-- At full width the bits kept are the whole significand: one of a NaN's is not 0. -/
theorem keptSig_full (fmt : Fmt) (x : Nat) :
    (if categoryOf fmt x = .nan ∧ highSig fmt fmt.sigBits x = 0 then 1 else highSig fmt fmt.sigBits x) = sigOf fmt x := by
  rw [highSig_full, if_neg]
  rintro ⟨hnan, hzero⟩
  exact (categoryOf_eq_nan_iff.1 hnan).2 hzero

/-- Settles O40: the three fields of the rebuilt pattern are those of the pattern, as far as they were stored. -/
theorem floatFieldsRebuildTheValue : Obligations.FloatFieldsRebuildTheValue := by
  intro fmt e sz x f he he' hsz hsz' hx henc
  obtain ⟨hsg, hfe, ht⟩ := fEncFields_bounds he hsz hsz' henc
  obtain ⟨hsign, hexp, hsig⟩ := fields_fDecFields he he' hsz' hsg hfe ht
  obtain ⟨hfsg, hft⟩ := sign_sig_of_fEncFields henc
  rw [rebuiltExp_of_fEncFields he henc] at hexp
  rw [hfsg] at hsign
  rw [hft] at hsig
  refine ⟨hsign, hexp, hsig, ?_⟩
  rintro rfl rfl
  rw [keptSig_full] at hft
  rw [fDecFields_eq, hfsg, rebuiltExp_of_fEncFields he henc, hft, Nat.sub_self, Nat.pow_zero, Nat.mul_one, assemble_fields fmt hx]

end Sys2Proof.Machine

/-! PROOFS. Integers read back (42_integer_codec.md section 6). A write that ends OK has appended the low bits of a number, so a reader
before the same bits reads that number; what is left is that the matching read's extension undoes the cut to SZ bits. -/

namespace Sys2Proof.Machine

/-! ### A reader before what a write appended -/

section ReadBack

variable {v n : Nat} {s s' q : State}

/-- A part of what was appended spells that part of the number. -/
theorem Appended.outNumber_eq (happ : Appended v n s s') {a t : Nat} (h : a + t ≤ n) :
    outNumber s' (outLen s + a) t = v / 2 ^ (n - a - t) % 2 ^ t := by
  obtain ⟨-, -, -, -, -, hbits, -⟩ := happ
  refine outNumber_of_bits fun i hi => ?_
  rw [Nat.add_assoc, hbits (a + i) (by omega), Nat.testBit_div_two_pow]
  congr 1
  omega

/-- A part of the bits before a reader spells what it spells on the output stream. -/
theorem ReadsBack.inNumber_eq (hback : ReadsBack n s s' q) {a t : Nat} (h : a + t ≤ n) :
    inNumber q a t = outNumber s' (outLen s + a) t := by
  induction t with
  | zero => rfl
  | succ t ih => rw [inNumber, outNumber, ih (by omega), hback (a + t) (by omega), Nat.add_assoc]

/-- A read of as many bits as were appended answers f of the number that was written. -/
theorem Reads.answers_appended {r : Instr} {f : Nat → Data} (hr : Reads r 0 n f q) (hsupplies : Supplies q n)
    (happ : Appended v n s s') (hback : ReadsBack n s s' q) :
    ∃ q', exec r q = .next q' ∧ EndedOk (f (v % 2 ^ n)) false q q' := by
  have hnumber : inNumber q 0 n = v % 2 ^ n := by
    rw [hback.inNumber_eq (by omega), happ.outNumber_eq (by omega), Nat.sub_zero, Nat.sub_self, Nat.pow_zero, Nat.div_one]
  obtain ⟨q', hq', -, hended⟩ := hr.1 (by rwa [Nat.zero_add])
  exact ⟨q', hq', hnumber ▸ hended⟩

end ReadBack

/-- The low N bits of a data word, zero-extended, as a number. -/
theorem ofNat_mod_two_pow (x : Data) (N : Nat) : BitVec.ofNat 64 (x.toNat % 2 ^ N) = (x.setWidth N).setWidth 64 := by
  apply BitVec.eq_of_toNat_eq
  simp

/-! ### Sized integers -/

theorem eq_ofNat_of_toInt {N m : Nat} {x : BitVec N} (h : x.toInt = m) : x = BitVec.ofNat N m := by
  rw [← BitVec.ofInt_toInt (x := x), h, BitVec.ofInt_natCast]

theorem setWidth_ofNat_of_lt {N m : Nat} (h : m < 2 ^ N) (k : Nat) : (BitVec.ofNat N m).setWidth k = BitVec.ofNat k m := by
  apply BitVec.eq_of_toNat_eq
  rw [BitVec.toNat_setWidth, BitVec.toNat_ofNat, BitVec.toNat_ofNat, Nat.mod_eq_of_lt h]

/-- Zero extension undoes the cut of an unsigned value that fits. -/
theorem setWidth_ofInt_of_unsigned {N sz : Nat} {x : BitVec N} (hx : IntCodomain true sz x.toInt) :
    (BitVec.ofInt sz x.toInt).setWidth N = x := by
  obtain ⟨hnonneg, hmax⟩ := hx
  obtain ⟨m, hm⟩ := Int.eq_ofNat_of_zero_le hnonneg
  have hlt : m < 2 ^ sz := by
    rw [hm, Int.le_sub_one_iff] at hmax
    exact_mod_cast hmax
  rw [hm, BitVec.ofInt_natCast, setWidth_ofNat_of_lt hlt]
  exact (eq_ofNat_of_toInt hm).symm

/-- Sign extension undoes the cut of a signed value that fits. -/
theorem signExtend_ofInt_of_signed {N sz : Nat} {x : BitVec N} (hmin : 1 ≤ sz) (hle : sz ≤ N)
    (hx : IntCodomain false sz x.toInt) : (BitVec.ofInt sz x.toInt).signExtend N = x := by
  obtain ⟨hlow, hhigh⟩ := hx
  have hpow : ((2 ^ sz : Nat) : Int) = 2 * 2 ^ (sz - 1) := by
    rw [← pow_succ', Nat.sub_add_cancel hmin]
    norm_cast
  apply BitVec.eq_of_toInt_eq
  rw [BitVec.toInt_signExtend_of_le hle, BitVec.toInt_ofInt]
  exact Int.bmod_eq_of_le_mul_two (by omega) (by omega)

/-- Extending the SZ-bit pattern of a value of the codomain gives the value back (42_integer_codec.md R131, R132). -/
theorem extended_of_codomain {N sz : Nat} {u : Bool} {x : BitVec N} (hsz : LegalIntSize N u sz) (hx : IntCodomain u sz x.toInt) :
    extended N u sz ((x.toInt % 2 ^ sz).toNat % 2 ^ sz) = x.setWidth 64 := by
  have hpattern : (x.toInt % 2 ^ sz).toNat = (BitVec.ofInt sz x.toInt).toNat := by
    rw [BitVec.toNat_ofInt]
    norm_cast
  rw [extended, hpattern, Nat.mod_eq_of_lt (BitVec.isLt _), BitVec.ofNat_toNat, BitVec.setWidth_eq]
  cases u with
  | true => rw [if_pos rfl, setWidth_ofInt_of_unsigned hx]
  | false => rw [if_neg Bool.false_ne_true, signExtend_ofInt_of_signed hsz.1 hsz.le_native hx]

theorem sizedInteger_readBack {N sz : Nat} {u : Bool} {w r : Instr} {s s' q : State} (hw : SizedIntegerWrite N u sz w s)
    (hr : SizedIntegerRead N u sz r q) (hready : WriterReady s) (hreader : ReaderReady q) (hsupplies : Supplies q sz) :
    ReadBackBy N sz w r s s' q := by
  intro hexec hok hback
  obtain ⟨-, hillegal, houtside, hwrites⟩ := hw
  obtain ⟨-, -, hreads⟩ := hr
  have hsz : LegalIntSize N u sz := by
    by_contra h
    exact exec_not_preconditionFailed hexec hok.statusIs_ok (by decide) (hillegal hready.1 h)
  have hx : IntCodomain u sz (dinInt N s) := by
    by_contra h
    exact exec_not_modelFault hexec hok.statusIs_ok (by decide) (houtside hready.1 hsz h)
  have happ := (hwrites hready hsz hx).appended_of_ok hexec hok.statusIs_ok
  have hanswer := (hreads hreader hsz).answers_appended hsupplies happ hback
  rwa [dinInt, extended_of_codomain hsz hx] at hanswer

/-! ### Chars and whole patterns -/

theorem char_readBack {sz : Nat} {s s' q : State} (hready : WriterReady s) (hreader : ReaderReady q) (hsupplies : Supplies q sz) :
    ReadBackBy 16 sz (.wrchar sz) (.rdchar sz) s s' q := by
  intro hexec hok hback
  obtain ⟨⟨-, hillegal, houtside, hwrites⟩, -⟩ := charCommandsFollowTheirRules sz s
  obtain ⟨-, -, -, hreads⟩ := charCommandsFollowTheirRules sz q
  have hsz : ¬ (sz < 1 ∨ 16 < sz) := fun h =>
    exec_not_preconditionFailed hexec hok.statusIs_ok (by decide) (hillegal hready.1 h)
  obtain ⟨hmin, hmax⟩ : 1 ≤ sz ∧ sz ≤ 16 := by omega
  have hfits : s.port.din.toNat % 2 ^ 16 < 2 ^ sz := Nat.lt_of_not_le fun h =>
    exec_not_modelFault hexec hok.statusIs_ok (by decide) (houtside hready.1 hmin hmax h)
  have happ := (hwrites hready hmin hmax hfits).appended_of_ok hexec hok.statusIs_ok
  have hanswer := (hreads hreader hmin hmax).answers_appended hsupplies happ hback
  rwa [Nat.mod_eq_of_lt hfits, ofNat_mod_two_pow] at hanswer

theorem whole_readBack {N : Nat} {w r : Instr} {s s' q : State} (hw : WholeWrite N w s) (hr : WholeRead N r q)
    (hready : WriterReady s) (hreader : ReaderReady q) (hsupplies : Supplies q N) : ReadBackBy N N w r s s' q := by
  intro hexec hok hback
  obtain ⟨-, hwrites⟩ := hw
  obtain ⟨-, hreads⟩ := hr
  have happ := (hwrites hready).appended_of_ok hexec hok.statusIs_ok
  have hanswer := (hreads hreader).answers_appended hsupplies happ hback
  rwa [ofNat_mod_two_pow] at hanswer

/-- Settles O37: the sized commands, the chars and the whole patterns each read back what their writes append. -/
theorem integersReadBack : Obligations.IntegersReadBack := by
  intro u sz s s' q hready hreader
  obtain ⟨hwint, hwlong, hwbyte, hwshort⟩ := sizedIntegerWritesFollowTheirRules u sz s
  obtain ⟨hrint, hrlong, hrbyte, hrshort⟩ := sizedIntegerReadsFollowTheirRules u sz q
  obtain ⟨hwbool, -, hwbyte8, -, hwshort16, -, hwint32, -, hwlong64, -, hwchar16, -⟩ := wholeValueCommandsFollowTheirRules s
  obtain ⟨-, hrbool, -, hrbyte8, -, hrshort16, -, hrint32, -, hrlong64, -, hrchar16⟩ := wholeValueCommandsFollowTheirRules q
  refine ⟨fun hs => ⟨?_, ?_, ?_, ?_, char_readBack hready hreader hs⟩, fun hs => ?_, fun hs => ?_, fun hs => ⟨?_, ?_⟩, fun hs => ?_,
    fun hs => ?_⟩
  · exact sizedInteger_readBack hwint hrint hready hreader hs
  · exact sizedInteger_readBack hwlong hrlong hready hreader hs
  · exact sizedInteger_readBack hwbyte hrbyte hready hreader hs
  · exact sizedInteger_readBack hwshort hrshort hready hreader hs
  · exact whole_readBack hwbool hrbool hready hreader hs
  · exact whole_readBack hwbyte8 hrbyte8 hready hreader hs
  · exact whole_readBack hwshort16 hrshort16 hready hreader hs
  · exact whole_readBack hwchar16 hrchar16 hready hreader hs
  · exact whole_readBack hwint32 hrint32 hready hreader hs
  · exact whole_readBack hwlong64 hrlong64 hready hreader hs

end Sys2Proof.Machine

/-! PROOFS. Floats read back (43_float_codec.md section 4; 44_float_compressed.md section 6). The Nullable wrapper is settled once for
whatever payload it carries; each codec then compares the pattern rebuilt from the payload with the pattern on DIN. -/

namespace Sys2Proof.Machine

/-! ### The Nullable wrapper -/

section Nullable

variable {w r : Instr} {nl : Bool} {stored : Option Nat} {t : Nat} {f : Nat → Data} {s s' q : State}

/-- A payload that was written is read back, after its presence bit where there is one. -/
theorem nullable_readBack_value (hw : NullableWrites w nl stored t s) (hr : NullableReads r nl t f q)
    (hvalue : nl = false ∨ s.port.present = true) (hsupplies : Supplies q (t + nl.toNat)) (hexec : exec w s = .next s')
    (hok : statusIs .ok s') (hback : ReadsBack (t + nl.toNat) s s' q) :
    ∃ v, stored = some v ∧ ∃ q', exec r q = .next q' ∧ EndedOk (f (v % 2 ^ t)) false q q' := by
  obtain ⟨hplain, hpresent, -, hnone⟩ := hw
  obtain ⟨hrplain, hrpresent, -⟩ := hr
  cases hstored : stored with
  | none => exact absurd (hnone hvalue hstored) (exec_not_modelFault hexec hok (by decide))
  | some v =>
    refine ⟨v, rfl, ?_⟩
    cases nl with
    | false =>
      have happ := (hplain rfl v hstored).appended_of_ok hexec hok
      exact (hrplain rfl).answers_appended hsupplies happ hback
    | true =>
      have happ := (hpresent rfl (by simpa using hvalue) v hstored).appended_of_ok hexec hok
      have hbit : inBit q 0 = true := by
        obtain ⟨-, -, -, -, -, hbits, -⟩ := happ
        rw [hback 0 (Nat.succ_pos t), hbits 0 (Nat.succ_pos t), Nat.add_sub_cancel, Nat.sub_zero, Nat.testBit_two_pow_add_eq]
        simp
      have hnumber : inNumber q 1 t = v % 2 ^ t := by
        rw [hback.inNumber_eq (Nat.add_comm 1 t).le, happ.outNumber_eq (Nat.add_comm 1 t).le]
        simp
      obtain ⟨q', hq', -, hended⟩ := (hrpresent rfl hbit).1 (by rwa [Nat.add_comm])
      exact ⟨q', hq', hnumber ▸ hended⟩

/-- A null is one bit, 0. -/
theorem nullable_readBack_null (hw : NullableWrites w true stored t s) (hr : NullableReads r true t f q)
    (hnull : s.port.present = false) (hsupplies : Supplies q 1) (hexec : exec w s = .next s') (hok : statusIs .ok s')
    (hback : ReadsBack 1 s s' q) : ∃ q', exec r q = .next q' ∧ EndedOk 0 true q q' := by
  obtain ⟨-, -, hwnull, -⟩ := hw
  obtain ⟨-, -, hrnull⟩ := hr
  have happ := (hwnull rfl hnull).appended_of_ok hexec hok
  have hbit : inBit q 0 = false := by
    obtain ⟨-, -, -, -, -, hbits, -⟩ := happ
    rw [hback 0 (by omega), hbits 0 (by omega), Nat.zero_testBit]
  obtain ⟨q', hq', -, hended⟩ := (hrnull rfl hbit).1 hsupplies
  exact ⟨q', hq', hended⟩

end Nullable

/-! ### Full-width floats -/

theorem expSig_lt {e sz fe t : Nat} (hfe : fe < 2 ^ e) (ht : t < 2 ^ sz) : fe * 2 ^ sz + t < 2 ^ (e + sz) := by
  rw [Nat.pow_add, Nat.mul_comm fe]
  exact Nat.mul_add_lt_mul_of_lt_of_lt hfe ht

theorem storedNumber_lt {e sz : Nat} {f : Stored} (hsg : f.sg < 2) (hfe : f.fe < 2 ^ e) (ht : f.t < 2 ^ sz) :
    storedNumber e sz f < 2 ^ (1 + e + sz) := by
  rw [storedNumber, Nat.add_assoc, Nat.add_assoc]
  exact expSig_lt hsg (expSig_lt hfe ht)

theorem join_div {a b k : Nat} (h : b < 2 ^ k) : (a * 2 ^ k + b) / 2 ^ k = a := by
  rw [Nat.mul_comm, Nat.mul_add_div (Nat.two_pow_pos k), Nat.div_eq_of_lt h, Nat.add_zero]

/-- The stored fields are found again in the number they spell. -/
theorem storedFields_storedNumber {e sz : Nat} {f : Stored} (hfe : f.fe < 2 ^ e) (ht : f.t < 2 ^ sz) :
    storedFields e sz (storedNumber e sz f) = f := by
  have hsplit : storedNumber e sz f = (f.sg * 2 ^ e + f.fe) * 2 ^ sz + f.t := by
    rw [storedNumber, Nat.pow_add]
    ring
  have hsign : storedNumber e sz f / 2 ^ (e + sz) = f.sg := by
    rw [storedNumber, Nat.add_assoc, join_div (expSig_lt hfe ht)]
  rw [storedFields, hsign, hsplit, join_div ht, Nat.mul_add_mod_of_lt ht, Nat.mul_add_mod_of_lt hfe]

/-- At full width the pattern that was written is rebuilt bit for bit (O40). -/
theorem fullWidthFloat_readBack {fmt : Fmt} {nl : Bool} {w r : Instr} {s s' q : State}
    (hw : GeneralFloatWrite fmt nl fmt.sigBits fmt.expBits w s) (hr : GeneralFloatRead fmt nl fmt.sigBits fmt.expBits r q)
    (hready : WriterReady s) (hreader : ReaderReady q) (hvalue : nl = false ∨ s.port.present = true)
    (hsupplies : Supplies q (1 + fmt.expBits + fmt.sigBits + nl.toNat)) :
    ReadBackBy fmt.width (1 + fmt.expBits + fmt.sigBits + nl.toNat) w r s s' q := by
  intro hexec hok hback
  obtain ⟨-, -, hwrites⟩ := hw
  obtain ⟨-, -, hreads⟩ := hr
  have hlegal : LegalFloatSize fmt fmt.expBits fmt.sigBits := ⟨fmt.expMin_le, le_refl _, fmt.sigMin_le, le_refl _⟩
  obtain ⟨v, hv, q', hq', hended⟩ := nullable_readBack_value (hwrites hready hlegal) (hreads hreader hlegal) hvalue hsupplies hexec
    hok.statusIs_ok hback
  obtain ⟨f, hf, rfl⟩ := Option.map_eq_some_iff.1 hv
  have hsig : 1 ≤ fmt.sigBits := fmt.sigMin_pos.trans fmt.sigMin_le
  obtain ⟨hsg, hfe, ht⟩ := fEncFields_bounds fmt.expBits_pos hsig (le_refl _) hf
  obtain ⟨-, -, -, hpattern⟩ := floatFieldsRebuildTheValue fmt _ _ _ f fmt.expBits_pos (le_refl _) hsig (le_refl _)
    (Nat.mod_lt _ (Nat.two_pow_pos _)) hf
  rw [Nat.mod_eq_of_lt (storedNumber_lt hsg hfe ht), storedFields_storedNumber hfe ht, hpattern rfl rfl, ofNat_mod_two_pow] at hended
  exact ⟨q', hq', hended⟩

theorem fullWidthFloat_readBack_null {fmt : Fmt} {w r : Instr} {s s' q : State}
    (hw : GeneralFloatWrite fmt true fmt.sigBits fmt.expBits w s) (hr : GeneralFloatRead fmt true fmt.sigBits fmt.expBits r q)
    (hready : WriterReady s) (hreader : ReaderReady q) (hnull : s.port.present = false) (hsupplies : Supplies q 1) :
    NullReadBack w r s s' q := by
  intro hexec hok hback
  obtain ⟨-, -, hwrites⟩ := hw
  obtain ⟨-, -, hreads⟩ := hr
  have hlegal : LegalFloatSize fmt fmt.expBits fmt.sigBits := ⟨fmt.expMin_le, le_refl _, fmt.sigMin_le, le_refl _⟩
  exact nullable_readBack_null (hwrites hready hlegal) (hreads hreader hlegal) hnull hsupplies hexec hok.statusIs_ok hback

/-- Settles O43: the native widths are legal sizes, at which storing loses nothing. -/
theorem fullWidthFloatsReadBack : Obligations.FullWidthFloatsReadBack := by
  intro nl s s' q hready hreader
  refine ⟨fun hvalue => ⟨fun hs => ?_, fun hs => ?_⟩, ?_⟩
  · exact fullWidthFloat_readBack (fmt := .F) (generalFloatWrite_of_writeFloat rfl) (generalFloatRead_of_readFloat rfl) hready
      hreader hvalue hs
  · exact fullWidthFloat_readBack (fmt := .D) (generalFloatWrite_of_writeFloat rfl) (generalFloatRead_of_readFloat rfl) hready
      hreader hvalue hs
  · rintro rfl hnull hs hback
    refine ⟨fun hexec hok => ?_, fun hexec hok => ?_⟩
    · exact fullWidthFloat_readBack_null (fmt := .F) (generalFloatWrite_of_writeFloat rfl) (generalFloatRead_of_readFloat rfl) hready
        hreader hnull hs hexec hok hback
    · exact fullWidthFloat_readBack_null (fmt := .D) (generalFloatWrite_of_writeFloat rfl) (generalFloatRead_of_readFloat rfl) hready
        hreader hnull hs hexec hok hback

/-! ### The pattern on DIN -/

section PatternOnDin

variable (fmt : Fmt) (s : State)

theorem dinBits_lt : dinBits fmt.width s < 2 ^ fmt.width := Nat.mod_lt _ (Nat.two_pow_pos _)

theorem signOnDin_lt : signOnDin fmt s < 2 := Nat.mod_lt _ (by omega)

/-- The pattern on DIN is its sign over its magnitude. -/
theorem sign_magnitude_din : signOnDin fmt s * 2 ^ (fmt.width - 1) + magnitudeOnDin fmt s = dinBits fmt.width s := by
  cases fmt <;> simp only [signOnDin, magnitudeOnDin, dinBits, Fmt.width] <;> omega

/-- The pattern on DIN is the assembly of its fields. -/
theorem assemble_din : assemble fmt (signOnDin fmt s) (expOf fmt (dinBits fmt.width s)) (sigOf fmt (dinBits fmt.width s)) =
    dinBits fmt.width s := by
  rw [← signOf_dinBits, assemble_fields fmt (dinBits_lt fmt s)]

end PatternOnDin

theorem expOf_of_subnormal {fmt : Fmt} {x : Nat} (h : categoryOf fmt x = .subnormal) : expOf fmt x = 0 := by
  unfold categoryOf at h
  split_ifs at h
  assumption

theorem assemble_lt (fmt : Fmt) {sg ef mf : Nat} (hsg : sg < 2) (hef : ef < 2 ^ fmt.expBits) (hmf : mf < 2 ^ fmt.sigBits) :
    assemble fmt sg ef mf < 2 ^ 64 := by
  cases fmt <;> simp only [assemble, Fmt.width, Fmt.expBits, Fmt.sigBits] at * <;> omega

/-! ### Zeros and infinities -/

theorem sign_readBack {fmt : Fmt} {m : Nat} {nl : Bool} {i j : Instr} {s s' q : State} (hw : SignWrite fmt m nl i s)
    (hr : SignRead fmt m nl j q) (hready : WriterReady s) (hreader : ReaderReady q) (hvalue : nl = false ∨ s.port.present = true)
    (hsupplies : Supplies q (1 + nl.toNat)) : ReadBackBy fmt.width (1 + nl.toNat) i j s s' q := by
  intro hexec hok hback
  obtain ⟨-, hwrites⟩ := hw
  obtain ⟨-, hreads⟩ := hr
  obtain ⟨v, hv, q', hq', hended⟩ := nullable_readBack_value (hwrites hready) (hreads hreader) hvalue hsupplies hexec hok.statusIs_ok
    hback
  obtain ⟨rfl, hsign⟩ := Option.ite_none_right_eq_some.1 hv
  obtain rfl := Option.some.inj hsign
  rw [Nat.pow_one, Nat.mod_eq_of_lt (signOnDin_lt fmt s), sign_magnitude_din, dinBits, ofNat_mod_two_pow] at hended
  exact ⟨q', hq', hended⟩

theorem sign_readBack_null {fmt : Fmt} {m : Nat} {i j : Instr} {s s' q : State} (hw : SignWrite fmt m true i s)
    (hr : SignRead fmt m true j q) (hready : WriterReady s) (hreader : ReaderReady q) (hnull : s.port.present = false)
    (hsupplies : Supplies q 1) : NullReadBack i j s s' q := by
  intro hexec hok hback
  obtain ⟨-, hwrites⟩ := hw
  obtain ⟨-, hreads⟩ := hr
  exact nullable_readBack_null (hwrites hready) (hreads hreader) hnull hsupplies hexec hok.statusIs_ok hback

/-! ### Subnormals and NaNs -/

/-- What a significand read rebuilds of the number that a significand write spells. -/
theorem signSigPattern_signSigNumber (fmt : Fmt) (ef : Nat) (so : Bool) {w sg t : Nat} (hsg : sg < 2) (ht : t < 2 ^ w) :
    signSigPattern fmt ef so w (signSigNumber so w (sg, t) % 2 ^ (if so then w else 1 + w)) =
      assemble fmt (if so then 0 else sg) ef (t * 2 ^ (fmt.sigBits - w)) := by
  cases so with
  | true => simp [signSigPattern, signSigNumber, Nat.mod_eq_of_lt ht]
  | false =>
    have hlt : sg * 2 ^ w + t < 2 ^ (1 + w) := expSig_lt hsg ht
    simp [signSigPattern, signSigNumber, Nat.mod_eq_of_lt hlt, join_div ht, Nat.mul_add_mod_of_lt ht]

section Significand

variable {fmt : Fmt} {inCategory : Prop} [Decidable inCategory] {force so nl : Bool} {w ef : Nat} {i j : Instr} {s s' q : State}

/-- A significand write that ends OK had a legal width. -/
theorem significand_width_of_ok (hw : SignificandWrite fmt inCategory force so nl w i s) (hopen : s.W.st = .opened)
    (hexec : exec i s = .next s') (hok : statusIs .ok s') : 1 ≤ w ∧ w ≤ fmt.sigBits := by
  obtain ⟨-, hillegal, -⟩ := hw
  by_contra h
  exact exec_not_preconditionFailed hexec hok (by decide) (hillegal hopen (by omega))

/-- What a significand write stored of a value of its category is read back under the implied exponent field. -/
theorem significand_readBack (hw : SignificandWrite fmt inCategory force so nl w i s)
    (hr : SignificandRead fmt (ef * 2 ^ fmt.sigBits) so nl w j q) (hready : WriterReady s) (hreader : ReaderReady q)
    (hvalue : nl = false ∨ s.port.present = true) (hsupplies : Supplies q ((if so then w else 1 + w) + nl.toNat))
    (hexec : exec i s = .next s') (hok : statusIs .ok s') (hback : ReadsBack ((if so then w else 1 + w) + nl.toNat) s s' q) :
    inCategory ∧ ∃ q', exec j q = .next q' ∧ EndedOk (BitVec.ofNat 64 (assemble fmt (if so then 0 else signOnDin fmt s) ef
      (storedSig force (highSig fmt w (dinBits fmt.width s)) * 2 ^ (fmt.sigBits - w)))) false q q' := by
  obtain ⟨hmin, hmax⟩ := significand_width_of_ok hw hready.1 hexec hok
  obtain ⟨-, -, hwrites⟩ := hw
  obtain ⟨-, -, hreads⟩ := hr
  obtain ⟨v, hv, q', hq', hended⟩ := nullable_readBack_value (hwrites hready hmin hmax) (hreads hreader hmin hmax) hvalue hsupplies
    hexec hok hback
  obtain ⟨hcat, hnumber⟩ := Option.ite_none_right_eq_some.1 hv
  have hsig := storedSig_lt force hmin (highSig_lt fmt hmax (dinBits fmt.width s))
  have hv' : v = signSigNumber so w (signOnDin fmt s, storedSig force (highSig fmt w (dinBits fmt.width s))) := by
    rw [highSig_dinBits]
    exact (Option.some.inj hnumber).symm
  refine ⟨hcat, q', hq', ?_⟩
  rw [← signSigPattern_signSigNumber fmt ef so (signOnDin_lt fmt s) hsig, ← hv']
  exact hended

theorem significand_readBack_null (hw : SignificandWrite fmt inCategory force so true w i s)
    (hr : SignificandRead fmt (ef * 2 ^ fmt.sigBits) so true w j q) (hready : WriterReady s) (hreader : ReaderReady q)
    (hnull : s.port.present = false) (hsupplies : Supplies q 1) : NullReadBack i j s s' q := by
  intro hexec hok hback
  obtain ⟨hmin, hmax⟩ := significand_width_of_ok hw hready.1 hexec hok.statusIs_ok
  obtain ⟨-, -, hwrites⟩ := hw
  obtain ⟨-, -, hreads⟩ := hr
  exact nullable_readBack_null (hwrites hready hmin hmax) (hreads hreader hmin hmax) hnull hsupplies hexec hok.statusIs_ok hback

end Significand

/-- The high bits over zeros are the whole significand exactly when the bits left out are 0. -/
theorem highSig_shifted_eq_iff {fmt : Fmt} {w : Nat} (s : State) :
    highSig fmt w (dinBits fmt.width s) * 2 ^ (fmt.sigBits - w) = sigOf fmt (dinBits fmt.width s) ↔
      s.port.din.toNat % 2 ^ (fmt.sigBits - w) = 0 := by
  have hlow : sigOf fmt (dinBits fmt.width s) % 2 ^ (fmt.sigBits - w) = s.port.din.toNat % 2 ^ (fmt.sigBits - w) := by
    rw [sigOf, Nat.mod_mod_of_dvd _ (Nat.pow_dvd_pow 2 (Nat.sub_le ..)),
      dinBits_mod ((Nat.sub_le ..).trans (by cases fmt <;> decide))]
  rw [← hlow, highSig]
  have hsplit := Nat.div_add_mod' (sigOf fmt (dinBits fmt.width s)) (2 ^ (fmt.sigBits - w))
  omega

theorem ofNat_eq_iff {a b : Nat} (ha : a < 2 ^ 64) (hb : b < 2 ^ 64) : (BitVec.ofNat 64 a = BitVec.ofNat 64 b) ↔ a = b := by
  rw [← BitVec.toNat_inj, BitVec.toNat_ofNat, BitVec.toNat_ofNat, Nat.mod_eq_of_lt ha, Nat.mod_eq_of_lt hb]

/-- A Subnormal has exponent field 0, as the read implies, so its rebuilt pattern differs in the significand alone. -/
theorem subnormalKept_of_din {fmt : Fmt} {w : Nat} {s : State} (hmax : w ≤ fmt.sigBits)
    (hcat : categoryOf fmt (dinBits fmt.width s) = .subnormal) :
    SubnormalKept fmt w s (BitVec.ofNat 64 (assemble fmt (signOnDin fmt s) 0
      (highSig fmt w (dinBits fmt.width s) * 2 ^ (fmt.sigBits - w)))) := by
  have hsign := signOnDin_lt fmt s
  have hexp : 0 < 2 ^ fmt.expBits := Nat.two_pow_pos _
  have hsig := shifted_lt fmt hmax (highSig_lt fmt hmax (dinBits fmt.width s))
  have hdin := assemble_din fmt s
  rw [expOf_of_subnormal hcat] at hdin
  have hdin64 : dinBits fmt.width s < 2 ^ 64 := hdin ▸ assemble_lt fmt hsign hexp (sigOf_lt ..)
  rw [SubnormalKept, ← highSig_shifted_eq_iff, ← ofNat_mod_two_pow, ← dinBits,
    ofNat_eq_iff (assemble_lt fmt hsign hexp hsig) hdin64]
  refine ⟨fun hsame => ?_, fun hkept => ?_⟩
  · rw [← sigOf_assemble fmt (sg := signOnDin fmt s) (ef := 0) hsig, hsame]
  · rw [hkept, hdin]

theorem forceNonZero_ne_zero (t : Nat) : forceNonZero t ≠ 0 := by
  unfold forceNonZero
  split <;> omega

/-- A NaN has exponent field all ones, as the read implies, and its stored significand is not 0. -/
theorem nanKept_of_din {fmt : Fmt} {so : Bool} {w : Nat} {s : State} (hmin : 1 ≤ w) (hmax : w ≤ fmt.sigBits)
    (hcat : categoryOf fmt (dinBits fmt.width s) = .nan) :
    NanKept fmt so w s (BitVec.ofNat 64 (assemble fmt (if so then 0 else signOnDin fmt s) (ones fmt.expBits)
      (forceNonZero (highSig fmt w (dinBits fmt.width s)) * 2 ^ (fmt.sigBits - w)))) := by
  have hsign : (if so then 0 else signOnDin fmt s) < 2 := by
    have := signOnDin_lt fmt s
    split <;> omega
  have hexp : ones fmt.expBits < 2 ^ fmt.expBits := Nat.sub_one_lt (Nat.two_pow_pos _).ne'
  have hsig := shifted_lt fmt hmax (forceNonZero_lt hmin (highSig_lt fmt hmax (dinBits fmt.width s)))
  have hnonzero := Nat.mul_ne_zero (forceNonZero_ne_zero (highSig fmt w (dinBits fmt.width s)))
    (Nat.two_pow_pos (fmt.sigBits - w)).ne'
  rw [NanKept, BitVec.toNat_ofNat, Nat.mod_eq_of_lt (assemble_lt fmt hsign hexp hsig)]
  refine ⟨categoryOf_eq_nan_iff.2 ⟨expOf_assemble fmt hexp hsig, ?_⟩, signOf_assemble fmt hsign hexp hsig, ?_⟩
  · rwa [sigOf_assemble fmt hsig]
  · rintro rfl rfl
    obtain ⟨hdinExp, hdinSig⟩ := categoryOf_eq_nan_iff.1 hcat
    rw [highSig_full, forceNonZero, if_neg hdinSig, Nat.sub_self, Nat.pow_zero, Nat.mul_one, if_neg Bool.false_ne_true, ← hdinExp,
      assemble_din, dinBits, ofNat_mod_two_pow]

theorem subnormal_readBack {fmt : Fmt} {nl : Bool} {w : Nat} {i j : Instr} {s s' q : State}
    (hi : exec i s = complete (writeSubnormal fmt nl w s)) (hj : exec j q = complete (readSignSig fmt 0 nl false w q))
    (hready : WriterReady s) (hreader : ReaderReady q) (hvalue : nl = false ∨ s.port.present = true)
    (hsupplies : Supplies q (1 + w + nl.toNat)) : ReadBackAs (1 + w + nl.toNat) i j (SubnormalKept fmt w s) s s' q := by
  intro hexec hok hback
  have hw := significandWrite_of_writeSubnormal hi
  obtain ⟨-, hmax⟩ := significand_width_of_ok hw hready.1 hexec hok.statusIs_ok
  obtain ⟨hcat, q', hq', hended⟩ := significand_readBack hw (significandRead_of_readSignSig rfl hj) hready hreader hvalue hsupplies
    hexec hok.statusIs_ok hback
  rw [storedSig_false] at hended
  exact ⟨q', _, hq', hended, subnormalKept_of_din hmax ((categoryOf_din_eq_subnormal_iff fmt s).2 hcat)⟩

theorem nan_readBack {fmt : Fmt} {nl so : Bool} {w : Nat} {i j : Instr} {s s' q : State}
    (hi : exec i s = complete (writeNan fmt nl so w s)) (hj : exec j q = complete (readSignSig fmt (ones fmt.expBits) nl so w q))
    (hready : WriterReady s) (hreader : ReaderReady q) (hvalue : nl = false ∨ s.port.present = true)
    (hsupplies : Supplies q ((if so then w else 1 + w) + nl.toNat)) :
    ReadBackAs ((if so then w else 1 + w) + nl.toNat) i j (NanKept fmt so w s) s s' q := by
  intro hexec hok hback
  have hw := significandWrite_of_writeNan hi
  obtain ⟨hmin, hmax⟩ := significand_width_of_ok hw hready.1 hexec hok.statusIs_ok
  obtain ⟨hcat, q', hq', hended⟩ := significand_readBack hw (significandRead_of_readSignSig rfl hj) hready hreader hvalue hsupplies
    hexec hok.statusIs_ok hback
  rw [storedSig_true] at hended
  exact ⟨q', _, hq', hended, nanKept_of_din hmin hmax ((categoryOf_din_eq_nan_iff fmt s).2 hcat)⟩

/-- A null of any of the eight pairs is the one bit of the Nullable wrapper. -/
theorem compressedNulls_readBack (so : Bool) (w : Nat) {s s' q : State} (hready : WriterReady s) (hreader : ReaderReady q)
    (hnull : s.port.present = false) (hsupplies : Supplies q 1) :
    NullReadBack (.wrzerof true) (.rdzerof true) s s' q ∧ NullReadBack (.wrzerod true) (.rdzerod true) s s' q ∧
      NullReadBack (.wrinff true) (.rdinff true) s s' q ∧ NullReadBack (.wrinfd true) (.rdinfd true) s s' q ∧
      NullReadBack (.wrsubf true w) (.rdsubf true w) s s' q ∧ NullReadBack (.wrsubd true w) (.rdsubd true w) s s' q ∧
      NullReadBack (.wrnanf true so w) (.rdnanf true so w) s s' q ∧
      NullReadBack (.wrnand true so w) (.rdnand true so w) s s' q := by
  obtain ⟨hwzerof, -, hwzerod, -⟩ := zeroCodecsFollowTheirRules true s
  obtain ⟨-, hrzerof, -, hrzerod⟩ := zeroCodecsFollowTheirRules true q
  obtain ⟨hwinff, -, hwinfd, -⟩ := infinityCodecsFollowTheirRules true s
  obtain ⟨-, hrinff, -, hrinfd⟩ := infinityCodecsFollowTheirRules true q
  refine ⟨?_, ?_, ?_, ?_, ?_, ?_, ?_, ?_⟩
  · exact sign_readBack_null hwzerof hrzerof hready hreader hnull hsupplies
  · exact sign_readBack_null hwzerod hrzerod hready hreader hnull hsupplies
  · exact sign_readBack_null hwinff hrinff hready hreader hnull hsupplies
  · exact sign_readBack_null hwinfd hrinfd hready hreader hnull hsupplies
  · exact significand_readBack_null (significandWrite_of_writeSubnormal rfl) (significandRead_of_readSignSig rfl rfl) hready hreader
      hnull hsupplies
  · exact significand_readBack_null (significandWrite_of_writeSubnormal rfl) (significandRead_of_readSignSig rfl rfl) hready hreader
      hnull hsupplies
  · exact significand_readBack_null (significandWrite_of_writeNan rfl) (significandRead_of_readSignSig rfl rfl) hready hreader
      hnull hsupplies
  · exact significand_readBack_null (significandWrite_of_writeNan rfl) (significandRead_of_readSignSig rfl rfl) hready hreader
      hnull hsupplies

/-- Settles O50: a zero and an infinity are their sign under an implied magnitude; a subnormal and a NaN their sign and high bits under
an implied exponent field. -/
theorem compressedValuesReadBack : Obligations.CompressedValuesReadBack := by
  intro nl so w s s' q hready hreader
  obtain ⟨hwzerof, -, hwzerod, -⟩ := zeroCodecsFollowTheirRules nl s
  obtain ⟨-, hrzerof, -, hrzerod⟩ := zeroCodecsFollowTheirRules nl q
  obtain ⟨hwinff, -, hwinfd, -⟩ := infinityCodecsFollowTheirRules nl s
  obtain ⟨-, hrinff, -, hrinfd⟩ := infinityCodecsFollowTheirRules nl q
  refine ⟨fun hvalue => ⟨fun hs => ⟨?_, ?_, ?_, ?_⟩, fun hs => ⟨?_, ?_⟩, fun hs => ⟨?_, ?_⟩⟩, fun hnull hs => ?_⟩
  · exact sign_readBack hwzerof hrzerof hready hreader hvalue hs
  · exact sign_readBack hwzerod hrzerod hready hreader hvalue hs
  · exact sign_readBack hwinff hrinff hready hreader hvalue hs
  · exact sign_readBack hwinfd hrinfd hready hreader hvalue hs
  · exact subnormal_readBack rfl rfl hready hreader hvalue hs
  · exact subnormal_readBack rfl rfl hready hreader hvalue hs
  · exact nan_readBack rfl rfl hready hreader hvalue hs
  · exact nan_readBack rfl rfl hready hreader hvalue hs
  · exact compressedNulls_readBack so w hready hreader hnull hs

end Sys2Proof.Machine

/-! PROOFS. The units of a VLQ on the stream (46_vlq.md sections 1 to 3). A write that ends OK has appended the wire number of its
value, whose bytes are the units; so the output stream shows each unit's continuation bit and group, and a reader before the same
bits finds the same units. -/

namespace Sys2Proof.Machine

/-! ### The groups of a value -/

/-- The groups are the digits of the value in base 128. -/
theorem sum_groups (v k : Nat) : ∑ i ∈ Finset.range k, v / 128 ^ i % 128 * 2 ^ (7 * i) = v % 128 ^ k := by
  induction k with
  | zero => simp [Nat.mod_one]
  | succ k ih => rw [Finset.sum_range_succ, ih, Nat.pow_succ, Nat.mod_mul, Nat.pow_mul, Nat.mul_comm (128 ^ k)]

theorem vlqUnit_mod (v k i : Nat) : vlqUnit v k i % 2 ^ 7 = v / 128 ^ i % 128 := by
  unfold vlqUnit
  split <;> omega

/-- The top bit of a unit says whether another follows (46_vlq.md R240). -/
theorem vlqUnit_testBit_top (v k i : Nat) : (vlqUnit v k i).testBit 7 = decide (i + 1 < k) := by
  have hgroup := Nat.mod_lt (v / 128 ^ i) (show 0 < 128 by omega)
  rw [Nat.testBit_eq_decide_div_mod_eq, vlqUnit, decide_eq_decide]
  split <;> omega

/-- Unit i of the k units of v starts 8 * (k - 1 - i) bits above the end of the wire number. -/
theorem vlqWire_shifted {v i : Nat} (hi : i < vlqLen v) :
    vlqWire v / 2 ^ (8 * (vlqLen v - 1 - i)) % 2 ^ 8 = vlqUnit v (vlqLen v) i := by
  rw [Nat.pow_mul]
  exact vlqWire_unit hi

/-! ### Units on the output stream -/

/-- The units of a value that has been appended. -/
theorem unit_of_appended {v i : Nat} {s t : State} (happ : Appended (vlqWire v) (8 * vlqLen v) s t) (hi : i < vlqLen v) :
    outBit t (outLen s + 8 * i) = decide (i + 1 < vlqLen v) ∧ outNumber t (outLen s + 8 * i + 1) 7 = v / 128 ^ i % 128 := by
  have hunit := vlqWire_shifted hi
  have htop : 8 * vlqLen v - 1 - 8 * i = 8 * (vlqLen v - 1 - i) + 7 := by omega
  have hlow : 8 * vlqLen v - (8 * i + 1) - 7 = 8 * (vlqLen v - 1 - i) := by omega
  constructor
  · obtain ⟨-, -, -, -, -, hbits, -⟩ := happ
    rw [hbits (8 * i) (by omega), htop, ← vlqUnit_testBit_top v, ← hunit, Nat.testBit_mod_two_pow, Nat.testBit_div_two_pow,
      Nat.add_comm]
    simp
  · rw [Nat.add_assoc, happ.outNumber_eq (by omega), hlow, ← vlqUnit_mod v (vlqLen v), ← hunit,
      Nat.mod_mod_of_dvd _ (Nat.pow_dvd_pow 2 (by omega))]

theorem fewestUnits_of_appended {v G : Nat} {s t : State} (happ : Appended (vlqWire v) (8 * vlqLen v) s t) (hlen : vlqLen v ≤ G) :
    FewestUnits v G s t := by
  have hunit : ∀ i, i < vlqLen v → _ := fun i => unit_of_appended happ
  have hgroups : ∀ i ∈ Finset.range (vlqLen v),
      outNumber t (outLen s + 8 * i + 1) 7 * 2 ^ (7 * i) = v / 128 ^ i % 128 * 2 ^ (7 * i) := fun i hi => by
    rw [(hunit i (Finset.mem_range.1 hi)).2]
  obtain ⟨-, -, hpos, -⟩ := happ
  refine ⟨vlqLen v, vlqLen_pos v, hlen, lt_pow_vlqLen v, fun j => vlqLen_le, hpos, hunit, ?_⟩
  rw [Finset.sum_congr rfl hgroups, sum_groups, Nat.mod_eq_of_lt (lt_pow_vlqLen v)]

/-- A non-negative signed operand is below half its range. -/
theorem lt_of_dinInt {N v : Nat} {s : State} (h : dinInt N s = v) : v < 2 ^ (N - 1) := by
  have hlt := BitVec.toInt_lt (x := s.port.din.setWidth N)
  rw [← dinInt, h] at hlt
  exact_mod_cast hlt

/-- Settles O53: a VLQ write that ends OK has appended the wire number of its value, of 31 bits in five groups or of 63 in nine. -/
theorem vlqLengthIsTheFewestGroups : Obligations.VlqLengthIsTheFewestGroups := by
  intro s t hready hok
  obtain ⟨⟨-, -, hwrvlqi⟩, ⟨-, -, hwrvlql⟩⟩ := vlqWritesFollowTheirRules s
  refine ⟨fun v hv hexec => ?_, fun v hv hexec => ?_⟩
  · have hlen : vlqLen v ≤ 5 := vlqLen_le (by omega) ((lt_of_dinInt hv).trans (by decide))
    exact fewestUnits_of_appended ((hwrvlqi hready v hv).appended_of_ok hexec hok.statusIs_ok) hlen
  · have hlen : vlqLen v ≤ 9 := vlqLen_le (by omega) (lt_of_dinInt hv)
    exact fewestUnits_of_appended ((hwrvlql hready v hv).appended_of_ok hexec hok.statusIs_ok) hlen

/-! ### Units on the input stream -/

section Units

variable {v : Nat} {s s' q : State}

/-- A reader before the bits that a write appended finds its units. -/
theorem unit_of_readsBack (happ : Appended (vlqWire v) (8 * vlqLen v) s s') (hback : ReadsBack (8 * vlqLen v) s s' q) {i : Nat}
    (hi : i < vlqLen v) : unitContinues q i = decide (i + 1 < vlqLen v) ∧ unitGroup q i = v / 128 ^ i % 128 := by
  obtain ⟨hcontinues, hgroup⟩ := unit_of_appended happ hi
  exact ⟨(hback (8 * i) (by omega)).trans hcontinues, (hback.inNumber_eq (by omega)).trans hgroup⟩

theorem unitsValue_of_readsBack (happ : Appended (vlqWire v) (8 * vlqLen v) s s') (hback : ReadsBack (8 * vlqLen v) s s' q) {m : Nat}
    (hm : m ≤ vlqLen v) : unitsValue q m = v % 128 ^ m := by
  rw [← sum_groups]
  induction m with
  | zero => rfl
  | succ m ih => rw [unitsValue, ih (by omega), (unit_of_readsBack happ hback hm).2, Finset.sum_range_succ]

/-- No unit's part is more than the value. -/
theorem unit_fits (happ : Appended (vlqWire v) (8 * vlqLen v) s s') (hback : ReadsBack (8 * vlqLen v) s s' q) {L i : Nat}
    (hL : v < 2 ^ L) (hi : i < vlqLen v) : unitGroup q i * 2 ^ (7 * i) < 2 ^ L := by
  rw [(unit_of_readsBack happ hback hi).2, Nat.pow_mul]
  calc v / 128 ^ i % 128 * 128 ^ i ≤ v / 128 ^ i * 128 ^ i := Nat.mul_le_mul_right _ (Nat.mod_le ..)
    _ ≤ v := Nat.div_mul_le_self ..
    _ < 2 ^ L := hL

end Units

/-- A VLQ read with room for the value and its units gives back what a VLQ write put on the stream. -/
theorem vlq_readBack {N L G v : Nat} {w r : Instr} {s s' q : State} (hw : VlqWrite N w s) (hr : ReadsVlq r L G q)
    (hready : WriterReady s) (hv : dinInt N s = v) (hL : v < 2 ^ L) (hG : vlqLen v ≤ G)
    (hsupplies : Supplies q (8 * vlqLen v)) : ReadBackBy N (8 * vlqLen v) w r s s' q := by
  intro hexec hok hback
  obtain ⟨-, -, hwrites⟩ := hw
  obtain ⟨hreturns, -⟩ := hr
  have happ := (hwrites hready v hv).appended_of_ok hexec hok.statusIs_ok
  obtain ⟨m, hm⟩ : ∃ m, vlqLen v = m + 1 := ⟨vlqLen v - 1, (Nat.sub_add_cancel (vlqLen_pos v)).symm⟩
  have hgoOn : UnitsGoOn L m q := fun i hi => by
    refine ⟨?_, unit_fits happ hback hL (by omega)⟩
    rw [(unit_of_readsBack happ hback (by omega)).1]
    simp [hm, hi]
  have hlast : unitContinues q m = false := by
    rw [(unit_of_readsBack happ hback (by omega)).1]
    simp [hm]
  obtain ⟨q', hq', -, hended⟩ := hreturns m (by omega) hgoOn hlast (unit_fits happ hback hL (by omega)) (by rwa [← hm])
  rw [unitsValue_of_readsBack happ hback hm.ge, ← hm, Nat.mod_eq_of_lt (lt_pow_vlqLen v)] at hended
  have hdin : s.port.din.setWidth N = BitVec.ofNat N v := eq_ofNat_of_toInt hv
  have hlt : v < 2 ^ N := (lt_of_dinInt hv).trans_le (Nat.pow_le_pow_right (by omega) (Nat.sub_le ..))
  rw [hdin, setWidth_ofNat_of_lt hlt]
  exact ⟨q', hq', hended⟩

/-- Settles O54: an int has 31 value bits in at most five units, a long 63 in at most nine, and RDVLQL has room for both. -/
theorem vlqReadsBack : Obligations.VlqReadsBack := by
  intro s s' q hready hreader
  obtain ⟨hwrvlqi, hwrvlql⟩ := vlqWritesFollowTheirRules s
  obtain ⟨-, -, hreads⟩ := vlqReadsFollowTheirRules q
  obtain ⟨hrdvlqi, hrdvlql⟩ := hreads hreader
  refine ⟨fun v hv hs => ?_, fun v hv hs => ?_⟩
  · have hlt : v < 2 ^ 31 := lt_of_dinInt hv
    have hlen : vlqLen v ≤ 5 := vlqLen_le (by omega) (by omega)
    exact ⟨vlq_readBack hwrvlqi hrdvlqi hready hv hlt hlen hs,
      vlq_readBack hwrvlqi hrdvlql hready hv (by omega) (by omega) hs⟩
  · have hlt : v < 2 ^ 63 := lt_of_dinInt hv
    exact vlq_readBack hwrvlql hrdvlql hready hv hlt (vlqLen_le (by omega) hlt) hs

end Sys2Proof.Machine
